-- ==== Sys2Proof/Word.lean ====
section
/-!
DEFINITION. The words of the two-wire framing engine: bytes, line levels, lines, pin identifiers
and pin-port errors (spec/00_scope.md R13, R14, R16, R17).
-/

namespace Sys2Proof

/-- An 8-bit value, bit 0 the least significant (R16). -/
abbrev Byte := BitVec 8

/-- A line level: `0` is low, `1` is high (R17). -/
inductive Level where
  | low
  | high
  deriving DecidableEq, Repr, Inhabited

/-- A signal line by its role: `CLK` the CLOCK role, `DIN` the DATA role (R17, R20). -/
inductive Line where
  | clk
  | din
  deriving DecidableEq, Repr, Inhabited

/-- A physical pin identifier: decidable equality and no other structure is used (R13).
DESIGN CHOICE, log entry 2: the spec leaves the type open, the model names pins by numbers. -/
structure Pin where
  id : Nat
  deriving DecidableEq, Repr, Inhabited

/-- A failure reported by the pin port: carried, never inspected (R14).
DESIGN CHOICE, log entry 2: the spec leaves the type open, the model names errors by numbers. -/
structure PinErr where
  code : Nat
  deriving DecidableEq, Repr, Inhabited

end Sys2Proof
end

