-- ==== Sys2Proof/Config.lean ====
section
/-!
DEFINITION. The configuration of the engine (spec/00_scope.md section 3): the constants the spec
fixes, the record `Cfg` of the parameters it leaves open, and the free values no proof can see.
-/

namespace Sys2Proof

/-- `INIT_ORDER`: the order of the two configure requests (first letter) and of the two idle-drive
requests (second letter) of INITIALIZE, each CLOCK first or DATA first (R15). -/
inductive InitOrder where
  | cc
  | cd
  | dc
  | dd
  deriving DecidableEq, Repr, Inhabited

/-- The parameters the spec leaves open and the machine carries: the four control bytes (R12) and
`INIT_ORDER` (R15). They are configuration: nothing writes them (R36). -/
structure Cfg where
  /-- `CMD_DATA_WRITE` -/
  cmdDataWrite : Byte
  /-- `ADDR_SET_BASE` -/
  addrSetBase : Byte
  /-- `DISP_OFF` -/
  dispOff : Byte
  /-- `DISP_ON_BASE` -/
  dispOnBase : Byte
  /-- `INIT_ORDER` -/
  initOrder : InitOrder
  deriving DecidableEq, Repr

/-- The default configuration (R12, R15): the spec marks its values as general knowledge, see log
entry 1. -/
def Cfg.default : Cfg :=
  { cmdDataWrite := 0x40#8, addrSetBase := 0xC0#8, dispOff := 0x80#8, dispOnBase := 0x88#8,
    initOrder := .cc }

/-- The constraints every configuration satisfies (R70): (a) the low three bits of `DISP_ON_BASE`
are 0, (b) the low four bits of `ADDR_SET_BASE` are 0, (c) the byte sets of the four commands are
pairwise disjoint. -/
abbrev Cfg.Valid (c : Cfg) : Prop :=
  c.dispOnBase &&& 0x07#8 = 0#8 ∧
  c.addrSetBase &&& 0x0F#8 = 0#8 ∧
  (∀ a : BitVec 4, c.addrSetBase ||| a.setWidth 8 ≠ c.cmdDataWrite) ∧
  c.dispOff ≠ c.cmdDataWrite ∧
  (∀ s : BitVec 3, c.dispOnBase ||| s.setWidth 8 ≠ c.cmdDataWrite) ∧
  (∀ a : BitVec 4, c.addrSetBase ||| a.setWidth 8 ≠ c.dispOff) ∧
  (∀ a : BitVec 4, ∀ s : BitVec 3,
    c.addrSetBase ||| a.setWidth 8 ≠ c.dispOnBase ||| s.setWidth 8) ∧
  (∀ s : BitVec 3, c.dispOnBase ||| s.setWidth 8 ≠ c.dispOff)

namespace Config

/-- `MEM_SLOTS` (R8). -/
def memSlots : Nat := 16
/-- `ADDR_MAX` (R8): the largest offset of an AddressSet byte. -/
def addrMax : Nat := 15
/-- `MAX_LEVEL` (R9). -/
def maxLevel : Nat := 8
/-- `BRIGHT_STEPS` (R9): the device's brightness steps, codes 0 to 7. -/
def brightSteps : Nat := 8
/-- `T_START_D` (R10): the wait after DATA falls in the start condition. -/
def tStartD : Nat := 1
/-- `T_START_C` (R10): the wait after CLOCK falls in the start condition. -/
def tStartC : Nat := 1
/-- `T_SETUP` (R10): the wait between setting DATA and raising CLOCK. -/
def tSetup : Nat := 1
/-- `T_HIGH` (R10): the wait while CLOCK is high. -/
def tHigh : Nat := 2
/-- `T_LOW` (R10): the wait after CLOCK falls. -/
def tLow : Nat := 1
/-- `T_STOP_D` (R10): the wait after DATA falls in the stop condition. -/
def tStopD : Nat := 1
/-- `T_STOP_C` (R10): the wait after CLOCK rises in the stop condition. -/
def tStopC : Nat := 1
/-- `T_STOP_IDLE` (R10): the wait after DATA rises in the stop condition. -/
def tStopIdle : Nat := 2

/-- One less than `UNIT_US`: an open parameter with no value (R11). -/
opaque unitUsPred : Nat

/-- `UNIT_US`, the microseconds of one time-unit: open, at least 1 (R11). -/
def unitUs : Nat := unitUsPred + 1

/-- What the pin port does with one request: it answers `ok`, it answers `err(e)` (R18, R183), or
it never answers (R188). -/
inductive Answer where
  | ok
  | err (e : PinErr)
  | never
  deriving DecidableEq, Repr, Inhabited

/-- FREE VALUE (R90, R183): the pin port's answer to the request numbered `n`, under no law.
Log entry 3. -/
opaque portAnswer : Nat → Answer

/-- FREE VALUE (R57): the choice numbered `n` among several waiting callers. Log entry 4. -/
opaque callerChoice : Nat → Nat

end Config

end Sys2Proof
end

