-- ==== Sys2Proof/Syntax.lean ====
section
/-!
DEFINITION. The instructions: one constructor per row of spec/opcode_table.json. Three host
operations (spec/30_encoding.md R66), five framing primitives and three micro-operations (R68, R86),
and the six wire byte forms (R71 to R74, R79).
-/

namespace Sys2Proof

/-- An instruction of the two-wire framing engine. -/
inductive Instr where
  /-- INITIALIZE (R136) -/
  | initSession (clockPin dataPin : Pin)
  /-- WRITE_DISPLAY_MEMORY (R120) -/
  | writeDisplayMemory (bytes : List Byte) (offset : Nat)
  /-- SET_DISPLAY_CONTROL (R125) -/
  | setDisplayControl (brightness : Int)
  /-- BEGIN (R96) -/
  | beginTxn
  /-- BIT (R98) -/
  | bit (v : Level)
  /-- SEND (R99) -/
  | send (b : Byte)
  /-- END (R101) -/
  | endTxn
  /-- TXN (R102) -/
  | txn (bytes : List Byte)
  /-- CFG (R91) -/
  | cfgLine (line : Line)
  /-- SET (R92) -/
  | setLine (line : Line) (lv : Level)
  /-- WAIT (R93) -/
  | wait (n : Nat)
  /-- DATA_WRITE (R71) -/
  | dataWrite
  /-- ADDRESS_SET (R72), `a` the device address 0 to 15 -/
  | addressSet (a : BitVec 4)
  /-- ADDR_BYTE_16 (R123) -/
  | addrByte16
  /-- DISPLAY_OFF (R73) -/
  | displayOff
  /-- DISPLAY_ON (R73), `s` the brightness step 0 to 7 -/
  | displayOn (s : BitVec 3)
  /-- DATA_BYTE (R74) -/
  | dataByte (d : Byte)
  deriving DecidableEq, Repr

end Sys2Proof
end

