-- ==== Sys2Proof/WellFormed.lean ====
section
/-!
DEFINITION. Which instruction terms the spec gives: operand ranges that the types do not already
fix. A transaction carries at least one byte (spec/40_bus_framing.md R102) and a wait is of one or
two time-units (R93, spec/60_exceptions.md R182). The host operations take any argument
(spec/30_encoding.md R66).
-/

namespace Sys2Proof

/-- The check that a term is an instruction of the table. -/
def Instr.wellFormed : Instr → Bool
  | .initSession _ _ => true
  | .writeDisplayMemory _ _ => true
  | .setDisplayControl _ => true
  | .beginTxn => true
  | .bit _ => true
  | .send _ => true
  | .endTxn => true
  | .txn bytes => !bytes.isEmpty
  | .cfgLine _ => true
  | .setLine _ _ => true
  | .wait n => n == 1 || n == 2
  | .dataWrite => true
  | .addressSet _ => true
  | .addrByte16 => true
  | .displayOff => true
  | .displayOn _ => true
  | .dataByte _ => true

end Sys2Proof
end

