-- ==== Sys2Proof/Decode.lean ====
section
/-!
DEFINITION. The wire bytes, the only bit-level encoding of the engine (spec/30_encoding.md R65):
operand assembly (R75 to R77), the classifier (R87), the decoder of a received byte at its position
in a transaction, and the encoder.
-/

namespace Sys2Proof

/-- Where a byte stands in a received transaction (R69, R84): the control byte first, then payload
bytes if the control byte is an AddressSet byte, then bytes no command takes. -/
inductive Position where
  | control
  | payload
  | extra
  deriving DecidableEq, Repr

/-- The command a control byte names (R87). -/
inductive Class where
  | dw
  | addr (a : BitVec 4)
  | dcOff
  | dcOn (s : BitVec 3)
  | other
  deriving DecidableEq, Repr

/-- Why the decoder rejects: a control byte that is no command and no offset-16 byte (R80), a byte
after a control byte that takes none (R158), or no byte at all. -/
inductive Reject where
  | otherControlByte (b : Byte)
  | extraByte (b : Byte)
  | noByte
  deriving DecidableEq, Repr

/-- `enc_dw()` (R77). -/
def encDw (c : Cfg) : Byte := c.cmdDataWrite

/-- `enc_as(offset) = (ADDR_SET_BASE | offset) mod 256` (R75). -/
def encAs (c : Cfg) (offset : Nat) : Byte := c.addrSetBase ||| BitVec.ofNat 8 offset

/-- `enc_dc(level)` for a clamped level: `DISP_OFF` if 0, else `DISP_ON_BASE | (level − 1)`
(R76). -/
def encDc (c : Cfg) (level : Int) : Byte :=
  if level = 0 then c.dispOff else c.dispOnBase ||| BitVec.ofNat 8 (level - 1).toNat

/-- The control-byte classifier (R87), its cases in the spec's order. -/
def classify (c : Cfg) (b : Byte) : Class :=
  if b = c.cmdDataWrite then .dw
  else if b &&& ~~~0x0F#8 = c.addrSetBase then .addr (b.setWidth 4)
  else if b = c.dispOff then .dcOff
  else if b &&& ~~~0x07#8 = c.dispOnBase then .dcOn (b.setWidth 3)
  else .other

/-- The instruction a control byte is: the command of its class (R87), or the offset-16 byte
(R79), which `classify` calls OTHER. -/
def decodeControl (c : Cfg) (b : Byte) : Except Reject Instr :=
  match classify c b with
  | .dw => .ok .dataWrite
  | .addr a => .ok (.addressSet a)
  | .dcOff => .ok .displayOff
  | .dcOn s => .ok (.displayOn s)
  | .other => if b = encAs c 16 then .ok .addrByte16 else .error (.otherControlByte b)

/-- The instruction one byte is at its position in a transaction (R84). -/
def decodeByte (c : Cfg) (pos : Position) (b : Byte) : Except Reject Instr :=
  match pos with
  | .control => decodeControl c b
  | .payload => .ok (.dataByte b)
  | .extra => .error (.extraByte b)

/-- The decoder: the first instruction of a list of bytes and the bytes after it. Total on any
bytes; every rejection has a name. -/
def decode (c : Cfg) (pos : Position) : List Byte → Except Reject (Instr × List Byte)
  | [] => .error .noByte
  | b :: rest =>
    match decodeByte c pos b with
    | .ok i => .ok (i, rest)
    | .error r => .error r

/-- The position of the bytes after a control byte (R84): payload only after an AddressSet byte. -/
def restPosition (c : Cfg) (control : Byte) : Position :=
  match classify c control with
  | .addr _ => .payload
  | _ => .extra

/-- The bytes of a received transaction, each with its position (R69, R156). -/
def positions (c : Cfg) : List Byte → List (Position × Byte)
  | [] => []
  | b :: rest => (.control, b) :: rest.map (fun p => (restPosition c b, p))

/-- Whether an instruction is one of the six wire byte forms, the only ones with a bit pattern
(R65, R88). -/
def Instr.isWireByte : Instr → Bool
  | .dataWrite => true
  | .addressSet _ => true
  | .addrByte16 => true
  | .displayOff => true
  | .displayOn _ => true
  | .dataByte _ => true
  | .initSession _ _ => false
  | .writeDisplayMemory _ _ => false
  | .setDisplayControl _ => false
  | .beginTxn => false
  | .bit _ => false
  | .send _ => false
  | .endTxn => false
  | .txn _ => false
  | .cfgLine _ => false
  | .setLine _ _ => false
  | .wait _ => false

/-- The position a wire byte form is sent in (R79): payload for DATA_BYTE, control for the rest. -/
def Instr.position : Instr → Position
  | .dataByte _ => .payload
  | _ => .control

/-- The encoder (R71 to R77): the byte of a wire byte form; the other instructions have no bit
pattern (R88) and no bytes. -/
def encode (c : Cfg) : Instr → List Byte
  | .dataWrite => [encDw c]
  | .addressSet a => [encAs c a.toNat]
  | .addrByte16 => [encAs c 16]
  | .displayOff => [encDc c 0]
  | .displayOn s => [encDc c (s.toNat + 1)]
  | .dataByte d => [d]
  | .initSession _ _ => []
  | .writeDisplayMemory _ _ => []
  | .setDisplayControl _ => []
  | .beginTxn => []
  | .bit _ => []
  | .send _ => []
  | .endTxn => []
  | .txn _ => []
  | .cfgLine _ => []
  | .setLine _ _ => []
  | .wait _ => []

/-- The position at which a lone table word is read: as a control byte if it is one, else as a
payload byte, the row DATA_BYTE that matches every byte (R79, R88). -/
def tablePosition (c : Cfg) (b : Byte) : Position :=
  match decodeByte c .control b with
  | .ok _ => .control
  | .error _ => .payload

/-- The instruction the decoder reads from a table row's word in the default configuration: the
rows with a bit pattern are one byte long; other widths are no wire byte. -/
def decodeTableWord (nbits w : Nat) : Option Instr :=
  if nbits = 8 ∧ w < 256 then
    match decode Cfg.default (tablePosition Cfg.default (BitVec.ofNat 8 w)) [BitVec.ofNat 8 w] with
    | .ok (i, _) => some i
    | .error _ => none
  else none

end Sys2Proof
end

