-- ==== Sys2Proof/Machine/State.lean ====
section
/-!
DEFINITION. The state of the engine as plain data (spec/10_state.md R20 to R33), the reference
observer's state (spec/43_wire_decoder.md R150 to R157), the inputs of the step relation the model
holds (R37), the reasons a step can stop, and the state after reset (spec/70_reset_and_hazards.md
R190).
-/

namespace Sys2Proof.Machine

/-- A pair indexed by the lines (R20). -/
structure PerLine (α : Type) where
  clk : α
  din : α
  deriving DecidableEq, Repr

/-- A level the block knows, or unknown: `0`, `1`, `X` (R20). -/
inductive KLevel where
  | low
  | high
  | x
  deriving DecidableEq, Repr

/-- Configured as an output with pull-up: `NO`, `YES`, `X` (R20). -/
inductive KCfg where
  | no
  | yes
  | x
  deriving DecidableEq, Repr

/-- The session state (R20, R135). -/
inductive Session where
  | uninitialized
  | ready
  | dead
  deriving DecidableEq, Repr

/-- Whether an operation is in progress (R20). -/
inductive Phase where
  | idle
  | run
  deriving DecidableEq, Repr

/-- A host operation with its arguments (R66). -/
inductive Op where
  | initSession (clockPin dataPin : Pin)
  | writeDisplayMemory (bytes : List Byte) (offset : Nat)
  | setDisplayControl (brightness : Int)
  deriving DecidableEq, Repr

/-- A micro-operation: one request on the pin port or the timing port (R68). -/
inductive MicroOp where
  | cfg (line : Line)
  | set (line : Line) (lv : Level)
  | wait (n : Nat)
  deriving DecidableEq, Repr

/-- A pin-port answer as an event records it (R68). -/
inductive Resp where
  | ok
  | err (e : PinErr)
  deriving DecidableEq, Repr

/-- The result of an operation (R67): codes 0, 1, 2 and 3 in this order. -/
inductive Result where
  | ok
  | configurationError (k : Nat) (line : Line) (e : PinErr)
  | transmissionError (k : Nat) (line : Line) (lv : Level) (e : PinErr)
  | rangeError (offset length : Nat)
  deriving DecidableEq, Repr

/-- A model fault (R67, R172): codes 16, 17, 18 and 19 in this order. It is a mark in the state,
set by a step that answers a next state; it is not a `Fault` of the step function. -/
inductive ModelFault where
  | notReady
  | sessionDead
  | pinAlias
  | pinRebind
  deriving DecidableEq, Repr

/-- An event of the history (R33, R68). -/
inductive Event where
  | accept (op : Op)
  | cfg (line : Line) (pin : Pin) (resp : Resp)
  | set (line : Line) (pin : Pin) (lv : Level) (resp : Resp)
  | wait (n : Nat)
  | done (r : Result)
  | mfault (f : ModelFault)
  deriving DecidableEq, Repr

/-- The contents of the device's display memory (R48, R157): the slots whose byte is known, by
rising address. An unlisted slot is unknown. -/
abbrev Memory := List Host.Cell

/-- The device's state as the observer knows it (R157); `none` is unknown. -/
structure Device where
  /-- `dev_mem[0..15]`: the known slots -/
  mem : Memory
  /-- `dev_ptr` -/
  ptr : Option Nat
  /-- `dev_autoinc` -/
  autoinc : Option Bool
  /-- `dev_on` -/
  lit : Option Bool
  /-- `dev_step`, 0 to 7 -/
  step : Option (BitVec 3)
  deriving DecidableEq, Repr

/-- The decoder state of the observer (R152). -/
inductive Decoder where
  | pre
  | idle
  | active (bits : Byte) (n : Nat) (bytes : List Byte)
  | desync
  deriving DecidableEq, Repr

/-- What the decoder emits (R152). -/
inductive Token where
  | start
  | byte (b : Byte)
  | stop (bytes : List Byte)
  deriving DecidableEq, Repr

/-- The reference observer (R150 to R158). -/
structure Observer where
  /-- `w`: the wire levels as the history gives them (R150) -/
  wire : PerLine KLevel
  /-- whether the operation accepted last is an INITIALIZE (R152, R153) -/
  inInit : Bool
  /-- `dec` (R152) -/
  dec : Decoder
  /-- the tokens emitted, oldest first (R152) -/
  tokens : List Token
  /-- the device model (R157) -/
  dev : Device
  deriving DecidableEq, Repr

/-- The state of the machine. -/
structure State where
  /-- `Cfg`: the configuration, written by nothing (R36) -/
  params : Cfg
  /-- `session` (R22) -/
  session : Session
  /-- `clk_pin` (R23) -/
  clkPin : Option Pin
  /-- `din_pin` (R23) -/
  dinPin : Option Pin
  /-- `cfg[line]` (R24) -/
  lineCfg : PerLine KCfg
  /-- `lvl[line]` (R25) -/
  lvl : PerLine KLevel
  /-- `phase` (R27) -/
  phase : Phase
  /-- `cur`: the argument registers (R27) -/
  cur : Option Op
  /-- `useq`: the micro-sequence of the current operation (R27) -/
  useq : List MicroOp
  /-- `mpc`: the micro-step pointer (R27) -/
  mpc : Nat
  /-- `res` (R29) -/
  res : Option Result
  /-- `tx_fault_seen` (R30) -/
  txFaultSeen : Bool
  /-- `cfg_fault_seen` (R31) -/
  cfgFaultSeen : Bool
  /-- `mfault` (R32) -/
  mfault : Option ModelFault
  /-- `hist` (R33) -/
  hist : List Event
  /-- the reference observer over `hist` (R150 to R157) -/
  obs : Observer
  /-- input, the model's own field: each caller's requests in its own order, the first of each
  waiting to be accepted (R57). Log entry 4. -/
  callers : List (List Op)
  /-- input, the model's own field: the pin port's next answers as far as the state fixes them
  (R90). Log entry 3. -/
  answers : List Config.Answer
  /-- the model's own field: how many pin-port answers have been taken. Log entry 3. -/
  asked : Nat
  /-- the model's own field: how many choices among callers have been taken. Log entry 4. -/
  admitted : Nat
  /-- input, the model's own field: a lone byte handed to the device model, with its position. The
  block's own transactions do not pass through it. Log entry 5. -/
  arriving : Option (Position × Byte)
  deriving DecidableEq, Repr

/-- The reasons a step stops with a fault. -/
inductive Fault where
  /-- Raised by `step` when `phase = RUN` and `mpc` lies outside `useq`, so that `useq[mpc]` (R89)
  does not exist. No reachable state is such a state (R27). Safe: the machine stops. -/
  | sequencerOffEnd
  deriving DecidableEq, Repr

/-- The reasons a step refuses. -/
inductive Refusal where
  /-- An instruction whose arm has no meaning yet, rejected by `exec`. Safe: the machine stops. No
  arm of this model answers with it. -/
  | notModelled (mnemonic : String)
  deriving DecidableEq, Repr

/-- A device of which nothing is known (R157, R163). -/
def Device.unknown : Device :=
  { mem := [], ptr := none, autoinc := none, lit := none, step := none }

/-- The observer at reset (R150, R152, R157). -/
def Observer.reset : Observer :=
  { wire := { clk := .x, din := .x }, inInit := false, dec := .pre, tokens := [],
    dev := Device.unknown }

/-- The machine right after reset (R190, 10_state.md section 8), in the default configuration, with
no request made and no answer of the pin port fixed. -/
def State.reset : State :=
  { params := Cfg.default
    session := .uninitialized
    clkPin := none
    dinPin := none
    lineCfg := { clk := .no, din := .no }
    lvl := { clk := .x, din := .x }
    phase := .idle
    cur := none
    useq := []
    mpc := 0
    res := none
    txFaultSeen := false
    cfgFaultSeen := false
    mfault := none
    hist := []
    obs := Observer.reset
    callers := []
    answers := []
    asked := 0
    admitted := 0
    arriving := none }

end Sys2Proof.Machine
end

