-- ==== Sys2Proof/Machine/Operands.lean ====
section
/-!
DEFINITION. Operand forms: reading a pair by line, levels as the block records them, the bits of a
byte in wire order, the brightness clamp (spec/41_command_encoder.md R114), the range check (R118)
and the result and fault codes (spec/30_encoding.md R67).
-/

namespace Sys2Proof.Machine

/-- `p[line]`. -/
def PerLine.get {α : Type} (p : PerLine α) : Line → α
  | .clk => p.clk
  | .din => p.din

/-- `p[line] <- v`. -/
def PerLine.set {α : Type} (p : PerLine α) (l : Line) (v : α) : PerLine α :=
  match l with
  | .clk => { p with clk := v }
  | .din => { p with din := v }

end Sys2Proof.Machine

namespace Sys2Proof

/-- A commanded level as the block records it (R20, R25). -/
def Level.known : Level → Machine.KLevel
  | .low => .low
  | .high => .high

/-- A level as the bit the observer samples: high is 1 (R17). -/
def Level.toBool : Level → Bool
  | .low => false
  | .high => true

/-- "Drive DATA to the bit value": level 1 for bit value 1 (R17). -/
def Level.ofBool : Bool → Level
  | false => .low
  | true => .high

/-- `v[i]` as a level (R16, R17). -/
def Byte.bitLevel (b : Byte) (i : Nat) : Level := Level.ofBool (b.getLsbD i)

/-- The eight bits of a byte, least significant first (R50). -/
def Byte.wireBits (b : Byte) : List Level :=
  [Byte.bitLevel b 0, Byte.bitLevel b 1, Byte.bitLevel b 2, Byte.bitLevel b 3,
   Byte.bitLevel b 4, Byte.bitLevel b 5, Byte.bitLevel b 6, Byte.bitLevel b 7]

/-- `clamp(b) = max(0, min(b, 8))` (R114). -/
def clamp (b : Int) : Int := max 0 (min b Config.maxLevel)

/-- `in_range(offset, L) = (offset + L ≤ 16)`, without wrap (R117, R118). -/
def inRange (offset length : Nat) : Bool := decide (offset + length ≤ Config.memSlots)

/-- The microseconds a `WAIT(n)` asks of the timing port (R68, R181). -/
def delayMicroseconds (n : Nat) : Nat := n * Config.unitUs

end Sys2Proof

namespace Sys2Proof.Machine

/-- Whether a host operation is INITIALIZE. -/
def Op.isInit : Op → Bool
  | .initSession _ _ => true
  | .writeDisplayMemory _ _ => false
  | .setDisplayControl _ => false

/-- The host operation of a request as an instruction (R66). -/
def Op.toInstr : Op → Instr
  | .initSession pc pd => .initSession pc pd
  | .writeDisplayMemory bytes offset => .writeDisplayMemory bytes offset
  | .setDisplayControl b => .setDisplayControl b

/-- The micro-operation the sequencer is at, as an instruction (R68). -/
def MicroOp.toInstr : MicroOp → Instr
  | .cfg l => .cfgLine l
  | .set l lv => .setLine l lv
  | .wait n => .wait n

/-- The numeric code of a result (R67). -/
def Result.code : Result → Nat
  | .ok => 0
  | .configurationError _ _ _ => 1
  | .transmissionError _ _ _ _ => 2
  | .rangeError _ _ => 3

/-- The numeric code of a model fault (R67). -/
def ModelFault.code : ModelFault → Nat
  | .notReady => 16
  | .sessionDead => 17
  | .pinAlias => 18
  | .pinRebind => 19

end Sys2Proof.Machine
end

