-- ==== Sys2Proof/Machine/Observer.lean ====
section
/-!
DEFINITION. The reference observer (spec/43_wire_decoder.md): edges of the wire (R151), the decoder
(R152), the device's display memory, and the effect of each wire byte on the device model (R158).
-/

namespace Sys2Proof.Machine

/-! ### The device's display memory -/

/-- The canonical form: addresses strictly rising, and only the 16 slots that exist (R48, R49). No
entry can equal what an unlisted slot reads as, since that is no byte at all. -/
abbrev Memory.wf (m : Memory) : Prop :=
  m.Pairwise (fun x y => x.1 < y.1) ∧ ∀ x ∈ m, x.1 < Config.memSlots

/-- The byte of a slot, `none` where it is unknown (R157): what an unlisted address reads as. -/
def Memory.read : Memory → Nat → Option Byte
  | [], _ => none
  | (b, w) :: rest, a => if b = a then some w else Memory.read rest a

/-- `dev_mem[a] <- some v` (R158). -/
def Memory.write : Memory → Nat → Byte → Memory
  | [], a, v => [(a, v)]
  | (b, w) :: rest, a, v =>
    if a < b then (a, v) :: (b, w) :: rest
    else if a = b then (a, v) :: rest
    else (b, w) :: Memory.write rest a v

/-! ### The effect of each wire byte on the device (R158) -/

/-- DW: `dev_autoinc <- some true`. -/
def Device.selectAutoinc (d : Device) : Device := { d with autoinc := some true }

/-- AS(a): `dev_ptr <- some a`. -/
def Device.setPointer (a : BitVec 4) (d : Device) : Device := { d with ptr := some a.toNat }

/-- DC_OFF: `dev_on <- some false`. -/
def Device.turnOff (d : Device) : Device := { d with lit := some false }

/-- DC_ON(s): `dev_on <- some true; dev_step <- some s`. -/
def Device.turnOn (s : BitVec 3) (d : Device) : Device := { d with lit := some true, step := some s }

/-- One payload byte: it goes to the slot at the pointer and the pointer moves on, if auto-increment
is on and the pointer is a slot; otherwise all device state becomes unknown. -/
def Device.takePayload (p : Byte) (d : Device) : Device :=
  match d.autoinc, d.ptr with
  | some true, some q =>
    if q < Config.memSlots then { d with mem := Memory.write d.mem q p, ptr := some (q + 1) }
    else Device.unknown
  | _, _ => Device.unknown

/-- Applying a whole transaction `[c] ++ rest` at its STOP, as R158 writes it. -/
def Device.applyTransaction (c : Cfg) (control : Byte) (rest : List Byte) (d : Device) : Device :=
  match classify c control, rest with
  | .dw, [] => d.selectAutoinc
  | .addr a, ps => ps.foldl (fun e p => e.takePayload p) (d.setPointer a)
  | .dcOff, [] => d.turnOff
  | .dcOn s, [] => d.turnOn s
  | _, _ => Device.unknown

/-- Applying the bytes of one `STOP(bytes)` token, the first of them the control byte (R156); one
without any byte makes all device state unknown (log entry 6). -/
def Device.applyBytes (c : Cfg) (bytes : List Byte) (d : Device) : Device :=
  match bytes with
  | [] => Device.unknown
  | control :: rest => d.applyTransaction c control rest

/-- The effect on the device of a wire byte form; the offset-16 byte is OTHER and makes all device
state unknown (R159). The other instructions are no wire bytes and leave the device alone. -/
def Device.take (i : Instr) (d : Device) : Device :=
  match i with
  | .dataWrite => d.selectAutoinc
  | .addressSet a => d.setPointer a
  | .addrByte16 => Device.unknown
  | .displayOff => d.turnOff
  | .displayOn s => d.turnOn s
  | .dataByte p => d.takePayload p
  | _ => d

/-- The effect on the device of one received byte at its position: that of the instruction it
decodes to; a byte the decoder rejects makes all device state unknown (R158, last case). -/
def Device.applyByte (c : Cfg) (d : Device) (x : Position × Byte) : Device :=
  match decodeByte c x.1 x.2 with
  | .ok i => d.take i
  | .error _ => Device.unknown

/-! ### Edges -/

/-- The kinds of edge (R151); a rising CLOCK carries the sampled DATA level (R154). -/
inductive Edge where
  | clkRise (sample : Level)
  | clkFall
  | dFallHi
  | dRiseHi
  | dLow
  | unknown
  deriving DecidableEq, Repr

/-- The edge made when line `l` goes to `v` on a wire at `w`; no edge if nothing changes (R150,
R151). An edge with an unknown level of either line before or after is `UNKNOWN` (log entry 7). -/
def edgeOf (w : PerLine KLevel) (l : Line) (v : KLevel) : Option Edge :=
  if w.get l = v then none
  else
    match l, w.clk, w.din, v with
    | .clk, .low, .low, .high => some (.clkRise .low)
    | .clk, .low, .high, .high => some (.clkRise .high)
    | .clk, .high, .low, .low => some .clkFall
    | .clk, .high, .high, .low => some .clkFall
    | .din, .high, .high, .low => some .dFallHi
    | .din, .high, .low, .high => some .dRiseHi
    | .din, .low, .high, .low => some .dLow
    | .din, .low, .low, .high => some .dLow
    | _, _, _, _ => some .unknown

/-! ### The decoder -/

/-- Entering `DESYNC`: all device state becomes unknown (R163). -/
def Observer.loseSync (o : Observer) : Observer :=
  { o with dec := .desync, dev := Device.unknown }

/-- `STOP(bytes)`: the transaction is applied (R156, R158). -/
def Observer.receive (c : Cfg) (bytes : List Byte) (o : Observer) : Observer :=
  { o with dev := o.dev.applyBytes c bytes }

/-- A sampled bit inside a transaction (R152): `bits | (din << n)`, a whole byte emitted at 8. -/
def Observer.sample (v : Level) (bits : Byte) (n : Nat) (bytes : List Byte) (o : Observer) :
    Observer :=
  let bits' := bits ||| (BitVec.ofNat 8 v.toBool.toNat <<< n)
  if n + 1 = 8 then
    { o with dec := .active 0#8 0 (bytes ++ [bits']), tokens := o.tokens ++ [.byte bits'] }
  else { o with dec := .active bits' (n + 1) bytes }

/-- One edge fed to the decoder (R152). -/
def Observer.feed (c : Cfg) (e : Edge) (o : Observer) : Observer :=
  match o.dec, e with
  | .pre, _ => o
  | .desync, _ => o
  | .idle, .unknown => o.loseSync
  | .idle, .dFallHi => { o with dec := .active 0#8 0 [], tokens := o.tokens ++ [.start] }
  | .idle, .clkRise _ => o
  | .idle, .clkFall => o
  | .idle, .dLow => o
  | .idle, .dRiseHi => o
  | .active _ _ _, .unknown => o.loseSync
  | .active bits n bytes, .clkRise v => o.sample v bits n bytes
  | .active _ _ bytes, .dRiseHi =>
    Observer.receive c bytes { o with dec := .idle, tokens := o.tokens ++ [.stop bytes] }
  | .active _ _ _, .clkFall => o
  | .active _ _ _, .dLow => o
  | .active _ _ _, .dFallHi => o.loseSync

/-- The wire goes to `v` on line `l` (R150): every change is one edge. -/
def Observer.drive (c : Cfg) (l : Line) (v : KLevel) (o : Observer) : Observer :=
  match edgeOf o.wire l v with
  | none => o
  | some e => Observer.feed c e { o with wire := o.wire.set l v }

/-- One event of the history read by the observer (R150, R152, R153). -/
def Observer.see (c : Cfg) (e : Event) (o : Observer) : Observer :=
  match e with
  | .accept op => { o with inInit := op.isInit }
  | .cfg _ _ .ok => o
  | .cfg l _ (.err _) => o.drive c l .x
  | .set l _ lv .ok => o.drive c l lv.known
  | .set l _ _ (.err _) => o.drive c l .x
  | .wait _ => o
  | .done r => if o.dec = .pre ∧ o.inInit = true ∧ r = .ok then { o with dec := .idle } else o
  | .mfault _ => o

/-- The reference observer over a whole history: every event read in order from reset (R150). -/
def Observer.replay (c : Cfg) (hist : List Event) : Observer :=
  hist.foldl (fun o e => o.see c e) Observer.reset

end Sys2Proof.Machine
end

