-- ==== Sys2Proof/Machine/Flags.lean ====
section
/-!
DEFINITION. The status marks. The engine has no condition codes (spec/10_state.md R35); its only
status bits are the sticky marks of R30 to R32, set at the end of an operation by the per-kind
effects of spec/60_exceptions.md R168 to R170 and cleared by nothing.
-/

namespace Sys2Proof.Machine

/-- The mark `tx_fault_seen` after an operation ended with `r`: set by TRANSMISSION_ERROR (R30,
R169), never cleared. -/
def txMark (r : Result) (mark : Bool) : Bool :=
  match r with
  | .transmissionError _ _ _ _ => true
  | .ok => mark
  | .configurationError _ _ _ => mark
  | .rangeError _ _ => mark

/-- The mark `cfg_fault_seen` after an operation ended with `r`: set by CONFIGURATION_ERROR (R31,
R170), never cleared. -/
def cfgMark (r : Result) (mark : Bool) : Bool :=
  match r with
  | .configurationError _ _ _ => true
  | .ok => mark
  | .transmissionError _ _ _ _ => mark
  | .rangeError _ _ => mark

/-- The session after the operation `cur` ended with `r`: DEAD after CONFIGURATION_ERROR (R141,
R170), READY after an INITIALIZE that ended `OK` (R140, R166), otherwise as it was (R135, R148). -/
def sessionAfter (r : Result) (cur : Option Op) (session : Session) : Session :=
  match r with
  | .configurationError _ _ _ => .dead
  | .ok =>
    match cur with
    | some op => if op.isInit then .ready else session
    | none => session
  | .transmissionError _ _ _ _ => session
  | .rangeError _ _ => session

end Sys2Proof.Machine
end

