-- ==== Sys2Proof/Machine/Ops.lean ====
section
/-!
DEFINITION. The named operations over the state: the ports, the history, the line registers, the end
of an operation (spec/60_exceptions.md R166, R167), the model faults (R172), the acceptance of a
request (spec/42_device_session.md R144) and the sequencer's issue of one micro-operation
(spec/40_bus_framing.md R89 to R95).
-/

namespace Sys2Proof.Machine

/-! ### History, ports and line registers -/

/-- `hist <- hist ++ [e]` (R33); the observer reads the event (R150). -/
def State.emit (e : Event) (s : State) : State :=
  { s with hist := s.hist ++ [e], obs := s.obs.see s.params e }

/-- `pin_of(line)` (R23). -/
def State.pinOf (s : State) : Line → Option Pin
  | .clk => s.clkPin
  | .din => s.dinPin

/-- The pin port's answer to the `k`-th request from now (R90): the state's where it fixes one,
otherwise a free value. -/
def State.answerAt (s : State) (k : Nat) : Config.Answer :=
  match s.answers[k]? with
  | some a => a
  | none => Config.portAnswer (s.asked + k)

/-- The pin port's answer to the next request (R90, R183). -/
def State.portAnswer (s : State) : Config.Answer := s.answerAt 0

/-- The next answer is taken. -/
def State.takeAnswer (s : State) : State :=
  { s with answers := s.answers.tail, asked := s.asked + 1 }

/-- `cfg[line] <- v` (R24). -/
def State.setCfg (l : Line) (v : KCfg) (s : State) : State :=
  { s with lineCfg := s.lineCfg.set l v }

/-- `lvl[line] <- v` (R25). -/
def State.setLvl (l : Line) (v : KLevel) (s : State) : State :=
  { s with lvl := s.lvl.set l v }

/-- `mpc <- mpc + 1` (R27). Outside RUN there is no position to advance (log entry 8). -/
def State.advance (s : State) : State :=
  { s with mpc := if s.phase = .run then s.mpc + 1 else s.mpc }

/-- A change of the device model alone (R158). -/
def State.onDevice (f : Device → Device) (s : State) : State :=
  { s with obs := { s.obs with dev := f s.obs.dev } }

/-! ### Ending an operation -/

/-- The common last line of every ending (R166, R167, R172):
`phase <- IDLE; cur <- none; useq <- []; mpc <- 0`. -/
def State.toIdle (s : State) : State :=
  { s with phase := .idle, cur := none, useq := [], mpc := 0 }

/-- `res <- r` and the effects of `r` on the marks and the session (R166, R168 to R170). -/
def State.record (r : Result) (s : State) : State :=
  { s with
    res := some r
    session := sessionAfter r s.cur s.session
    txFaultSeen := txMark r s.txFaultSeen
    cfgFaultSeen := cfgMark r s.cfgFaultSeen }

/-- An operation ends with `r`: the result is recorded and delivered, the `done` event appended, the
sequencer cleared. `complete(OK)` (R166) is `s.conclude .ok`; `raise E` (R167) with its per-kind
effects (R168 to R170) is `s.conclude E`. -/
def State.conclude (r : Result) (s : State) : State := ((s.record r).emit (.done r)).toIdle

/-- `fault f` (R172): the mark is set, the `mfault` event appended, the sequencer cleared. -/
def State.modelFault (f : ModelFault) (s : State) : State :=
  ({ s with mfault := some f }.emit (.mfault f)).toIdle

/-! ### Requests -/

/-- A request that is not accepted now waits: its caller stays blocked on it (R57). -/
def State.hold (op : Op) (s : State) : State := { s with callers := s.callers ++ [[op]] }

/-- `cur <- op` and `accept(op)` appended (R144). -/
def State.latch (op : Op) (s : State) : State := { s with cur := some op }.emit (.accept op)

/-- The session check and what follows it (R144, R176): DEAD faults every operation, UNINITIALIZED
every one but INITIALIZE; otherwise the operation's own `body` runs. -/
def State.accept (op : Op) (body : State → State) (s : State) : State :=
  match s.session with
  | .dead => (s.latch op).modelFault .sessionDead
  | .uninitialized =>
    if op.isInit then body (s.latch op) else (s.latch op).modelFault .notReady
  | .ready => body (s.latch op)

/-- A request arrives (R144): accepted if `phase = IDLE` and `mfault = none`, otherwise it waits, for
ever if `mfault` is set (R32, R57). -/
def State.request (op : Op) (body : State → State) (s : State) : State :=
  if s.phase = .idle ∧ s.mfault = none then s.accept op body else s.hold op

/-- `useq <- ms; mpc <- 0; phase <- RUN` (R120, R125, R136). -/
def State.load (ms : List MicroOp) (s : State) : State :=
  { s with useq := ms, mpc := 0, phase := .run }

/-! ### The sequencer -/

/-- How the issue of a micro-operation ends: completed, or stopped (an `err` answer aborted the
operation, a request was never answered, or a model fault was set). -/
inductive Issued where
  | completed (s : State)
  | stopped (s : State)

/-- The error of a failed request on line `l` (R94): in an INITIALIZE, and for a failed `CFG`
(`lv` is `none`), CONFIGURATION_ERROR; for a failed `SET` elsewhere TRANSMISSION_ERROR. -/
def State.failure (s : State) (l : Line) (lv : Option Level) (e : PinErr) : Result :=
  match lv with
  | none => .configurationError s.mpc l e
  | some v =>
    match s.cur with
    | some (.initSession _ _) => .configurationError s.mpc l e
    | some (.writeDisplayMemory _ _) => .transmissionError s.mpc l v e
    | some (.setDisplayControl _) => .transmissionError s.mpc l v e
    | none => .transmissionError s.mpc l v e

/-- `abort(l, lv, e)` (R95): nothing more is issued, retried or rolled back; the operation ends with
the error of R94. -/
def State.abort (l : Line) (lv : Option Level) (e : PinErr) (s : State) : State :=
  s.conclude (s.failure l lv e)

/-- `CFG(l)` (R91). A request that is never answered leaves the state as it is (R188); one on an
unbound line is the model fault NOT_READY (log entry 8). -/
def State.issueCfg (l : Line) (s : State) : Issued :=
  match s.pinOf l with
  | none => .stopped (s.modelFault .notReady)
  | some pin =>
    match s.portAnswer with
    | .never => .stopped s
    | .ok => .completed ((s.takeAnswer.emit (.cfg l pin .ok)).setCfg l .yes).advance
    | .err e =>
      .stopped ((((s.takeAnswer.emit (.cfg l pin (.err e))).setCfg l .x).setLvl l .x).abort l none e)

/-- `SET(l, lv)` (R92). A request that is never answered leaves the state as it is (R188); one on an
unbound line is the model fault NOT_READY (log entry 8). -/
def State.issueSet (l : Line) (lv : Level) (s : State) : Issued :=
  match s.pinOf l with
  | none => .stopped (s.modelFault .notReady)
  | some pin =>
    match s.portAnswer with
    | .never => .stopped s
    | .ok => .completed ((s.takeAnswer.emit (.set l pin lv .ok)).setLvl l lv.known).advance
    | .err e =>
      .stopped (((s.takeAnswer.emit (.set l pin lv (.err e))).setLvl l .x).abort l (some lv) e)

/-- `WAIT(n)` (R93): it always completes; its duration is recorded nowhere. -/
def State.issueWait (n : Nat) (s : State) : Issued := .completed (s.emit (.wait n)).advance

/-- One micro-operation issued (R89). -/
def State.issue (m : MicroOp) (s : State) : Issued :=
  match m with
  | .cfg l => s.issueCfg l
  | .set l lv => s.issueSet l lv
  | .wait n => s.issueWait n

/-- The last line of the sequencer step (R89): an operation whose micro-operations have all completed
ends `OK` (R166). -/
def State.finish (s : State) : State :=
  if s.phase = .run ∧ s.useq.length ≤ s.mpc then s.conclude .ok else s

/-- A list of micro-operations issued in order, each completing before the next (R58), up to the
first that stops (R95); then the check for the end of the operation (R89). -/
def State.issueAll : List MicroOp → State → State
  | [], s => s.finish
  | m :: ms, s =>
    match s.issue m with
    | .completed t => State.issueAll ms t
    | .stopped t => t

/-- A micro-operation or framing primitive executes: nothing is issued once `mfault` is set (R32).
Inside an operation the sequencer's session check is past; outside one the framing layer is called
"beforehand" in UNINITIALIZED and unsafely in DEAD, which are the model faults of R172 (log
entry 8). -/
def State.framing (ms : List MicroOp) (s : State) : State :=
  if s.mfault = none then
    match s.phase, s.session with
    | .run, _ => s.issueAll ms
    | .idle, .ready => s.issueAll ms
    | .idle, .uninitialized => s.modelFault .notReady
    | .idle, .dead => s.modelFault .sessionDead
  else s

end Sys2Proof.Machine
end

