-- ==== Sys2Proof/Machine/Framing.lean ====
section
/-!
DEFINITION. Bus framing (spec/40_bus_framing.md): the micro-sequences of the framing primitives
(R96 to R102), and the meanings of the three micro-operations and the five primitives.
-/

namespace Sys2Proof.Machine

namespace Framing

/-- `BEGIN` (R96): the start condition. -/
def beginSeq : List MicroOp :=
  [.set .din .low, .wait Config.tStartD, .set .clk .low, .wait Config.tStartC]

/-- `BIT(v)` (R98): the per-bit transmitter. -/
def bitSeq (v : Level) : List MicroOp :=
  [.set .din v, .wait Config.tSetup, .set .clk .high, .wait Config.tHigh, .set .clk .low,
   .wait Config.tLow]

/-- `SEND(b)` (R99): the eight bits, least significant first. -/
def sendSeq (b : Byte) : List MicroOp := (Byte.wireBits b).flatMap bitSeq

/-- `END` (R101): the stop condition. -/
def endSeq : List MicroOp :=
  [.set .din .low, .wait Config.tStopD, .set .clk .high, .wait Config.tStopC, .set .din .high,
   .wait Config.tStopIdle]

/-- `TXN(bytes)` (R102): one transaction. -/
def txnSeq (bytes : List Byte) : List MicroOp := beginSeq ++ bytes.flatMap sendSeq ++ endSeq

end Framing

/-- CFG (R91): the pin of the line is configured, then the end of the operation is checked (R89). -/
def execCfg (line : Line) (s : State) : Host.Outcome State Fault Refusal :=
  .next (s.framing [.cfg line])

/-- SET (R92): the line is driven, then the end of the operation is checked (R89). -/
def execSet (line : Line) (lv : Level) (s : State) : Host.Outcome State Fault Refusal :=
  .next (s.framing [.set line lv])

/-- WAIT (R93), then the end of the operation is checked (R89). -/
def execWait (n : Nat) (s : State) : Host.Outcome State Fault Refusal :=
  .next (s.framing [.wait n])

/-- BEGIN (R96): its four micro-operations in order. -/
def execBegin (s : State) : Host.Outcome State Fault Refusal :=
  .next (s.framing Framing.beginSeq)

/-- BIT (R98): its six micro-operations in order. -/
def execBit (v : Level) (s : State) : Host.Outcome State Fault Refusal :=
  .next (s.framing (Framing.bitSeq v))

/-- SEND (R99): its 48 micro-operations in order. -/
def execSend (b : Byte) (s : State) : Host.Outcome State Fault Refusal :=
  .next (s.framing (Framing.sendSeq b))

/-- END (R101): its six micro-operations in order. -/
def execEnd (s : State) : Host.Outcome State Fault Refusal :=
  .next (s.framing Framing.endSeq)

/-- TXN (R102): BEGIN, the bytes and END. -/
def execTxn (bytes : List Byte) (s : State) : Host.Outcome State Fault Refusal :=
  .next (s.framing (Framing.txnSeq bytes))

end Sys2Proof.Machine
end

