-- ==== Sys2Proof/Machine/Encoder.lean ====
section
/-!
DEFINITION. The command encoder (spec/41_command_encoder.md): WRITE_DISPLAY_MEMORY and
SET_DISPLAY_CONTROL.
-/

namespace Sys2Proof.Machine

/-- The micro-sequence of an accepted WRITE_DISPLAY_MEMORY (R120): the data-write transaction (R121)
and the address-set transaction with the payload (R122). -/
def writeSeq (c : Cfg) (bytes : List Byte) (offset : Nat) : List MicroOp :=
  Framing.txnSeq [encDw c] ++ Framing.txnSeq (encAs c offset :: bytes)

/-- The micro-sequence of SET_DISPLAY_CONTROL (R125): one transaction of one control byte. -/
def controlSeq (c : Cfg) (brightness : Int) : List MicroOp :=
  Framing.txnSeq [encDc c (clamp brightness)]

/-- WRITE_DISPLAY_MEMORY after the session check (R120): RANGE_ERROR before any bus activity (R119),
or the two transactions are loaded. -/
def startWrite (bytes : List Byte) (offset : Nat) (s : State) : State :=
  if inRange offset bytes.length then s.load (writeSeq s.params bytes offset)
  else s.conclude (.rangeError offset bytes.length)

/-- SET_DISPLAY_CONTROL after the session check (R125): every brightness is accepted, clamped. -/
def startControl (brightness : Int) (s : State) : State :=
  s.load (controlSeq s.params brightness)

/-- WRITE_DISPLAY_MEMORY (R120): the request. -/
def execWriteDisplayMemory (bytes : List Byte) (offset : Nat) (s : State) :
    Host.Outcome State Fault Refusal :=
  .next (s.request (.writeDisplayMemory bytes offset) (startWrite bytes offset))

/-- SET_DISPLAY_CONTROL (R125): the request. -/
def execSetDisplayControl (brightness : Int) (s : State) : Host.Outcome State Fault Refusal :=
  .next (s.request (.setDisplayControl brightness) (startControl brightness))

end Sys2Proof.Machine
end

