-- ==== Sys2Proof/Machine/Session.lean ====
section
/-!
DEFINITION. The device session (spec/42_device_session.md): INITIALIZE, and the micro-sequence of
each host operation as a function of the operation and the configuration (spec/10_state.md R27).
-/

namespace Sys2Proof.Machine

/-- `INIT_SEQ(INIT_ORDER)` (R137): both configure requests, then both idle-drive requests. -/
def initSeq : InitOrder → List MicroOp
  | .cc => [.cfg .clk, .cfg .din, .set .clk .high, .set .din .high]
  | .cd => [.cfg .clk, .cfg .din, .set .din .high, .set .clk .high]
  | .dc => [.cfg .din, .cfg .clk, .set .clk .high, .set .din .high]
  | .dd => [.cfg .din, .cfg .clk, .set .din .high, .set .clk .high]

/-- `clk_pin <- pc; din_pin <- pd` (R136). -/
def State.bind (pc pd : Pin) (s : State) : State :=
  { s with clkPin := some pc, dinPin := some pd }

/-- INITIALIZE after the session check (R136): PIN_ALIAS (R143), PIN_REBIND in READY with other pins
(R142), or the lines are bound and `INIT_SEQ` is loaded. -/
def startInit (pc pd : Pin) (s : State) : State :=
  if pc = pd then s.modelFault .pinAlias
  else if s.session = .ready ∧ (some pc, some pd) ≠ (s.clkPin, s.dinPin) then
    s.modelFault .pinRebind
  else (s.bind pc pd).load (initSeq s.params.initOrder)

/-- The micro-sequence of an operation, a pure function of the operation and the configuration
(R27, R62); empty for a write out of range (R119). -/
def microSeq (c : Cfg) : Op → List MicroOp
  | .initSession _ _ => initSeq c.initOrder
  | .writeDisplayMemory bytes offset =>
    if inRange offset bytes.length then writeSeq c bytes offset else []
  | .setDisplayControl b => controlSeq c b

/-- INITIALIZE (R136): the request. -/
def execInitialize (clockPin dataPin : Pin) (s : State) : Host.Outcome State Fault Refusal :=
  .next (s.request (.initSession clockPin dataPin) (startInit clockPin dataPin))

end Sys2Proof.Machine
end

