-- ==== Sys2Proof/Machine/Wire.lean ====
section
/-!
DEFINITION. The wire bytes: the meaning of each byte form, executed alone, is its effect on the device
model (spec/43_wire_decoder.md R158, R159; log entry 13). The block sends the same bytes inside its
transactions (spec/30_encoding.md R79), which the observer applies whole, and keeps no device state
(R38, R130).
-/

namespace Sys2Proof.Machine

/-- DATA_WRITE (R71, R158): auto-increment is selected. -/
def execDataWrite (s : State) : Host.Outcome State Fault Refusal :=
  .next (s.onDevice Device.selectAutoinc)

/-- ADDRESS_SET (R72, R158): the address pointer is repositioned. -/
def execAddressSet (a : BitVec 4) (s : State) : Host.Outcome State Fault Refusal :=
  .next (s.onDevice (Device.setPointer a))

/-- ADDR_BYTE_16 (R123, R159): it is no AddressSet byte and makes all device state unknown. -/
def execAddrByte16 (s : State) : Host.Outcome State Fault Refusal :=
  .next (s.onDevice (fun _ => Device.unknown))

/-- DISPLAY_OFF (R73, R158). -/
def execDisplayOff (s : State) : Host.Outcome State Fault Refusal :=
  .next (s.onDevice Device.turnOff)

/-- DISPLAY_ON (R73, R158): the display is on at a brightness step. -/
def execDisplayOn (st : BitVec 3) (s : State) : Host.Outcome State Fault Refusal :=
  .next (s.onDevice (Device.turnOn st))

/-- DATA_BYTE (R74, R158): the byte goes, unchanged, to the slot at the pointer. -/
def execDataByte (d : Byte) (s : State) : Host.Outcome State Fault Refusal :=
  .next (s.onDevice (Device.takePayload d))

end Sys2Proof.Machine
end

