-- ==== Sys2Proof/Machine/Dispatch.lean ====
section
/-!
DEFINITION. The dispatch: one arm per instruction, each one call of its meaning.
-/

namespace Sys2Proof.Machine

def exec (i : Instr) (s : State) : Host.Outcome State Fault Refusal :=
  match i with
  | .initSession pc pd => Sys2Proof.Machine.execInitialize pc pd s
  | .writeDisplayMemory bytes offset => Sys2Proof.Machine.execWriteDisplayMemory bytes offset s
  | .setDisplayControl b => Sys2Proof.Machine.execSetDisplayControl b s
  | .beginTxn => Sys2Proof.Machine.execBegin s
  | .bit v => Sys2Proof.Machine.execBit v s
  | .send b => Sys2Proof.Machine.execSend b s
  | .endTxn => Sys2Proof.Machine.execEnd s
  | .txn bytes => Sys2Proof.Machine.execTxn bytes s
  | .cfgLine l => Sys2Proof.Machine.execCfg l s
  | .setLine l lv => Sys2Proof.Machine.execSet l lv s
  | .wait n => Sys2Proof.Machine.execWait n s
  | .dataWrite => Sys2Proof.Machine.execDataWrite s
  | .addressSet a => Sys2Proof.Machine.execAddressSet a s
  | .addrByte16 => Sys2Proof.Machine.execAddrByte16 s
  | .displayOff => Sys2Proof.Machine.execDisplayOff s
  | .displayOn st => Sys2Proof.Machine.execDisplayOn st s
  | .dataByte d => Sys2Proof.Machine.execDataByte d s

end Sys2Proof.Machine
end

