-- ==== Sys2Proof/Machine/Fetch.lean ====
section
/-!
DEFINITION. What the machine runs next. While an operation is in progress: the micro-operation at
`mpc`, and nothing else (spec/40_bus_framing.md R89). Otherwise: a lone byte handed to the device model
(log entry 5), or a waiting request (spec/20_memory.md R57).
-/

namespace Sys2Proof.Machine

/-- What a step finds to do. -/
inductive Fetched where
  /-- the instruction to run, and the state it runs on -/
  | instr (i : Instr) (s : State)
  /-- a lone byte the decoder rejects has been taken: the state after it (R158, last case) -/
  | absorbed (s : State)
  /-- nothing: the block is idle with no request, or quiescent (R32, R191) -/
  | nothing
  /-- `useq[mpc]` does not exist (R89) -/
  | offEnd

/-- The machine after the lone byte has been taken. -/
def State.dropArriving (s : State) : State := { s with arriving := none }

/-- The lone byte decoded at its position (R84, R158). -/
def State.fetchByte (x : Position × Byte) (s : State) : Fetched :=
  match decode s.params x.1 [x.2] with
  | .ok (i, _) => .instr i s.dropArriving
  | .error _ => .absorbed (s.dropArriving.onDevice (fun _ => Device.unknown))

/-- The callers with a request waiting, in order (R57). -/
def State.waiting (s : State) : List (List Op) := s.callers.filter (fun c => !c.isEmpty)

/-- Which of the waiting callers is next (R57): the only one, or a free choice (log entry 4). -/
def State.nextCaller (s : State) : Nat :=
  if s.waiting.length = 1 then 0 else Config.callerChoice s.admitted % s.waiting.length

/-- The machine after the request of caller `k` has been taken. -/
def State.dropRequest (k : Nat) (s : State) : State :=
  { s with
    callers := (s.waiting.modify k List.tail).filter (fun c => !c.isEmpty)
    admitted := if s.waiting.length = 1 then s.admitted else s.admitted + 1 }

/-- A waiting request taken while the block is idle (R57): the first of the chosen caller. -/
def State.fetchRequest (s : State) : Fetched :=
  match s.waiting[s.nextCaller]? with
  | some (op :: _) => .instr op.toInstr (s.dropRequest s.nextCaller)
  | some [] => .nothing
  | none => .nothing

/-- The micro-operation an operation in progress is at (R89). -/
def State.fetchMicro (s : State) : Fetched :=
  match s.useq[s.mpc]? with
  | some m => .instr m.toInstr s
  | none => .offEnd

/-- While no operation is in progress: a lone byte, else a waiting request; no request is taken once
a model fault is set (R32). -/
def State.fetchOutside (s : State) : Fetched :=
  match s.arriving with
  | some x => s.fetchByte x
  | none => if s.mfault = none then s.fetchRequest else .nothing

/-- What the machine runs next: an operation in progress has every step (R89). -/
def State.fetch (s : State) : Fetched :=
  if s.phase = .run ∧ s.mfault = none then s.fetchMicro else s.fetchOutside

/-- A lone byte placed where the next step takes it: as a control byte if it is one, else as a payload
byte (R79, R84). An operation in progress would have the step, so none is. -/
def State.placeByte (s : State) (b : Byte) : State :=
  { s with phase := .idle, arriving := some (tablePosition s.params b, b) }

end Sys2Proof.Machine
end

