-- ==== Sys2Proof/Machine/Step.lean ====
section
/-!
DEFINITION. One step of the machine: what is fetched is run. Idle with no request, or quiescent
after a model fault, the machine stays as it is (spec/10_state.md R32, spec/70_reset_and_hazards.md
R191).
-/

namespace Sys2Proof.Machine

/-- One step. -/
def step (s : State) : Host.Outcome State Fault Refusal :=
  match s.fetch with
  | .instr i t => exec i t
  | .absorbed t => .next t
  | .nothing => .next s
  | .offEnd => .fault .sequencerOffEnd

/-- `s` with the wire byte `w` handed to the device model, so that the next step takes it (log
entry 5). Only the wire byte rows have bits (R88): one byte, whatever `nbits` says below 8. -/
def State.withFetchWord (s : State) (_nbits w : Nat) : State := s.placeByte (BitVec.ofNat 8 w)

end Sys2Proof.Machine
end

