-- ==== Sys2Proof/Machine/Timing.lean ====
section
/-!
DEFINITION. The timing checker over the history (spec/70_reset_and_hazards.md R197 to R199): the
`wait` events between two consecutive pin requests are summed and compared with the window of the two.
The observer does not judge timing (spec/43_wire_decoder.md R164) and no rule of the block reads this.
How it reads a history is log entry 17.
-/

namespace Sys2Proof.Machine

/-- A pin request of the history, whatever its answer. -/
inductive PinRequest where
  | cfg (line : Line)
  | set (line : Line) (lv : Level)
  deriving DecidableEq, Repr

/-- A completed `SET` of a write or display control, the waits after it, and the pin request that ends
them. -/
structure Gap where
  line : Line
  lv : Level
  waits : List Nat
  next : PinRequest
  deriving DecidableEq, Repr

/-- The window of R197 and R198 between a `SET` and the pin request after it, in time-units; 0 for
pairs the two rules do not name. A pair alone does not tell the setup of a bit from the first wait of
the stop condition, nor the wait after a bit from the one after the start condition: of such two
windows the larger is taken. -/
def window : Line → Level → PinRequest → Nat
  | .din, _, .set .clk .high => max Config.tSetup Config.tStopD
  | .clk, .high, .set .clk .low => Config.tHigh
  | .clk, .low, .set .din _ => max Config.tLow Config.tStartC
  | .din, _, .set .clk .low => Config.tStartD
  | .clk, .high, .set .din _ => Config.tStopC
  | .din, _, .set .din _ => Config.tStopIdle
  | .din, _, .cfg _ => Config.tStopIdle
  | .clk, .low, .set .clk _ => 0
  | .clk, .high, .set .clk .high => 0
  | .clk, _, .cfg _ => 0

/-- The window of a gap. -/
def Gap.window (g : Gap) : Nat := Machine.window g.line g.lv g.next

/-- What the checker remembers of the history read so far: the `SET` whose gap is open, the waits
since, and whether the operation accepted last is a write or display control. -/
structure Watch where
  last : Option (Line × Level)
  waits : List Nat
  timed : Bool
  deriving DecidableEq, Repr

/-- Before the first event. -/
def Watch.start : Watch := { last := none, waits := [], timed := false }

/-- One event read. The `SET`s of INITIALIZE open no gap, since it issues no wait and the gap after it
is not bounded (R138, R200); a failed request opens none, since the bus is then indeterminate (R203). -/
def Watch.see (w : Watch) (e : Event) : Watch :=
  match e with
  | .accept op => { w with timed := !op.isInit }
  | .cfg _ _ _ => { w with last := none, waits := [] }
  | .set l _ lv .ok => { w with last := if w.timed then some (l, lv) else none, waits := [] }
  | .set _ _ _ (.err _) => { w with last := none, waits := [] }
  | .wait n => { w with waits := w.waits ++ [n] }
  | .done _ => w
  | .mfault _ => w

/-- The gap that a pin request ends, if one is open. -/
def Watch.close (w : Watch) (r : PinRequest) : List Gap :=
  match w.last with
  | some (l, lv) => [{ line := l, lv := lv, waits := w.waits, next := r }]
  | none => []

/-- The gap that an event ends. -/
def Watch.gaps (w : Watch) (e : Event) : List Gap :=
  match e with
  | .cfg l _ _ => w.close (.cfg l)
  | .set l _ lv _ => w.close (.set l lv)
  | .accept _ => []
  | .wait _ => []
  | .done _ => []
  | .mfault _ => []

/-- The gaps of a history read on from `w`, in order. -/
def gapsFrom (w : Watch) : List Event → List Gap
  | [] => []
  | e :: es => w.gaps e ++ gapsFrom (w.see e) es

/-- The gaps of a history. -/
def gaps (hist : List Event) : List Gap := gapsFrom Watch.start hist

/-- The timing checker (R199): every sum of waits reaches its window. -/
def timingOk (hist : List Event) : Bool :=
  (gaps hist).all (fun g => decide (g.window ≤ g.waits.sum))

end Sys2Proof.Machine
end

