-- ==== Sys2Proof/Safety.lean ====
section
/-!
DEFINITION. What counts as a safe run, in the terms the statements use: the end of a run
(spec/60_exceptions.md R189), a clean port (R183), quiescence (spec/10_state.md R32), and the
invariants every step keeps.
-/

namespace Sys2Proof.Machine

/-- The pin port answers `ok` to the next `n` requests: the clean-port premise (R183), with "every
request is answered" (R188) included. -/
def State.CleanFor (n : Nat) (s : State) : Prop := ∀ k, k < n → s.answerAt k = .ok

/-- The block is at rest: idle, no model fault. -/
def State.Resting (s : State) : Prop := s.phase = .idle ∧ s.mfault = none

/-- A run has ended (R189): idle and no request waiting. -/
def State.Ended (s : State) : Prop := s.phase = .idle ∧ s.waiting = []

/-- A run has ended successfully (R189). -/
def State.EndedWell (s : State) : Prop := s.Ended ∧ s.mfault = none

/-- A framing primitive or micro-operation may be issued on the pins `pc` and `pd`: no model fault,
both lines bound to them, and either an operation is in progress or the session is READY (R144). -/
def State.IssuesOn (pc pd : Pin) (s : State) : Prop :=
  s.mfault = none ∧ (s.phase = .run ∨ s.session = .ready) ∧
    s.clkPin = some pc ∧ s.dinPin = some pd

/-- The operation in progress has at most `n` micro-operations left, so that it ends with them
(R27, R89). -/
abbrev State.EndsWithin (n : Nat) (s : State) : Prop := s.phase = .run ∧ s.useq.length ≤ s.mpc + n

/-- The pin of a line (R23). -/
def pinOfLine (pc pd : Pin) : Line → Pin
  | .clk => pc
  | .din => pd

/-- The events of micro-operations that all complete (R33, R91 to R93). -/
def eventsOf (pc pd : Pin) : List MicroOp → List Event
  | [] => []
  | .cfg l :: ms => .cfg l (pinOfLine pc pd l) .ok :: eventsOf pc pd ms
  | .set l lv :: ms => .set l (pinOfLine pc pd l) lv .ok :: eventsOf pc pd ms
  | .wait n :: ms => .wait n :: eventsOf pc pd ms

/-- The events of the start condition on an `ok` port (R96). -/
def beginEvents (pc pd : Pin) : List Event :=
  [.set .din pd .low .ok, .wait 1, .set .clk pc .low .ok, .wait 1]

/-- The events of one transmitted bit on an `ok` port (R98). -/
def bitEvents (pc pd : Pin) (v : Level) : List Event :=
  [.set .din pd v .ok, .wait 1, .set .clk pc .high .ok, .wait 2, .set .clk pc .low .ok, .wait 1]

/-- The events of one transmitted byte on an `ok` port: bit 0 first (R99). -/
def byteEvents (pc pd : Pin) (b : Byte) : List Event :=
  (List.range 8).flatMap (fun i => bitEvents pc pd (Level.ofBool (b.getLsbD i)))

/-- The events of the stop condition on an `ok` port (R101). -/
def endEvents (pc pd : Pin) : List Event :=
  [.set .din pd .low .ok, .wait 1, .set .clk pc .high .ok, .wait 1, .set .din pd .high .ok, .wait 2]

/-- The events of one transaction on an `ok` port (R102). -/
def txnEvents (pc pd : Pin) (bytes : List Byte) : List Event :=
  beginEvents pc pd ++ bytes.flatMap (byteEvents pc pd) ++ endEvents pc pd

/-- `t` is `s` after `n` micro-operations that all completed, with `uses` pin-port answers taken, the
events `evs` appended, and the line registers left at `lv` and `lc`. If they were the last of the
operation in progress it has ended `OK` (R89, R166), an INITIALIZE with the session READY (R140);
otherwise the sequencer has moved on by `n` while in RUN (R27). Everything else but the observer,
which the events feed, is as before. -/
def State.CompletedTo (n uses : Nat) (evs : List Event) (lv : PerLine KLevel) (lc : PerLine KCfg)
    (s t : State) : Prop :=
  t.lvl = lv ∧ t.lineCfg = lc ∧
  t.answers = s.answers.drop uses ∧ t.asked = s.asked + uses ∧
  (s.EndsWithin n →
    t.hist = s.hist ++ evs ++ [.done .ok] ∧ t.res = some .ok ∧
    t.phase = .idle ∧ t.cur = none ∧ t.useq = [] ∧ t.mpc = 0 ∧
    ((∃ pc pd, s.cur = some (.initSession pc pd)) → t.session = .ready) ∧
    ((¬ ∃ pc pd, s.cur = some (.initSession pc pd)) → t.session = s.session)) ∧
  (¬ s.EndsWithin n →
    t.hist = s.hist ++ evs ∧ t.res = s.res ∧ t.phase = s.phase ∧ t.cur = s.cur ∧
    t.useq = s.useq ∧ t.session = s.session ∧
    t.mpc = (if s.phase = .run then s.mpc + n else s.mpc)) ∧
  t.params = s.params ∧ t.clkPin = s.clkPin ∧ t.dinPin = s.dinPin ∧
  t.txFaultSeen = s.txFaultSeen ∧ t.cfgFaultSeen = s.cfgFaultSeen ∧ t.mfault = s.mfault ∧
  t.callers = s.callers ∧ t.admitted = s.admitted ∧ t.arriving = s.arriving

/-- `t` is `s` after the operation in progress ended with the error `r` (R167): the result, the
events, the sequencer cleared, the line registers left at `lv` and `lc`; one answer was taken.
The per-kind effects (R168 to R170) are for the statement to add. -/
def State.FailedTo (r : Result) (evs : List Event) (lv : PerLine KLevel) (lc : PerLine KCfg)
    (s t : State) : Prop :=
  t.res = some r ∧ t.hist = s.hist ++ evs ++ [.done r] ∧
  t.phase = .idle ∧ t.cur = none ∧ t.useq = [] ∧ t.mpc = 0 ∧
  t.lvl = lv ∧ t.lineCfg = lc ∧
  t.params = s.params ∧ t.clkPin = s.clkPin ∧ t.dinPin = s.dinPin ∧ t.mfault = s.mfault ∧
  t.callers = s.callers ∧ t.admitted = s.admitted ∧ t.arriving = s.arriving

/-- The level pair a list of completed micro-operations leaves (R91 to R93). -/
def levelsAfter : List MicroOp → PerLine KLevel → PerLine KLevel
  | [], p => p
  | .cfg _ :: ms, p => levelsAfter ms p
  | .set l lv :: ms, p => levelsAfter ms (p.set l lv.known)
  | .wait _ :: ms, p => levelsAfter ms p

/-- The configuration records a list of completed micro-operations leaves (R91). -/
def cfgsAfter : List MicroOp → PerLine KCfg → PerLine KCfg
  | [], p => p
  | .cfg l :: ms, p => cfgsAfter ms (p.set l .yes)
  | .set _ _ :: ms, p => cfgsAfter ms p
  | .wait _ :: ms, p => cfgsAfter ms p

/-- The device after the transactions of the `STOP`s among some tokens, each applied at its `STOP`
(R158). -/
def applyStops (c : Cfg) : List Token → Device → Device
  | [], d => d
  | .start :: ts, d => applyStops c ts d
  | .byte _ :: ts, d => applyStops c ts d
  | .stop bytes :: ts, d => applyStops c ts (d.applyBytes c bytes)

/-- Both lines at the idle level (R139). -/
def idleHigh : PerLine KLevel := { clk := .high, din := .high }

/-- The sum of the waits of a micro-sequence, in time-units (R103, R205). -/
def waitUnits : List MicroOp → Nat
  | [] => 0
  | .cfg _ :: ms => waitUnits ms
  | .set _ _ :: ms => waitUnits ms
  | .wait n :: ms => n + waitUnits ms

/-- The number of `SET`s of a micro-sequence (R103). -/
def setCount : List MicroOp → Nat
  | [] => 0
  | .cfg _ :: ms => setCount ms
  | .set _ _ :: ms => setCount ms + 1
  | .wait _ :: ms => setCount ms

/-- The number of `CFG`s of a micro-sequence (R103). -/
def cfgCount : List MicroOp → Nat
  | [] => 0
  | .cfg _ :: ms => cfgCount ms + 1
  | .set _ _ :: ms => cfgCount ms
  | .wait _ :: ms => cfgCount ms

/-- The number of `WAIT`s of a micro-sequence (R103). -/
def waitCount : List MicroOp → Nat
  | [] => 0
  | .cfg _ :: ms => waitCount ms
  | .set _ _ :: ms => waitCount ms
  | .wait _ :: ms => waitCount ms + 1

/-- `n` steps of the machine, each answering a next state. -/
def State.Reaches (n : Nat) (s t : State) : Prop := Host.Core.run Sys2Proof.core n s = .next t

/-- A list of instructions run one by one, each on the next state of the one before. -/
def execEach : List Instr → State → Host.Outcome State Fault Refusal
  | [], s => .next s
  | i :: is, s =>
    match exec i s with
    | .next t => execEach is t
    | .fault r => .fault r
    | .refused r => .refused r

/-! ### Invariants -/

/-- The two bindings: one pin per role, two different pins (R23). -/
def State.Bound (s : State) : Prop :=
  ∃ pc pd, pc ≠ pd ∧ s.clkPin = some pc ∧ s.dinPin = some pd

/-- The bindings are those an INITIALIZE in progress was given (R136). -/
def bindingsFit (op : Op) (s : State) : Prop :=
  match op with
  | .initSession pc pd => s.clkPin = some pc ∧ s.dinPin = some pd
  | .writeDisplayMemory _ _ => s.session = .ready
  | .setDisplayControl _ => s.session = .ready

/-- While an operation is in progress (R27): `cur` holds it, `useq` is its micro-sequence, `mpc` is
inside `useq`, the lines are bound, the session is not DEAD, no model fault is set, and the line
levels are what the completed micro-operations left. -/
def State.RunningOk (s : State) : Prop :=
  s.mfault = none ∧ s.session ≠ .dead ∧ s.Bound ∧ s.mpc < s.useq.length ∧
    (∃ op, s.cur = some op ∧ s.useq = microSeq s.params op ∧ bindingsFit op s) ∧
    ∃ before, s.lvl = levelsAfter (s.useq.take s.mpc) before

/-- While no operation is in progress (R27): the sequencer is clear; in UNINITIALIZED no line is
bound, otherwise both are (R23); and the idle invariant (R26) holds. -/
def State.IdleOk (s : State) : Prop :=
  s.cur = none ∧ s.useq = [] ∧ s.mpc = 0 ∧
    (s.session = .uninitialized → s.clkPin = none ∧ s.dinPin = none) ∧
    (s.session ≠ .uninitialized → s.Bound) ∧
    (s.session = .ready → s.txFaultSeen = false → s.cfgFaultSeen = false → s.lvl = idleHigh)

/-- The invariant of the block: the sequencer (R27), the bindings (R23), the idle lines (R26), and
`cfg_fault_seen` set only in DEAD (R31, R141). -/
def State.BlockInv (s : State) : Prop :=
  (s.phase = .run → s.RunningOk) ∧ (s.phase = .idle → s.IdleOk) ∧
    (s.cfgFaultSeen = true → s.session = .dead)

/-- The invariant of the observer: no lone byte is handed to the device model (log entry 5), the
observer is the replay of the history (R150), and the wire it sees is what the block commanded (R25,
R150). -/
def State.ObserverInv (s : State) : Prop :=
  s.arriving = none ∧ s.obs = Observer.replay s.params s.hist ∧ s.obs.wire = s.lvl

/-- What the checker remembers of a history between operations: no gap is open, or that after the last
`SET` of a stop condition, with its wait (R198). -/
def Settled (hist : List Event) : Prop :=
  (hist.foldl Watch.see Watch.start).last = none ∨
    ((hist.foldl Watch.see Watch.start).last = some (.din, .high) ∧
      (hist.foldl Watch.see Watch.start).waits = [Config.tStopIdle])

/-- The invariant of the timing (R199): every gap of the history holds exactly one wait, of its window,
and the history of the operation in progress is that of its completed micro-operations (R33). -/
def State.TimingInv (s : State) : Prop :=
  (∀ g ∈ gaps s.hist, g.waits = [g.window]) ∧
  (s.phase = .idle → Settled s.hist) ∧
  (s.phase = .run → ∃ before op pc pd, s.cur = some op ∧ s.clkPin = some pc ∧ s.dinPin = some pd ∧
    s.hist = before ++ [.accept op] ++ eventsOf pc pd (s.useq.take s.mpc) ∧ Settled before)

/-- The device's display memory is in canonical form (R48). -/
abbrev State.MemoryInv (s : State) : Prop := Memory.wf s.obs.dev.mem

end Sys2Proof.Machine
end

