-- ==== Sys2Proof/Certificates/Slice0/Obligations.lean ====
section
/-!
DEFINITION. The statements for the provers. Each formalises rules of spec/ named in its docstring.
-/

open Sys2Proof Sys2Proof.Machine

/-! ### Wire bytes: encoding and decoding -/

/-- R71 to R77, R79, R88: in every configuration that satisfies R70, every wire byte form, with every
operand, is what the decoder reads from its encoding at its position, with the bytes after it left
over. The offset-16 byte is covered in every configuration where it is no other command (R87: in the
default one it is OTHER). -/
def Obligations.DecodeOfEncodeReturnsInstruction : Prop :=
  ∀ (c : Cfg) (i : Instr) (rest : List Byte), c.Valid → i.isWireByte = true →
    (i = .addrByte16 → classify c (encAs c 16) = .other) →
    decode c i.position (encode c i ++ rest) = .ok (i, rest)

/-- R79, R80: a decoded byte is the encoding of the instruction it decodes to and of no other, at
that instruction's position, in every configuration. -/
def Obligations.DecodedByteIsItsEncoding : Prop :=
  ∀ (c : Cfg) (pos : Position) (b : Byte) (rest r : List Byte) (i : Instr),
    decode c pos (b :: rest) = .ok (i, r) →
      encode c i = [b] ∧ i.position = pos ∧ i.isWireByte = true ∧ r = rest

/-- R79, R80, R158: what the decoder rejects, in every configuration that satisfies R70. A control
byte is rejected exactly if it is none of the control bytes the block can emit; a payload byte never;
a byte after a control byte that takes none always. -/
def Obligations.DecoderRejectsExactlyOtherBytes : Prop :=
  ∀ (c : Cfg) (b : Byte) (rest : List Byte), c.Valid →
    ((decode c .control (b :: rest) = .error (.otherControlByte b)) ↔
      (b ≠ c.cmdDataWrite ∧ (∀ a : BitVec 4, b ≠ c.addrSetBase ||| a.setWidth 8) ∧
        b ≠ c.addrSetBase ||| 0x10#8 ∧ b ≠ c.dispOff ∧
        (∀ s : BitVec 3, b ≠ c.dispOnBase ||| s.setWidth 8))) ∧
    decode c .payload (b :: rest) = .ok (.dataByte b, rest) ∧
    decode c .extra (b :: rest) = .error (.extraByte b)

/-- R87: in every configuration that satisfies R70 the classifier's cases are disjoint, so that each
command is named by exactly its bytes, and the encoded commands are classified as themselves; in the
default configuration the offset-16 byte is OTHER. -/
def Obligations.ClassifierNamesEncodedCommands : Prop :=
  (∀ c : Cfg, c.Valid → ∀ b : Byte,
    (classify c b = .dw ↔ b = c.cmdDataWrite) ∧
    (∀ a : BitVec 4, classify c b = .addr a ↔
      (b &&& ~~~0x0F#8 = c.addrSetBase ∧ a = b.extractLsb' 0 4)) ∧
    (classify c b = .dcOff ↔ b = c.dispOff) ∧
    (∀ s : BitVec 3, classify c b = .dcOn s ↔
      (b &&& ~~~0x07#8 = c.dispOnBase ∧ s = b.extractLsb' 0 3)) ∧
    (classify c b = .other ↔
      (b ≠ c.cmdDataWrite ∧ b &&& ~~~0x0F#8 ≠ c.addrSetBase ∧ b ≠ c.dispOff ∧
        b &&& ~~~0x07#8 ≠ c.dispOnBase))) ∧
  (∀ c : Cfg, c.Valid →
    (∀ a : Nat, a ≤ 15 → classify c (encAs c a) = .addr (BitVec.ofNat 4 a)) ∧
    classify c (encDc c 0) = .dcOff ∧
    (∀ k : Nat, 1 ≤ k → k ≤ 8 → classify c (encDc c k) = .dcOn (BitVec.ofNat 3 (k - 1))) ∧
    classify c (encDw c) = .dw) ∧
  classify Cfg.default (encAs Cfg.default 16) = .other

/-- R75: AddressSet assembly. -/
def Obligations.AddressByteIsBaseOrOffset : Prop :=
  (∀ (c : Cfg) (offset : Nat), offset ≤ 16 →
    (encAs c offset).toNat = (c.addrSetBase.toNat ||| offset) % 256) ∧
  (∀ c : Cfg, c.Valid → ∀ offset : Nat, offset ≤ 15 →
    (encAs c offset).extractLsb' 0 4 = BitVec.ofNat 4 offset ∧
    (encAs c offset).extractLsb' 4 4 = c.addrSetBase.extractLsb' 4 4) ∧
  (∀ c : Cfg, encAs c 16 = c.addrSetBase ||| 0x10#8) ∧
  encAs Cfg.default 16 = 0xD0#8 ∧
  (∀ a : Nat, a ≤ 15 → encAs Cfg.default 16 ≠ encAs Cfg.default a)

/-- R76: DisplayControl assembly, for every brightness. -/
def Obligations.DisplayByteIsOffOrOnWithStep : Prop :=
  ∀ (c : Cfg) (b : Int),
    (clamp b = 0 → encDc c (clamp b) = c.dispOff) ∧
    (clamp b ≠ 0 →
      0 ≤ clamp b - 1 ∧ clamp b - 1 ≤ 7 ∧
      encDc c (clamp b) = c.dispOnBase ||| BitVec.ofNat 8 (clamp b - 1).toNat ∧
      (c.Valid → (encDc c (clamp b)).extractLsb' 0 3 = BitVec.ofNat 3 (clamp b - 1).toNat))

/-- R114, R115: the clamp and its properties, and the steps 1 to 8 mapped injectively onto the
display-on bytes. -/
def Obligations.ClampBoundsBrightness : Prop :=
  (∀ b : Int, clamp b = max 0 (min b 8)) ∧
  (∀ b : Int, 0 ≤ clamp b ∧ clamp b ≤ 8 ∧ (0 ≤ b → b ≤ 8 → clamp b = b) ∧
    (8 < b → clamp b = 8) ∧ (b < 0 → clamp b = 0) ∧ clamp (clamp b) = clamp b) ∧
  (∀ c : Cfg, c.Valid →
    (∀ k l : Int, 1 ≤ k → k ≤ 8 → 1 ≤ l → l ≤ 8 → encDc c k = encDc c l → k = l) ∧
    (∀ byte : Byte, (∃ k : Int, 1 ≤ k ∧ k ≤ 8 ∧ encDc c k = byte) ↔
      ∃ s : BitVec 3, byte = c.dispOnBase ||| s.setWidth 8))

/-- R71, R72, R73, R123: a few words written out from the spec's layouts in the default
configuration. That a lone word, which has no position, is read as a control byte if it is one and
else as DATA_BYTE is the model's choice, log entry 14. -/
def Obligations.TableWordsDecode : Prop :=
  decodeTableWord 8 0b01000000 = some .dataWrite ∧
  decodeTableWord 8 0b11000101 = some (.addressSet 5#4) ∧
  decodeTableWord 8 0b11010000 = some .addrByte16 ∧
  decodeTableWord 8 0b10000000 = some .displayOff ∧
  decodeTableWord 8 0b10001110 = some (.displayOn 6#3) ∧
  decodeTableWord 8 0b00111111 = some (.dataByte 0x3F#8)

/-! ### Micro-sequences -/

/-- R103: the counts of a transaction, and the waits of its parts. -/
def Obligations.TransactionCounts : Prop :=
  (∀ bytes : List Byte,
    (Framing.txnSeq bytes).length = 10 + 48 * bytes.length ∧
    setCount (Framing.txnSeq bytes) = 5 + 24 * bytes.length ∧
    waitCount (Framing.txnSeq bytes) = 5 + 24 * bytes.length ∧
    cfgCount (Framing.txnSeq bytes) = 0 ∧
    waitUnits (Framing.txnSeq bytes) = 6 + 32 * bytes.length) ∧
  waitUnits Framing.beginSeq = 2 ∧
  (∀ b : Byte, waitUnits (Framing.sendSeq b) = 32) ∧
  waitUnits Framing.endSeq = 4 ∧
  (∀ v : Level, waitUnits (Framing.bitSeq v) = 4)

/-- R121, R122, R125, R128: the transactions of each operation and their sizes; none for a write out
of range; at most 884 micro-operations. -/
def Obligations.OperationCounts : Prop :=
  (∀ (c : Cfg) (bytes : List Byte) (offset : Nat), offset + bytes.length ≤ 16 →
    microSeq c (.writeDisplayMemory bytes offset) =
      Framing.txnSeq [encDw c] ++ Framing.txnSeq (encAs c offset :: bytes) ∧
    [encDw c].length + (encAs c offset :: bytes).length = 2 + bytes.length ∧
    (microSeq c (.writeDisplayMemory bytes offset)).length = 116 + 48 * bytes.length ∧
    setCount (microSeq c (.writeDisplayMemory bytes offset)) = 58 + 24 * bytes.length ∧
    waitUnits (microSeq c (.writeDisplayMemory bytes offset)) = 76 + 32 * bytes.length ∧
    (bytes.length = 16 →
      (microSeq c (.writeDisplayMemory bytes offset)).length = 884 ∧
      setCount (microSeq c (.writeDisplayMemory bytes offset)) = 442 ∧
      waitUnits (microSeq c (.writeDisplayMemory bytes offset)) = 588)) ∧
  (∀ (c : Cfg) (bytes : List Byte) (offset : Nat), 16 < offset + bytes.length →
    microSeq c (.writeDisplayMemory bytes offset) = []) ∧
  (∀ (c : Cfg) (b : Int),
    microSeq c (.setDisplayControl b) = Framing.txnSeq [encDc c (clamp b)] ∧
    (microSeq c (.setDisplayControl b)).length = 58 ∧
    setCount (microSeq c (.setDisplayControl b)) = 29 ∧
    waitUnits (microSeq c (.setDisplayControl b)) = 38) ∧
  (∀ (c : Cfg) (op : Op), (microSeq c op).length ≤ 884)

/-- R28: which micro-operation stands at which position of a transaction. -/
def Obligations.TransactionPositions : Prop :=
  ∀ (bytes : List Byte),
    (∀ p : Nat, p < 4 → (Framing.txnSeq bytes)[p]? = Framing.beginSeq[p]?) ∧
    (∀ (j i r : Nat) (b : Byte), bytes[j]? = some b → i < 8 → r < 6 →
      (Framing.txnSeq bytes)[4 + 48 * j + 6 * i + r]? =
        (Framing.bitSeq (Level.ofBool (b.getLsbD i)))[r]?) ∧
    (∀ p : Nat, p < 6 →
      (Framing.txnSeq bytes)[4 + 48 * bytes.length + p]? = Framing.endSeq[p]?) ∧
    (∀ p : Nat, 10 + 48 * bytes.length ≤ p → (Framing.txnSeq bytes)[p]? = none)

/-- R138, R182: every wait of the block is of one or two time-units, and INITIALIZE issues none. -/
def Obligations.WaitsAreOneOrTwoUnits : Prop :=
  ∀ (c : Cfg) (op : Op) (n : Nat), MicroOp.wait n ∈ microSeq c op →
    (n = 1 ∨ n = 2) ∧ op.isInit = false

/-- R197 to R199: in a WRITE_DISPLAY_MEMORY or SET_DISPLAY_CONTROL the micro-operations alternate,
one `SET` and one `WAIT`. The wait after a `SET` is of two time-units if the `SET` raises CLOCK and
the next one lowers it (`T_HIGH`), or if it raises DATA just after CLOCK was raised (`T_STOP_IDLE`),
and of one otherwise. In the history of the operation, up to any of its `SET`s whatever its answer,
every two consecutive `set` events are separated by exactly one `wait` event, of the window of the
two, and the timing checker, whose reading of a history is log entry 17, accepts it. -/
def Obligations.SetsAreSeparatedByOneWait : Prop :=
  (∀ (c : Cfg) (op : Op) (n : Nat), op.isInit = false → n < (microSeq c op).length →
    (n % 2 = 0 → ∃ l lv, (microSeq c op)[n]? = some (.set l lv) ∧
      (microSeq c op)[n + 1]? = some (.wait
        (if (l = .clk ∧ lv = .high ∧ (microSeq c op)[n + 2]? = some (.set .clk .low)) ∨
            (l = .din ∧ lv = .high ∧ 2 ≤ n ∧ (microSeq c op)[n - 2]? = some (.set .clk .high))
          then 2 else 1))) ∧
    (n % 2 = 1 → ∃ w, (microSeq c op)[n]? = some (.wait w))) ∧
  (∀ (c : Cfg) (op : Op) (pc pd : Pin) (n : Nat) (l : Line) (lv : Level) (r : Resp),
    op.isInit = false → (microSeq c op)[n]? = some (.set l lv) →
    ∀ h, h = [.accept op] ++ eventsOf pc pd ((microSeq c op).take n) ++
        [.set l (pinOfLine pc pd l) lv r] →
      (gaps h).length = setCount ((microSeq c op).take n) ∧
      (∀ g ∈ gaps h, g.waits = [g.window]) ∧ timingOk h = true)

/-- R100: inside a byte DATA is not set while CLOCK is high. -/
def Obligations.DataStableWhileClockHigh : Prop :=
  ∀ (b : Byte) (n : Nat), (Framing.sendSeq b)[n]? = some (.set .clk .high) →
    (Framing.sendSeq b)[n + 1]? = some (.wait 2) ∧
    (Framing.sendSeq b)[n + 2]? = some (.set .clk .low)

/-! ### Requests -/

/-- R136, R142, R144: INITIALIZE with two different pins, in UNINITIALIZED or in READY with the same
pins, is accepted: the pins are bound, `cur` latched, `INIT_SEQ` loaded; no pin request yet. -/
def Obligations.InitializeIsAccepted : Prop :=
  ∀ (pc pd : Pin) (s : State), s.phase = .idle → s.mfault = none → pc ≠ pd →
    (s.session = .uninitialized ∨
      (s.session = .ready ∧ s.clkPin = some pc ∧ s.dinPin = some pd)) →
    exec (.initSession pc pd) s =
      .next { s with
        clkPin := some pc, dinPin := some pd, cur := some (.initSession pc pd),
        useq := (match s.params.initOrder with
          | .cc => [.cfg .clk, .cfg .din, .set .clk .high, .set .din .high]
          | .cd => [.cfg .clk, .cfg .din, .set .din .high, .set .clk .high]
          | .dc => [.cfg .din, .cfg .clk, .set .clk .high, .set .din .high]
          | .dd => [.cfg .din, .cfg .clk, .set .din .high, .set .clk .high]),
        mpc := 0, phase := .run, hist := s.hist ++ [.accept (.initSession pc pd)],
        obs := { s.obs with inInit := true } }

/-- R118, R120, R121, R122: a WRITE_DISPLAY_MEMORY in range, accepted in READY. -/
def Obligations.WriteInRangeIsAccepted : Prop :=
  ∀ (bytes : List Byte) (offset : Nat) (s : State), s.phase = .idle → s.mfault = none →
    s.session = .ready → offset + bytes.length ≤ 16 →
    exec (.writeDisplayMemory bytes offset) s =
      .next { s with
        cur := some (.writeDisplayMemory bytes offset),
        useq := Framing.txnSeq [s.params.cmdDataWrite] ++
          Framing.txnSeq ((s.params.addrSetBase ||| BitVec.ofNat 8 offset) :: bytes),
        mpc := 0, phase := .run, hist := s.hist ++ [.accept (.writeDisplayMemory bytes offset)],
        obs := { s.obs with inInit := false } }

/-- R118, R119, R168: a WRITE_DISPLAY_MEMORY out of range ends with RANGE_ERROR at acceptance: only
`accept` and `done` are appended, no line, mark or session changes. -/
def Obligations.WriteOutOfRangeIsRangeError : Prop :=
  ∀ (bytes : List Byte) (offset : Nat) (s : State), s.phase = .idle → s.mfault = none →
    s.session = .ready → 16 < offset + bytes.length →
    exec (.writeDisplayMemory bytes offset) s =
      .next { s with
        res := some (.rangeError offset bytes.length),
        hist := s.hist ++ [.accept (.writeDisplayMemory bytes offset),
          .done (.rangeError offset bytes.length)],
        phase := .idle, cur := none, useq := [], mpc := 0,
        obs := { s.obs with inInit := false } }

/-- R125, R127: SET_DISPLAY_CONTROL of any brightness, accepted in READY: one transaction of the
control byte of the clamped level. -/
def Obligations.DisplayControlIsAccepted : Prop :=
  ∀ (b : Int) (s : State), s.phase = .idle → s.mfault = none → s.session = .ready →
    exec (.setDisplayControl b) s =
      .next { s with
        cur := some (.setDisplayControl b),
        useq := Framing.txnSeq
          [if b ≤ 0 then s.params.dispOff
           else if b ≤ 8 then s.params.dispOnBase ||| BitVec.ofNat 8 (b - 1).toNat
           else s.params.dispOnBase ||| 7#8],
        mpc := 0, phase := .run, hist := s.hist ++ [.accept (.setDisplayControl b)],
        obs := { s.obs with inInit := false } }

/-- R32, R57, R144: a request that arrives in RUN, or once a model fault is set, is not accepted and
not refused: it waits, and nothing else changes. Where it waits, a caller of its own, is the model's
choice, log entry 4. -/
def Obligations.RequestInRunIsHeld : Prop :=
  ∀ (op : Op) (s : State), (s.phase = .run ∨ s.mfault ≠ none) →
    exec op.toInstr s = .next { s with callers := s.callers ++ [[op]] }

/-- R142, R143, R144, R172, R176: the model faults at acceptance in their order: SESSION_DEAD,
NOT_READY, PIN_ALIAS, PIN_REBIND. The mark is set, `accept` and `mfault` are appended, no request is
issued and the bindings stay. -/
def Obligations.ModelFaultsAtAcceptance : Prop :=
  ∀ (op : Op) (f : ModelFault) (s : State), s.phase = .idle → s.mfault = none →
    ((f = .sessionDead ∧ s.session = .dead) ∨
     (f = .notReady ∧ s.session = .uninitialized ∧ op.isInit = false) ∨
     (f = .pinAlias ∧ s.session ≠ .dead ∧ ∃ p, op = .initSession p p) ∨
     (f = .pinRebind ∧ s.session = .ready ∧ ∃ pc pd, op = .initSession pc pd ∧ pc ≠ pd ∧
       ¬ (s.clkPin = some pc ∧ s.dinPin = some pd))) →
    exec op.toInstr s =
      .next { s with
        mfault := some f, hist := s.hist ++ [.accept op, .mfault f],
        phase := .idle, cur := none, useq := [], mpc := 0,
        obs := { s.obs with inInit := op.isInit } }

/-! ### Micro-operations

The statements of this section and the next hold inside an operation, as the rules say, and, by the
model's choice of log entry 8, also for a micro-operation or framing primitive issued in READY while
no operation is in progress (`State.IssuesOn`). -/

/-- R89, R91: a `CFG` the port answers with `ok`. -/
def Obligations.ConfigureCompletes : Prop :=
  ∀ (pc pd : Pin) (l : Line) (s : State), s.IssuesOn pc pd → s.portAnswer = .ok →
    ∃ t, exec (.cfgLine l) s = .next t ∧
      s.CompletedTo 1 1 [.cfg l (pinOfLine pc pd l) .ok] s.lvl (s.lineCfg.set l .yes) t

/-- R91, R94, R95, R141, R170: a `CFG` of an INITIALIZE the port answers with `err(e)`: both records
of the line become `X` and the operation ends with CONFIGURATION_ERROR. -/
def Obligations.ConfigureFailureKillsSession : Prop :=
  ∀ (pc pd a b : Pin) (e : PinErr) (l : Line) (s : State), s.IssuesOn pc pd → s.phase = .run →
    s.cur = some (.initSession a b) → s.portAnswer = .err e →
    ∃ t, exec (.cfgLine l) s = .next t ∧
      s.FailedTo (.configurationError s.mpc l e) [.cfg l (pinOfLine pc pd l) (.err e)]
        (s.lvl.set l .x) (s.lineCfg.set l .x) t ∧
      t.session = .dead ∧ t.cfgFaultSeen = true ∧ t.txFaultSeen = s.txFaultSeen

/-- R89, R92: a `SET` the port answers with `ok`; it is issued and recorded whether or not the level
changes (R55). -/
def Obligations.SetCompletes : Prop :=
  ∀ (pc pd : Pin) (l : Line) (lv : Level) (s : State), s.IssuesOn pc pd → s.portAnswer = .ok →
    ∃ t, exec (.setLine l lv) s = .next t ∧
      s.CompletedTo 1 1 [.set l (pinOfLine pc pd l) lv .ok] (s.lvl.set l lv.known) s.lineCfg t

/-- R92, R94, R95, R141, R148, R169, R170: a `SET` the port answers with `err(e)`: the level becomes
`X`, and the operation ends with TRANSMISSION_ERROR in WRITE_DISPLAY_MEMORY and SET_DISPLAY_CONTROL,
the session as it was, and with CONFIGURATION_ERROR in INITIALIZE, the session DEAD. -/
def Obligations.SetFailureEndsOperation : Prop :=
  ∀ (pc pd : Pin) (e : PinErr) (l : Line) (lv : Level) (op : Op) (s : State),
    s.IssuesOn pc pd → s.phase = .run → s.cur = some op → s.portAnswer = .err e →
    ∃ t, exec (.setLine l lv) s = .next t ∧
      (op.isInit = false →
        s.FailedTo (.transmissionError s.mpc l lv e) [.set l (pinOfLine pc pd l) lv (.err e)]
          (s.lvl.set l .x) s.lineCfg t ∧
        t.session = s.session ∧ t.txFaultSeen = true ∧ t.cfgFaultSeen = s.cfgFaultSeen) ∧
      (op.isInit = true →
        s.FailedTo (.configurationError s.mpc l e) [.set l (pinOfLine pc pd l) lv (.err e)]
          (s.lvl.set l .x) s.lineCfg t ∧
        t.session = .dead ∧ t.txFaultSeen = s.txFaultSeen ∧ t.cfgFaultSeen = true)

/-- R89, R93: a `WAIT` of any length completes, and takes no answer of the pin port. -/
def Obligations.WaitCompletes : Prop :=
  ∀ (pc pd : Pin) (n : Nat) (s : State), s.IssuesOn pc pd →
    ∃ t, exec (.wait n) s = .next t ∧ s.CompletedTo 1 0 [.wait n] s.lvl s.lineCfg t

/-- R188: a request that is never answered leaves the block where it is, in RUN for ever. -/
def Obligations.UnansweredRequestIsStuck : Prop :=
  ∀ (pc pd : Pin) (s : State), s.IssuesOn pc pd → s.portAnswer = .never →
    (∀ l, exec (.cfgLine l) s = .next s) ∧ (∀ l lv, exec (.setLine l lv) s = .next s) ∧
    (∀ m, s.phase = .run → s.useq[s.mpc]? = some m → (∀ n, m ≠ .wait n) → ∀ k, s.Reaches k s)

/-- The model's choice, log entry 8 (R144: framing operations called beforehand are undefined): a
micro-operation or framing primitive outside an operation is the model fault NOT_READY in
UNINITIALIZED and SESSION_DEAD in DEAD, and once a model fault is set nothing is issued (R32). -/
def Obligations.FramingOutsideSessionFaults : Prop :=
  ∀ (i : Instr) (s : State),
    (i = .beginTxn ∨ (∃ v, i = .bit v) ∨ (∃ b, i = .send b) ∨ i = .endTxn ∨ (∃ bs, i = .txn bs) ∨
      (∃ l, i = .cfgLine l) ∨ (∃ l lv, i = .setLine l lv) ∨ (∃ n, i = .wait n)) →
    (s.mfault ≠ none → exec i s = .next s) ∧
    (∀ f, s.mfault = none → s.phase = .idle →
      ((s.session = .uninitialized ∧ f = .notReady) ∨ (s.session = .dead ∧ f = .sessionDead)) →
      exec i s = .next { s with
        mfault := some f, hist := s.hist ++ [.mfault f],
        phase := .idle, cur := none, useq := [], mpc := 0 })

/-! ### Framing primitives -/

/-- R96, R101, R110: BEGIN leaves both lines low, END leaves both at the idle level, from whatever
levels. -/
def Obligations.StartAndStopConditionsComplete : Prop :=
  ∀ (pc pd : Pin) (s : State), s.IssuesOn pc pd →
    (s.CleanFor 2 → ∃ t, exec .beginTxn s = .next t ∧
      s.CompletedTo 4 2 (beginEvents pc pd) { clk := .low, din := .low } s.lineCfg t) ∧
    (s.CleanFor 3 → ∃ t, exec .endTxn s = .next t ∧
      s.CompletedTo 6 3 (endEvents pc pd) { clk := .high, din := .high } s.lineCfg t)

/-- R98, R99, R109: BIT and SEND. A byte goes out bit 0 first and leaves CLOCK low and DATA at
bit 7. -/
def Obligations.BitAndByteComplete : Prop :=
  (∀ (pc pd : Pin) (v : Level) (s : State), s.IssuesOn pc pd → s.CleanFor 3 →
    ∃ t, exec (.bit v) s = .next t ∧
      s.CompletedTo 6 3 (bitEvents pc pd v) { clk := .low, din := v.known } s.lineCfg t) ∧
  (∀ (pc pd : Pin) (b : Byte) (s : State), s.IssuesOn pc pd → s.CleanFor 24 →
    ∃ t, exec (.send b) s = .next t ∧
      s.CompletedTo 48 24 (byteEvents pc pd b)
        { clk := .low, din := if b.getLsbD 7 then .high else .low } s.lineCfg t)

/-- R102, R104: TXN, whatever the levels before it and whatever its bytes. -/
def Obligations.TransactionCompletes : Prop :=
  ∀ (pc pd : Pin) (bytes : List Byte) (s : State), s.IssuesOn pc pd →
    s.CleanFor (5 + 24 * bytes.length) →
    ∃ t, exec (.txn bytes) s = .next t ∧
      s.CompletedTo (10 + 48 * bytes.length) (5 + 24 * bytes.length) (txnEvents pc pd bytes)
        { clk := .high, din := .high } s.lineCfg t

/-- R95, R105, R126, R175: a transaction inside a WRITE_DISPLAY_MEMORY or SET_DISPLAY_CONTROL whose
request number `n` is the first the port answers with `err(e)`: the micro-operations before it took
effect, the line of the failed request is at `X`, the error names its index, and nothing after it is
issued, no stop condition either. -/
def Obligations.FailedTransactionStopsAtOnce : Prop :=
  ∀ (pc pd : Pin) (bytes : List Byte) (n : Nat) (e : PinErr) (op : Op) (l : Line) (lv : Level)
    (s : State),
    s.IssuesOn pc pd → s.phase = .run → s.cur = some op → op.isInit = false →
    s.CleanFor n → s.answerAt n = .err e →
    (Framing.txnSeq bytes)[2 * n]? = some (.set l lv) →
    ∃ t, exec (.txn bytes) s = .next t ∧
      s.FailedTo (.transmissionError (s.mpc + 2 * n) l lv e)
        (eventsOf pc pd ((Framing.txnSeq bytes).take (2 * n)) ++
          [.set l (pinOfLine pc pd l) lv (.err e)])
        ((levelsAfter ((Framing.txnSeq bytes).take (2 * n)) s.lvl).set l .x) s.lineCfg t ∧
      t.session = s.session ∧ t.txFaultSeen = true ∧ t.cfgFaultSeen = s.cfgFaultSeen

/-- R86, R89, R106: the framing primitives are macro forms: where the sequencer goes on with a
primitive's micro-operations and the port answers `ok`, running the primitive is running those
micro-operations one by one. -/
def Obligations.PrimitiveIsItsMicroOperations : Prop :=
  ∀ (pc pd : Pin) (i : Instr) (ms ns : List MicroOp) (s : State),
    ((i = .beginTxn ∧ ms = Framing.beginSeq) ∨ (∃ v, i = .bit v ∧ ms = Framing.bitSeq v) ∨
      (∃ b, i = .send b ∧ ms = Framing.sendSeq b) ∨ (i = .endTxn ∧ ms = Framing.endSeq) ∨
      (∃ bs, i = .txn bs ∧ ms = Framing.txnSeq bs)) →
    s.IssuesOn pc pd → s.phase = .run → s.useq.drop s.mpc = ms ++ ns →
    s.CleanFor (setCount ms) →
    exec i s = execEach (ms.map MicroOp.toInstr) s

/-! ### The wire as the device sees it -/

/-- R150 to R155, R158: a transaction on an `ok` port, from the decoder's IDLE on an idle-high wire,
makes the decoder emit START, each byte, STOP, and return to IDLE, and is applied to the device at its
STOP. -/
def Obligations.DecoderReadsTransaction : Prop :=
  ∀ (pc pd : Pin) (bytes : List Byte) (s : State), s.IssuesOn pc pd →
    s.CleanFor (5 + 24 * bytes.length) → bytes ≠ [] →
    s.obs.dec = .idle → s.obs.wire = idleHigh →
    ∃ t, exec (.txn bytes) s = .next t ∧ t.obs.dec = .idle ∧ t.obs.wire = idleHigh ∧
      t.obs.tokens = s.obs.tokens ++ [.start] ++ bytes.map .byte ++ [.stop bytes] ∧
      t.obs.dev = s.obs.dev.applyBytes s.params bytes

/-- R150, R163: a failed request, outside PRE, on a line whose level was known, puts the decoder in
DESYNC with all device state unknown, and DESYNC is never left. -/
def Obligations.FailedRequestLosesSync : Prop :=
  (∀ (c : Cfg) (l : Line) (pin : Pin) (lv : Level) (e : PinErr) (o : Observer),
    o.dec ≠ .pre → o.dec ≠ .desync → o.wire.get l ≠ .x →
    (o.see c (.set l pin lv (.err e))).dec = .desync ∧
    (o.see c (.set l pin lv (.err e))).dev = Device.unknown ∧
    (o.see c (.cfg l pin (.err e))).dec = .desync ∧
    (o.see c (.cfg l pin (.err e))).dev = Device.unknown) ∧
  (∀ (c : Cfg) (e : Event) (o : Observer), o.dec = .desync →
    (o.see c e).dec = .desync ∧ (o.see c e).dev = o.dev ∧ (o.see c e).tokens = o.tokens)

/-- What each control byte form does to the device, and that it does nothing else. The effect on the
device is R158's of a transaction of that byte (R71, R72, R73, R159); that executing a wire byte row is
that effect and nothing else is the model's choice, log entry 13. -/
def Obligations.ControlBytesActOnDevice : Prop :=
  ∀ s : State,
    exec .dataWrite s =
      .next { s with obs := { s.obs with dev := { s.obs.dev with autoinc := some true } } } ∧
    (∀ a : BitVec 4, exec (.addressSet a) s =
      .next { s with obs := { s.obs with dev := { s.obs.dev with ptr := some a.toNat } } }) ∧
    exec .addrByte16 s =
      .next { s with obs := { s.obs with
        dev := { mem := [], ptr := none, autoinc := none, lit := none, step := none } } } ∧
    exec .displayOff s =
      .next { s with obs := { s.obs with dev := { s.obs.dev with lit := some false } } } ∧
    (∀ st : BitVec 3, exec (.displayOn st) s =
      .next { s with obs := { s.obs with
        dev := { s.obs.dev with lit := some true, step := some st } } })

/-- R74, R158: a payload byte goes unchanged to the slot at the pointer, which moves on, if
auto-increment is on and the pointer is one of the 16 slots; every other slot reads as before. In
every other case all device state becomes unknown. That executing the row DATA_BYTE is this effect of
one payload byte alone is the model's choice, log entry 13. -/
def Obligations.PayloadByteIsStoredAtPointer : Prop :=
  ∀ (d : Byte) (s : State),
    ∃ t, exec (.dataByte d) s = .next t ∧
      t = { s with obs := { s.obs with dev := t.obs.dev } } ∧
      (∀ q, s.obs.dev.autoinc = some true → s.obs.dev.ptr = some q → q < 16 →
        Memory.read t.obs.dev.mem q = some d ∧
        (∀ a, a ≠ q → Memory.read t.obs.dev.mem a = Memory.read s.obs.dev.mem a) ∧
        t.obs.dev.ptr = some (q + 1) ∧ t.obs.dev.autoinc = some true ∧
        t.obs.dev.lit = s.obs.dev.lit ∧ t.obs.dev.step = s.obs.dev.step) ∧
      ((s.obs.dev.autoinc ≠ some true ∨ s.obs.dev.ptr = none ∨
          ∃ q, s.obs.dev.ptr = some q ∧ 16 ≤ q) →
        t.obs.dev = { mem := [], ptr := none, autoinc := none, lit := none, step := none })

/-- R156, R158: applying a transaction does to the device what R158 writes for it, in every
configuration, and is the same as decoding its bytes one after another, each at its position, and
taking the effect of the wire byte form each is. Unless all device state becomes unknown it changes
no slot but those of its payload, from the address on. -/
def Obligations.BytewiseApplicationIsTransaction : Prop :=
  ∀ (c : Cfg) (control : Byte) (rest : List Byte) (d : Device),
    d.applyBytes c (control :: rest) =
      (match classify c control, rest with
        | .dw, [] => { d with autoinc := some true }
        | .addr a, ps => ps.foldl (fun e p => e.takePayload p) { d with ptr := some a.toNat }
        | .dcOff, [] => { d with lit := some false }
        | .dcOn st, [] => { d with lit := some true, step := some st }
        | _, _ => Device.unknown) ∧
    (positions c (control :: rest)).foldl (Device.applyByte c) d = d.applyBytes c (control :: rest) ∧
    (d.applyBytes c (control :: rest) = Device.unknown ∨
      ∀ q, (∀ a, classify c control = .addr a → q < a.toNat ∨ a.toNat + rest.length ≤ q) →
        Memory.read (d.applyBytes c (control :: rest)).mem q = Memory.read d.mem q)

/-! ### Whole operations -/

/-- R137, R138, R140, R152, R153: INITIALIZE on a port that answers `ok`, in each order: the machine
reaches a state with the session READY, both lines configured and at the idle level, and the history
has the six events. The observer's wire is idle-high, and its decoder goes from PRE to IDLE, stays in
IDLE if the wire was idle-high, and never leaves DESYNC, with no token and the device as it was. -/
def Obligations.InitializeReachesReady : Prop :=
  ∀ (pc pd : Pin) (s : State), s.Resting → pc ≠ pd → s.CleanFor 4 →
    (s.session = .uninitialized ∨
      (s.session = .ready ∧ s.clkPin = some pc ∧ s.dinPin = some pd)) →
    ∃ u t, exec (.initSession pc pd) s = .next u ∧ State.Reaches 4 u t ∧
      t.session = .ready ∧ t.clkPin = some pc ∧ t.dinPin = some pd ∧
      t.lineCfg = { clk := .yes, din := .yes } ∧ t.lvl = { clk := .high, din := .high } ∧
      t.phase = .idle ∧ t.mpc = 0 ∧ t.useq = [] ∧ t.cur = none ∧ t.res = some .ok ∧
      t.mfault = none ∧ t.txFaultSeen = s.txFaultSeen ∧
      t.hist = s.hist ++ [.accept (.initSession pc pd)] ++
        (match s.params.initOrder with
          | .cc => [.cfg .clk pc .ok, .cfg .din pd .ok, .set .clk pc .high .ok,
              .set .din pd .high .ok]
          | .cd => [.cfg .clk pc .ok, .cfg .din pd .ok, .set .din pd .high .ok,
              .set .clk pc .high .ok]
          | .dc => [.cfg .din pd .ok, .cfg .clk pc .ok, .set .clk pc .high .ok,
              .set .din pd .high .ok]
          | .dd => [.cfg .din pd .ok, .cfg .clk pc .ok, .set .din pd .high .ok,
              .set .clk pc .high .ok]) ++ [.done .ok] ∧
      t.obs.wire = idleHigh ∧
      ((s.obs.dec = .pre ∨ (s.obs.dec = .idle ∧ s.obs.wire = idleHigh)) → t.obs.dec = .idle ∧
        t.obs.tokens = s.obs.tokens ∧ t.obs.dev = s.obs.dev) ∧
      (s.obs.dec = .desync → t.obs.dec = .desync ∧ t.obs.tokens = s.obs.tokens ∧
        t.obs.dev = s.obs.dev)

/-- R141: INITIALIZE whose request number `k` is the first answered with `err(e)`: the session is
DEAD, `cfg_fault_seen` is set, the error names `k` and the line of request `k` of `INIT_SEQ`, the
requests before it keep their effect, its line has `lvl`, and for a configure request `cfg` too, at
`X`, and no later request is issued. -/
def Obligations.InitializeFailureIsDead : Prop :=
  ∀ (pc pd : Pin) (k : Nat) (e : PinErr) (m : MicroOp) (s : State), s.Resting → pc ≠ pd →
    (initSeq s.params.initOrder)[k]? = some m → s.CleanFor k → s.answerAt k = .err e →
    (s.session = .uninitialized ∨
      (s.session = .ready ∧ s.clkPin = some pc ∧ s.dinPin = some pd)) →
    ∃ u t, exec (.initSession pc pd) s = .next u ∧ State.Reaches (k + 1) u t ∧
      t.session = .dead ∧ t.cfgFaultSeen = true ∧ t.txFaultSeen = s.txFaultSeen ∧
      t.phase = .idle ∧ t.asked = s.asked + k + 1 ∧
      (∀ l, m = .cfg l →
        t.res = some (.configurationError k l e) ∧
        t.lineCfg = (cfgsAfter ((initSeq s.params.initOrder).take k) s.lineCfg).set l .x ∧
        t.lvl = (levelsAfter ((initSeq s.params.initOrder).take k) s.lvl).set l .x ∧
        t.hist = s.hist ++ [.accept (.initSession pc pd)] ++
          eventsOf pc pd ((initSeq s.params.initOrder).take k) ++
          [.cfg l (pinOfLine pc pd l) (.err e), .done (.configurationError k l e)]) ∧
      (∀ l lv, m = .set l lv →
        t.res = some (.configurationError k l e) ∧
        t.lineCfg = cfgsAfter ((initSeq s.params.initOrder).take k) s.lineCfg ∧
        t.lvl = (levelsAfter ((initSeq s.params.initOrder).take k) s.lvl).set l .x ∧
        t.hist = s.hist ++ [.accept (.initSession pc pd)] ++
          eventsOf pc pd ((initSeq s.params.initOrder).take k) ++
          [.set l (pinOfLine pc pd l) lv (.err e), .done (.configurationError k l e)])

/-- R120, R121, R122, R123, R129, R159, R160: WRITE_DISPLAY_MEMORY in range on a port that answers
`ok`, whatever the decoder's state: it ends `OK` after exactly the two transactions, both lines at the
idle level. With the decoder in IDLE, in every configuration that satisfies R70: the payload stands in
the display memory from the offset on, every other slot is unchanged, and the pointer is past the
payload; at offset 16, where the address byte is OTHER, all device state is unknown. In DESYNC the
device model stays as it is. -/
def Obligations.WriteReachesDisplayMemory : Prop :=
  ∀ (pc pd : Pin) (bytes : List Byte) (offset : Nat) (s : State), s.Resting →
    s.session = .ready → s.clkPin = some pc → s.dinPin = some pd →
    offset + bytes.length ≤ 16 → s.CleanFor (58 + 24 * bytes.length) →
    ∃ u t, exec (.writeDisplayMemory bytes offset) s = .next u ∧
      State.Reaches (116 + 48 * bytes.length) u t ∧
      t.res = some .ok ∧ t.Resting ∧ t.session = .ready ∧ t.lvl = idleHigh ∧
      t.hist = s.hist ++ [.accept (.writeDisplayMemory bytes offset)] ++
        txnEvents pc pd [encDw s.params] ++
        txnEvents pc pd (encAs s.params offset :: bytes) ++ [.done .ok] ∧
      (s.obs.dec = .idle → s.obs.wire = idleHigh →
        t.obs.dec = .idle ∧ t.obs.wire = idleHigh ∧
        (s.params.Valid → offset ≤ 15 →
          t.obs.dev.autoinc = some true ∧ t.obs.dev.ptr = some (offset + bytes.length) ∧
          (∀ i b, bytes[i]? = some b → Memory.read t.obs.dev.mem (offset + i) = some b) ∧
          (∀ a, (a < offset ∨ offset + bytes.length ≤ a) →
            Memory.read t.obs.dev.mem a = Memory.read s.obs.dev.mem a) ∧
          t.obs.dev.lit = s.obs.dev.lit ∧ t.obs.dev.step = s.obs.dev.step) ∧
        (offset = 16 → classify s.params (encAs s.params 16) = .other →
          t.obs.dev = Device.unknown)) ∧
      (s.obs.dec = .desync → t.obs.dec = .desync ∧ t.obs.dev = s.obs.dev)

/-- R125, R129, R161: SET_DISPLAY_CONTROL on a port that answers `ok`, whatever the decoder's state:
it ends `OK` after exactly the one transaction, both lines at the idle level. With the decoder in
IDLE, in every configuration that satisfies R70: the device is off, or on at the clamped level's step;
memory, pointer and mode are unchanged. In DESYNC the device model stays as it is. -/
def Obligations.DisplayControlReachesDevice : Prop :=
  ∀ (pc pd : Pin) (b : Int) (s : State), s.Resting →
    s.session = .ready → s.clkPin = some pc → s.dinPin = some pd → s.CleanFor 29 →
    ∃ u t, exec (.setDisplayControl b) s = .next u ∧ State.Reaches 58 u t ∧
      t.res = some .ok ∧ t.Resting ∧ t.session = .ready ∧ t.lvl = idleHigh ∧
      t.hist = s.hist ++ [.accept (.setDisplayControl b)] ++
        txnEvents pc pd [encDc s.params (clamp b)] ++ [.done .ok] ∧
      (s.obs.dec = .idle → s.obs.wire = idleHigh →
        t.obs.dec = .idle ∧ t.obs.wire = idleHigh ∧
        (s.params.Valid →
          (clamp b = 0 → t.obs.dev = { s.obs.dev with lit := some false }) ∧
          (clamp b ≠ 0 → t.obs.dev = { s.obs.dev with
            lit := some true, step := some (BitVec.ofNat 3 (clamp b - 1).toNat) }))) ∧
      (s.obs.dec = .desync → t.obs.dec = .desync ∧ t.obs.dev = s.obs.dev)

/-! ### Frames -/

/-- R119, R144, R172, R184: what a request leaves unchanged, whether accepted, held, faulted or out
of range: the lines, the ports' inputs, the marks, the session, the configuration, the decoder and
every slot of the display memory; the pins but for INITIALIZE, the result but for a write; and while
an operation is in progress, all of it. -/
def Obligations.RequestFrame : Prop :=
  ∀ (op : Op) (s t : State), exec op.toInstr s = .next t →
    t.lvl = s.lvl ∧ t.lineCfg = s.lineCfg ∧ t.session = s.session ∧
    t.txFaultSeen = s.txFaultSeen ∧ t.cfgFaultSeen = s.cfgFaultSeen ∧
    t.params = s.params ∧ t.answers = s.answers ∧ t.asked = s.asked ∧ t.admitted = s.admitted ∧
    t.arriving = s.arriving ∧ t.obs.wire = s.obs.wire ∧ t.obs.tokens = s.obs.tokens ∧
    t.obs.dec = s.obs.dec ∧ t.obs.dev = s.obs.dev ∧
    (∀ a, Memory.read t.obs.dev.mem a = Memory.read s.obs.dev.mem a) ∧
    (op.isInit = false → t.clkPin = s.clkPin ∧ t.dinPin = s.dinPin) ∧
    ((∀ bytes offset, op ≠ .writeDisplayMemory bytes offset) → t.res = s.res) ∧
    (s.phase = .run → t = { s with callers := t.callers })

/-- R54, R91, R92, R93, R96 to R102, R107: what micro-operations and framing primitives leave
unchanged in every state and whatever the port answers: the configuration, the bindings, the waiting
requests, the lone byte; the other line for a single request, both lines and the wire for a wait; no
token is emitted for a `CFG` or a `WAIT`. Tokens are only appended, and the device is what the
transactions among the tokens this instruction appended, applied at their STOPs, make of it (one of no
byte makes it unknown, the model's choice of log entry 6), or unknown where synchronisation is lost
(R163); every slot of the display memory reads as before if neither happens. Outside an operation all
this is the model's choice, log entry 8. -/
def Obligations.FramingFrame : Prop :=
  ∀ (i : Instr) (s t : State),
    (i = .beginTxn ∨ (∃ v, i = .bit v) ∨ (∃ b, i = .send b) ∨ i = .endTxn ∨ (∃ bs, i = .txn bs) ∨
      (∃ l, i = .cfgLine l) ∨ (∃ l lv, i = .setLine l lv) ∨ (∃ n, i = .wait n)) →
    exec i s = .next t →
    t.params = s.params ∧ t.clkPin = s.clkPin ∧ t.dinPin = s.dinPin ∧ t.callers = s.callers ∧
    t.admitted = s.admitted ∧ t.arriving = s.arriving ∧
    (t.useq = s.useq ∨ t.useq = []) ∧ (t.cur = s.cur ∨ t.cur = none) ∧
    ((∀ l, i ≠ .cfgLine l) → t.lineCfg = s.lineCfg) ∧
    (∀ l m, i = .cfgLine l → m ≠ l → t.lineCfg.get m = s.lineCfg.get m ∧
      t.lvl.get m = s.lvl.get m) ∧
    (∀ l lv m, i = .setLine l lv → m ≠ l → t.lvl.get m = s.lvl.get m) ∧
    (∀ n, i = .wait n → t.lvl = s.lvl ∧ t.answers = s.answers ∧ t.asked = s.asked ∧
      t.obs.wire = s.obs.wire) ∧
    ∃ ts, t.obs.tokens = s.obs.tokens ++ ts ∧
      (((∃ l, i = .cfgLine l) ∨ (∃ n, i = .wait n)) → ts = []) ∧
      (t.obs.dev = applyStops s.params ts s.obs.dev ∨
        (t.obs.dec = .desync ∧ t.obs.dev = Device.unknown)) ∧
      ((∀ bytes, Token.stop bytes ∉ ts) → (t.obs.dec = .desync → s.obs.dec = .desync) →
        t.obs.dev = s.obs.dev ∧
        ∀ a, Memory.read t.obs.dev.mem a = Memory.read s.obs.dev.mem a)

/-- R38, R74, R158: a received wire byte changes nothing but the device model; no control byte but
the offset-16 byte changes a slot of the display memory. That executing a wire byte row drives no line
and is the byte's effect alone is the model's choice, log entry 13. -/
def Obligations.WireByteFrame : Prop :=
  ∀ (i : Instr) (s t : State), i.isWireByte = true → exec i s = .next t →
    t = { s with obs := { s.obs with dev := t.obs.dev } } ∧
    (i ≠ .addrByte16 → (∀ d, i ≠ .dataByte d) →
      ∀ a, Memory.read t.obs.dev.mem a = Memory.read s.obs.dev.mem a)

/-! ### Steps -/

/-- R32, R57, R88, R89, R158: a step runs what is fetched. While an operation is in progress, in every
state, a step issues the micro-operation at `mpc` and nothing else. Otherwise a lone byte handed to
the device model that decodes to `i` is run as `i` with the byte taken, and one the decoder rejects
makes the device unknown (the model's choice, log entry 5); with none, the one waiting caller's first
request runs with the request taken (how requests wait is log entry 4); with no request, or after a
model fault, nothing changes. -/
def Obligations.StepRunsFetchedInstruction : Prop :=
  (∀ (s : State) (m : MicroOp), s.mfault = none → s.phase = .run → s.useq[s.mpc]? = some m →
    step s = exec m.toInstr s) ∧
  (∀ (s : State) (pos : Position) (b : Byte) (i : Instr) (r : List Byte),
    ¬ (s.phase = .run ∧ s.mfault = none) → s.arriving = some (pos, b) →
    decode s.params pos [b] = .ok (i, r) → step s = exec i { s with arriving := none }) ∧
  (∀ (s : State) (pos : Position) (b : Byte) (e : Reject),
    ¬ (s.phase = .run ∧ s.mfault = none) → s.arriving = some (pos, b) →
    decode s.params pos [b] = .error e →
    step s = .next { s with arriving := none, obs := { s.obs with dev := Device.unknown } }) ∧
  (∀ (s : State) (op : Op) (ops : List Op), s.arriving = none → s.mfault = none →
    s.phase = .idle → s.callers = [op :: ops] →
    step s = exec op.toInstr { s with callers := if ops.isEmpty then [] else [ops] }) ∧
  (∀ s : State, s.arriving = none → (s.mfault ≠ none ∨ (s.phase = .idle ∧ s.waiting = [])) →
    step s = .next s)

/-- R57: while the block is idle, the first request of some waiting caller is taken, whichever the
open choice makes it, and no other request is lost. How requests wait is the model's choice, log
entry 4. -/
def Obligations.IdleAdmitsOneWaitingRequest : Prop :=
  ∀ s : State, s.arriving = none → s.mfault = none → s.phase = .idle → s.waiting ≠ [] →
    ∃ k op ops, s.waiting[k]? = some (op :: ops) ∧
      ∃ n, step s = exec op.toInstr { s with
        callers := (s.waiting.take k ++ [ops] ++ s.waiting.drop (k + 1)).filter
          (fun c => !c.isEmpty),
        admitted := n }

/-- R32: after a model fault the state is quiescent: with no lone byte handed to the device model (log
entry 5), no number of steps changes it. -/
def Obligations.ModelFaultIsQuiescent : Prop :=
  ∀ (s : State) (k : Nat), s.mfault ≠ none → s.arriving = none → s.Reaches k s

/-- R56, R59, R201: while an operation is in progress no step accepts another. -/
def Obligations.RunAcceptsNothing : Prop :=
  ∀ s t : State, s.phase = .run → step s = .next t →
    ∃ es, t.hist = s.hist ++ es ∧ ∀ op, Event.accept op ∉ es

/-- R33: the history is only appended to, by every instruction in every state. -/
def Obligations.HistoryOnlyGrows : Prop :=
  ∀ (i : Instr) (s t : State), exec i s = .next t → ∃ es, t.hist = s.hist ++ es

/-- R30, R31, R32: the marks are sticky: no instruction in any state clears one. -/
def Obligations.MarksAreSticky : Prop :=
  ∀ (i : Instr) (s t : State), exec i s = .next t →
    (s.txFaultSeen = true → t.txFaultSeen = true) ∧
    (s.cfgFaultSeen = true → t.cfgFaultSeen = true) ∧
    (∀ f, s.mfault = some f → t.mfault = some f)

/-- R36: the configuration is written by no instruction and no step. -/
def Obligations.ConfigurationIsNeverWritten : Prop :=
  (∀ (i : Instr) (s t : State), exec i s = .next t → t.params = s.params) ∧
  (∀ s t : State, step s = .next t → t.params = s.params)

/-- R22, R135, R147, R148: what a step can do to the session and the bindings. The session changes
only when an INITIALIZE in progress ends, to READY with `OK` or to DEAD with CONFIGURATION_ERROR, and
never back; once it is not UNINITIALIZED the bindings never change. -/
def Obligations.SessionTransitions : Prop :=
  ∀ s t : State, s.BlockInv → step s = .next t →
    (t.session = s.session ∨
      (s.session ≠ .dead ∧ s.phase = .run ∧ (∃ pc pd, s.cur = some (.initSession pc pd)) ∧
        ((t.session = .ready ∧ t.res = some .ok) ∨
          (t.session = .dead ∧ ∃ k l e, t.res = some (.configurationError k l e))))) ∧
    (s.session ≠ .uninitialized → t.clkPin = s.clkPin ∧ t.dinPin = s.dinPin)

/-- R38, R130: the block never reads the observer: two states that differ only in the observer give,
for every instruction, next states that differ only in the observer. -/
def Obligations.BlockNeverReadsObserver : Prop :=
  ∀ (i : Instr) (s : State) (o : Observer) (t : State), exec i s = .next t →
    ∃ p, exec i { s with obs := o } = .next { t with obs := p }

/-! ### Invariants -/

/-- R22 to R33, R150, R152, R157, R190, R191, R192: the state after reset, every field the spec gives
a value for. -/
def Obligations.ResetState : Prop :=
  State.reset.session = .uninitialized ∧ State.reset.clkPin = none ∧ State.reset.dinPin = none ∧
  State.reset.lineCfg = { clk := .no, din := .no } ∧ State.reset.lvl = { clk := .x, din := .x } ∧
  State.reset.phase = .idle ∧ State.reset.cur = none ∧ State.reset.useq = [] ∧
  State.reset.mpc = 0 ∧ State.reset.res = none ∧ State.reset.txFaultSeen = false ∧
  State.reset.cfgFaultSeen = false ∧ State.reset.mfault = none ∧ State.reset.hist = [] ∧
  State.reset.obs.wire = { clk := .x, din := .x } ∧ State.reset.obs.dec = .pre ∧
  (∀ a, Memory.read State.reset.obs.dev.mem a = none) ∧ State.reset.obs.dev.ptr = none ∧
  State.reset.obs.dev.autoinc = none ∧ State.reset.obs.dev.lit = none ∧
  State.reset.obs.dev.step = none

/-- The state after reset meets the four invariants below. -/
def Obligations.ResetMeetsInvariants : Prop :=
  State.reset.BlockInv ∧ State.reset.ObserverInv ∧ State.reset.MemoryInv ∧ State.reset.TimingInv

/-- R22, R23, R26, R27, R31: every step keeps the invariant of the block: the sequencer, the
bindings, the idle lines. -/
def Obligations.StepKeepsBlockInvariant : Prop :=
  ∀ s t : State, s.BlockInv → step s = .next t → t.BlockInv

/-- Every instruction answers a next state in every state, none is refused and none faults. For the
host operations that is R165 with R57; for micro-operations and primitives outside the operation they
belong to it is the model's choice, log entry 8, and for the wire byte rows log entry 13. R27: a state
that meets the invariant of the block has a next step, and its `mpc` fits ten bits; that step faults
outside the invariant is the model's choice, log entry 12. -/
def Obligations.EveryInstructionAndStepAnswersNext : Prop :=
  (∀ (i : Instr) (s : State), ∃ t, exec i s = .next t) ∧
  (∀ s : State, s.BlockInv → (∃ t, step s = .next t) ∧ s.mpc < 884 ∧ 884 < 2 ^ 10)

/-- R25, R150, R152, R158: every step keeps the observer the replay of the history, each transaction
applied at its STOP, and the wire it sees what the block commanded. That no lone byte is handed to the
device model is part of the invariant (log entry 5); the empty transaction and the half-unknown edge
are the model's choices, log entries 6 and 7. -/
def Obligations.StepKeepsObserverReplay : Prop :=
  ∀ s t : State, s.ObserverInv → step s = .next t → t.ObserverInv

/-- R48, R49: every step keeps the display memory canonical: rising addresses among the 16 slots. -/
def Obligations.StepKeepsMemoryCanonical : Prop :=
  ∀ s t : State, s.MemoryInv → step s = .next t → t.MemoryInv

/-- R33, R58, R197 to R199: every step from the invariant of the block keeps the timing: in the history
of any run every two consecutive `set` events of writes and display controls, and the last `set` of one
and the next pin request, are separated by exactly one `wait` event, of the window of the two. How the
checker reads a history is log entry 17. -/
def Obligations.StepKeepsTiming : Prop :=
  ∀ s t : State, s.BlockInv → s.TimingInv → step s = .next t →
    t.TimingInv ∧ timingOk t.hist = true
end

