-- ==== Sys2Proof/Laws/Decode.lean ====
section
/-!
SUPPORT. The wire bytes: a base with clear low bits and its operand (R70, R75, R76), and how the
classifier reads the bytes the encoder writes (R87).
-/

namespace Sys2Proof

/-- The low bits a classifier clears and the operand it reads make up the byte again. -/
theorem Byte.eq_high_or_low4 (b : Byte) : b &&& ~~~0x0F#8 ||| (b.setWidth 4).setWidth 8 = b := by
  revert b; decide

theorem Byte.eq_high_or_low3 (b : Byte) : b &&& ~~~0x07#8 ||| (b.setWidth 3).setWidth 8 = b := by
  revert b; decide

theorem Byte.or_and_right (x y z : Byte) : (x ||| y) &&& z = (x &&& z) ||| (y &&& z) := by
  ext i; simp [Bool.and_or_distrib_right]

/-- A base with clear low bits and an operand do not overlap: the base is read back. -/
theorem base_of_or4 (base : Byte) (a : BitVec 4) (h : base &&& 0x0F#8 = 0#8) :
    (base ||| a.setWidth 8) &&& ~~~0x0F#8 = base := by
  have h1 : a.setWidth 8 &&& ~~~0x0F#8 = 0#8 := by revert a; decide
  have h2 : base &&& ~~~0x0F#8 = base := by revert base; decide
  rw [Byte.or_and_right, h1, h2, BitVec.or_zero]

theorem operand_of_or4 (base : Byte) (a : BitVec 4) (h : base &&& 0x0F#8 = 0#8) :
    (base ||| a.setWidth 8).setWidth 4 = a := by
  have h2 : base.setWidth 4 = 0#4 := by revert base; decide
  rw [BitVec.setWidth_or, h2, BitVec.zero_or, BitVec.setWidth_setWidth_of_le _ (by omega),
    BitVec.setWidth_eq]

theorem base_of_or3 (base : Byte) (a : BitVec 3) (h : base &&& 0x07#8 = 0#8) :
    (base ||| a.setWidth 8) &&& ~~~0x07#8 = base := by
  have h1 : a.setWidth 8 &&& ~~~0x07#8 = 0#8 := by revert a; decide
  have h2 : base &&& ~~~0x07#8 = base := by revert base; decide
  rw [Byte.or_and_right, h1, h2, BitVec.or_zero]

theorem operand_of_or3 (base : Byte) (a : BitVec 3) (h : base &&& 0x07#8 = 0#8) :
    (base ||| a.setWidth 8).setWidth 3 = a := by
  have h2 : base.setWidth 3 = 0#3 := by revert base; decide
  rw [BitVec.setWidth_or, h2, BitVec.zero_or, BitVec.setWidth_setWidth_of_le _ (by omega),
    BitVec.setWidth_eq]

/-- A device address or a brightness step as the byte the encoder ORs in. -/
theorem ofNat_toNat4 (a : BitVec 4) : BitVec.ofNat 8 a.toNat = a.setWidth 8 := by revert a; decide
theorem ofNat_toNat3 (s : BitVec 3) : BitVec.ofNat 8 s.toNat = s.setWidth 8 := by revert s; decide

theorem encAs_eq (c : Cfg) (a : BitVec 4) : encAs c a.toNat = c.addrSetBase ||| a.setWidth 8 := by
  rw [encAs, ofNat_toNat4]

theorem encDc_succ (c : Cfg) (s : BitVec 3) :
    encDc c (s.toNat + 1) = c.dispOnBase ||| s.setWidth 8 := by
  have h : ((s.toNat : Int) + 1) ≠ 0 := by omega
  simp [encDc, h]

/-- In a configuration that satisfies R70 each command's byte is classified as that command. -/
theorem classify_dw (c : Cfg) : classify c c.cmdDataWrite = .dw := by simp [classify]

theorem classify_addr (c : Cfg) (h : c.Valid) (a : BitVec 4) :
    classify c (c.addrSetBase ||| a.setWidth 8) = .addr a := by
  obtain ⟨-, hb, hd, -⟩ := h
  rw [classify, if_neg (hd a), if_pos (base_of_or4 _ a hb), operand_of_or4 _ a hb]

/-- A byte of the address class is an address byte. -/
theorem addr_of_mask (c : Cfg) (b : Byte) (h : b &&& ~~~0x0F#8 = c.addrSetBase) :
    b = c.addrSetBase ||| (b.setWidth 4).setWidth 8 := by
  rw [← h, Byte.eq_high_or_low4]

theorem on_of_mask (c : Cfg) (b : Byte) (h : b &&& ~~~0x07#8 = c.dispOnBase) :
    b = c.dispOnBase ||| (b.setWidth 3).setWidth 8 := by
  rw [← h, Byte.eq_high_or_low3]

theorem classify_off (c : Cfg) (h : c.Valid) : classify c c.dispOff = .dcOff := by
  obtain ⟨-, -, -, hod, -, hao, -⟩ := h
  rw [classify, if_neg hod, if_neg fun hm => hao _ (addr_of_mask c _ hm).symm, if_pos rfl]

theorem classify_on (c : Cfg) (h : c.Valid) (s : BitVec 3) :
    classify c (c.dispOnBase ||| s.setWidth 8) = .dcOn s := by
  obtain ⟨hb, -, -, -, hod, -, haon, hoff⟩ := h
  rw [classify, if_neg (hod s), if_neg fun hm => haon _ s (addr_of_mask c _ hm).symm,
    if_neg (hoff s), if_pos (base_of_or3 _ s hb), operand_of_or3 _ s hb]

/-- Reading the low bits as the spec writes them. -/
theorem Byte.extract4 (b : Byte) : b.extractLsb' 0 4 = b.setWidth 4 := by revert b; decide
theorem Byte.extract3 (b : Byte) : b.extractLsb' 0 3 = b.setWidth 3 := by revert b; decide

end Sys2Proof
end

