-- ==== Sys2Proof/Laws/Memory.lean ====
section
/-!
SUPPORT. The lines and the device's display memory: read after write, and every operation on the
display memory keeps its canonical form.
-/

namespace Sys2Proof.Machine

/-! ### The lines -/

@[simp] theorem PerLine.get_set_same {α : Type} (p : PerLine α) (l : Line) (v : α) :
    (p.set l v).get l = v := by cases l <;> rfl

theorem PerLine.get_set_other {α : Type} (p : PerLine α) (l m : Line) (v : α) (h : m ≠ l) :
    (p.set l v).get m = p.get m := by cases l <;> cases m <;> first | rfl | exact absurd rfl h

theorem PerLine.set_get_self {α : Type} (p : PerLine α) (l : Line) : p.set l (p.get l) = p := by
  cases l <;> rfl

/-! ### The display memory -/

/-- Read after write: the written slot holds the value, every other slot what it held. -/
theorem Memory.read_write (m : Memory) (a b : Nat) (v : Byte) :
    Memory.read (Memory.write m a v) b = if a = b then some v else Memory.read m b := by
  induction m with
  | nil => simp [Memory.write, Memory.read]
  | cons x rest ih =>
    obtain ⟨c, w⟩ := x
    unfold Memory.write
    split
    · by_cases hab : a = b <;> simp [Memory.read, hab]
    · split
      · rename_i hac
        by_cases hab : a = b <;> simp [Memory.read, ← hac, hab]
      · rename_i hac
        by_cases hcb : c = b
        · have : a ≠ b := fun h => hac (h.trans hcb.symm)
          simp [Memory.read, hcb, this]
        · simp [Memory.read, hcb, ih]

theorem Memory.mem_write (m : Memory) (a : Nat) (v : Byte) (x : Host.Cell)
    (h : x ∈ Memory.write m a v) : x = (a, v) ∨ x ∈ m := by
  induction m with
  | nil => simpa [Memory.write] using h
  | cons y rest ih =>
    simp only [Memory.write] at h
    split at h
    · simpa using h
    · split at h
      · rcases List.mem_cons.1 h with h | h
        · exact .inl h
        · exact .inr (List.mem_cons_of_mem _ h)
      · rcases List.mem_cons.1 h with h | h
        · exact .inr (h ▸ List.mem_cons_self)
        · exact (ih h).imp_right (List.mem_cons_of_mem _)

/-- A write of an existing slot keeps the canonical form. -/
theorem Memory.wf_write (m : Memory) (a : Nat) (v : Byte) (h : Memory.wf m)
    (ha : a < Config.memSlots) : Memory.wf (Memory.write m a v) := by
  refine ⟨?_, fun x hx => ?_⟩
  · obtain ⟨hs, -⟩ := h
    induction m with
    | nil => simp [Memory.write]
    | cons y rest ih =>
      obtain ⟨hy, hrest⟩ := List.pairwise_cons.1 hs
      simp only [Memory.write]
      split
      · rename_i hlt
        refine List.pairwise_cons.2 ⟨fun z hz => ?_, hs⟩
        rcases List.mem_cons.1 hz with rfl | hz
        · exact hlt
        · exact hlt.trans (hy z hz)
      · split
        · rename_i heq
          exact List.pairwise_cons.2 ⟨fun z hz => heq ▸ hy z hz, hrest⟩
        · rename_i hlt hne
          refine List.pairwise_cons.2 ⟨fun z hz => ?_, ih hrest⟩
          rcases Memory.mem_write rest a v z hz with rfl | hz
          · show y.1 < a
            omega
          · exact hy z hz
  · rcases Memory.mem_write m a v x hx with rfl | hx
    · exact ha
    · exact h.2 x hx

/-- Nothing known is a canonical form. -/
theorem Memory.wf_nil : Memory.wf ([] : Memory) := by decide

/-! ### The device -/

theorem Device.wf_takePayload (d : Device) (p : Byte) (h : Memory.wf d.mem) :
    Memory.wf (d.takePayload p).mem := by
  unfold Device.takePayload
  split
  · split
    · rename_i hq
      exact Memory.wf_write _ _ _ h hq
    · exact Memory.wf_nil
  · exact Memory.wf_nil

theorem Device.wf_take (i : Instr) (d : Device) (h : Memory.wf d.mem) :
    Memory.wf (d.take i).mem := by
  cases i <;> first | exact h | exact Memory.wf_nil | exact Device.wf_takePayload d _ h

theorem Device.wf_applyByte (c : Cfg) (d : Device) (x : Position × Byte) (h : Memory.wf d.mem) :
    Memory.wf (d.applyByte c x).mem := by
  unfold Device.applyByte
  split
  · exact Device.wf_take _ _ h
  · exact Memory.wf_nil

/-- A whole transaction keeps the display memory canonical. -/
theorem Device.wf_applyTransaction (c : Cfg) (control : Byte) (rest : List Byte) (d : Device)
    (h : Memory.wf d.mem) : Memory.wf (d.applyTransaction c control rest).mem := by
  unfold Device.applyTransaction
  split
  · exact h
  · rename_i ps _ _ a _
    have h' : Memory.wf (d.setPointer a).mem := h
    generalize d.setPointer a = e at h'
    induction ps generalizing e with
    | nil => exact h'
    | cons p ps ih => exact ih _ (Device.wf_takePayload e p h')
  · exact h
  · exact h
  · exact Memory.wf_nil

theorem Device.wf_applyBytes (c : Cfg) (bytes : List Byte) (d : Device) (h : Memory.wf d.mem) :
    Memory.wf (d.applyBytes c bytes).mem := by
  cases bytes with
  | nil => exact Memory.wf_nil
  | cons control rest => exact Device.wf_applyTransaction c control rest d h

/-- A device of which nothing is known stays so under payload bytes. -/
theorem Device.takePayload_unknown (p : Byte) : Device.unknown.takePayload p = Device.unknown := rfl

end Sys2Proof.Machine
end

