-- ==== Sys2Proof/Laws/Observer.lean ====
section
/-!
SUPPORT. The reference observer: what an edge and an event can do to it.
-/

namespace Sys2Proof.Machine

theorem Observer.loseSync_wf (o : Observer) : Memory.wf o.loseSync.dev.mem := Memory.wf_nil

@[simp] theorem Observer.receive_wire (c : Cfg) (bs : List Byte) (o : Observer) :
    (o.receive c bs).wire = o.wire := rfl
@[simp] theorem Observer.receive_inInit (c : Cfg) (bs : List Byte) (o : Observer) :
    (o.receive c bs).inInit = o.inInit := rfl
@[simp] theorem Observer.receive_dec (c : Cfg) (bs : List Byte) (o : Observer) :
    (o.receive c bs).dec = o.dec := rfl
@[simp] theorem Observer.receive_tokens (c : Cfg) (bs : List Byte) (o : Observer) :
    (o.receive c bs).tokens = o.tokens := rfl
@[simp] theorem Observer.receive_dev (c : Cfg) (bs : List Byte) (o : Observer) :
    (o.receive c bs).dev = o.dev.applyBytes c bs := rfl
@[simp] theorem Observer.sample_wire (v : Level) (b : Byte) (n : Nat) (bs : List Byte)
    (o : Observer) : (o.sample v b n bs).wire = o.wire := by
  unfold Observer.sample; dsimp only; split <;> rfl
@[simp] theorem Observer.sample_dev (v : Level) (b : Byte) (n : Nat) (bs : List Byte)
    (o : Observer) : (o.sample v b n bs).dev = o.dev := by
  unfold Observer.sample; dsimp only; split <;> rfl
@[simp] theorem Observer.sample_inInit (v : Level) (b : Byte) (n : Nat) (bs : List Byte)
    (o : Observer) : (o.sample v b n bs).inInit = o.inInit := by
  unfold Observer.sample; dsimp only; split <;> rfl

@[simp] theorem Observer.feed_wire (c : Cfg) (e : Edge) (o : Observer) :
    (o.feed c e).wire = o.wire := by
  unfold Observer.feed; split <;> simp [Observer.loseSync]

/-- No edge from `v` to `v`: the wire is then already as it is set. -/
theorem edgeOf_none (w : PerLine KLevel) (l : Line) (v : KLevel) (h : edgeOf w l v = none) :
    w.set l v = w := by
  unfold edgeOf at h
  split at h
  · rename_i hv
    rw [← hv, PerLine.set_get_self]
  · split at h <;> cases h

@[simp] theorem Observer.drive_wire (c : Cfg) (l : Line) (v : KLevel) (o : Observer) :
    (o.drive c l v).wire = o.wire.set l v := by
  unfold Observer.drive
  split
  · rename_i h
    exact (edgeOf_none _ _ _ h).symm
  · simp

/-! ### The end of a transaction -/

theorem applyStops_append (c : Cfg) (ts us : List Token) (d : Device) :
    applyStops c (ts ++ us) d = applyStops c us (applyStops c ts d) := by
  induction ts generalizing d with
  | nil => rfl
  | cons x ts ih => cases x <;> exact ih _

/-- What reading events does to the tokens and to the device (R152, R158, R163): tokens are only
appended; every transaction is applied at its `STOP`, or synchronisation is lost and all device state
is unknown; and in `DESYNC` nothing happens any more. -/
def Observer.Follows (c : Cfg) (o p : Observer) : Prop :=
  ∃ ts, p.tokens = o.tokens ++ ts ∧
    (p.dev = applyStops c ts o.dev ∨ (p.dec = .desync ∧ p.dev = Device.unknown)) ∧
    (o.dec = .desync → p.dec = .desync ∧ ts = [] ∧ p.dev = o.dev)

theorem Observer.Follows.of_same {c : Cfg} {o p : Observer} (ht : p.tokens = o.tokens)
    (hv : p.dev = o.dev) (hd : o.dec = .desync → p.dec = .desync) : Observer.Follows c o p :=
  ⟨[], by simp [ht], .inl hv, fun h => ⟨hd h, rfl, hv⟩⟩

theorem Observer.Follows.trans {c : Cfg} {o p q : Observer} (h : Observer.Follows c o p)
    (h' : Observer.Follows c p q) : Observer.Follows c o q := by
  obtain ⟨ts, ht, hv, hd⟩ := h
  obtain ⟨us, hu, hv', hd'⟩ := h'
  refine ⟨ts ++ us, by rw [hu, ht, List.append_assoc], ?_, fun ho => ?_⟩
  · rcases hv with hv | ⟨hp, hv⟩
    · rcases hv' with hv' | hv'
      · exact .inl (by rw [hv', hv, applyStops_append])
      · exact .inr hv'
    · obtain ⟨hq, -, he⟩ := hd' hp
      exact .inr ⟨hq, he.trans hv⟩
  · obtain ⟨hp, rfl, he⟩ := hd ho
    obtain ⟨hq, rfl, he'⟩ := hd' hp
    exact ⟨hq, rfl, he'.trans he⟩

theorem Observer.feed_follows (c : Cfg) (e : Edge) (o : Observer) :
    Observer.Follows c o (o.feed c e) := by
  have hlose : o.dec ≠ .desync → Observer.Follows c o o.loseSync := fun h =>
    ⟨[], (List.append_nil _).symm, .inr ⟨rfl, rfl⟩, fun h' => absurd h' h⟩
  have hsame : Observer.Follows c o o := .of_same rfl rfl id
  unfold Observer.feed
  split
  case h_1 => exact hsame
  case h_2 => exact hsame
  case h_3 h => exact hlose (by simp [h])
  case h_4 h => exact ⟨[.start], rfl, .inl rfl, fun h' => by rw [h] at h'; cases h'⟩
  case h_5 => exact hsame
  case h_6 => exact hsame
  case h_7 => exact hsame
  case h_8 => exact hsame
  case h_9 h => exact hlose (by simp [h])
  case h_10 h =>
    unfold Observer.sample
    dsimp only
    split
    · exact ⟨[.byte _], rfl, .inl rfl, fun h' => by rw [h] at h'; cases h'⟩
    · exact ⟨[], (List.append_nil _).symm, .inl rfl, fun h' => by rw [h] at h'; cases h'⟩
  case h_11 h => exact ⟨[.stop _], rfl, .inl rfl, fun h' => by rw [h] at h'; cases h'⟩
  case h_12 => exact hsame
  case h_13 => exact hsame
  case h_14 h => exact hlose (by simp [h])

theorem Observer.drive_follows (c : Cfg) (l : Line) (v : KLevel) (o : Observer) :
    Observer.Follows c o (o.drive c l v) := by
  unfold Observer.drive
  split
  · exact .of_same rfl rfl id
  · exact Observer.feed_follows c _ { o with wire := _ }

theorem Observer.see_follows (c : Cfg) (e : Event) (o : Observer) :
    Observer.Follows c o (o.see c e) := by
  cases e with
  | accept op => exact .of_same rfl rfl id
  | cfg l pin r => cases r with
    | ok => exact .of_same rfl rfl id
    | err e => exact Observer.drive_follows c l .x o
  | set l pin lv r => cases r with
    | ok => exact Observer.drive_follows c l lv.known o
    | err e => exact Observer.drive_follows c l .x o
  | wait n => exact .of_same rfl rfl id
  | done r =>
    simp only [Observer.see]
    split
    · rename_i h
      exact .of_same rfl rfl (fun h' => by rw [h.1] at h'; cases h')
    · exact .of_same rfl rfl id
  | mfault f => exact .of_same rfl rfl id

/-- The replay of one event more is that event read after the replay (R150). -/
theorem Observer.replay_snoc (c : Cfg) (hist : List Event) (e : Event) :
    Observer.replay c (hist ++ [e]) = (Observer.replay c hist).see c e := by
  simp [Observer.replay, List.foldl_append]

theorem Observer.wf_see (c : Cfg) (e : Event) (o : Observer) (h : Memory.wf o.dev.mem) :
    Memory.wf (o.see c e).dev.mem := by
  obtain ⟨ts, -, hv | ⟨-, hv⟩, -⟩ := Observer.see_follows c e o <;> rw [hv]
  · clear hv
    generalize o.dev = d at h
    induction ts generalizing d with
    | nil => exact h
    | cons x ts ih => cases x <;> first | exact ih d h | exact ih _ (Device.wf_applyBytes c _ d h)
  · exact Memory.wf_nil

/-- What one event does to the levels the observer sees (R150). -/
theorem Observer.see_wire (c : Cfg) (e : Event) (o : Observer) :
    (o.see c e).wire =
      match e with
      | .cfg l _ (.err _) => o.wire.set l .x
      | .set l _ lv .ok => o.wire.set l lv.known
      | .set l _ _ (.err _) => o.wire.set l .x
      | _ => o.wire := by
  cases e with
  | cfg l pin r => cases r <;> simp [Observer.see]
  | set l pin lv r => cases r <;> simp [Observer.see]
  | done r => simp only [Observer.see]; split <;> rfl
  | _ => rfl

end Sys2Proof.Machine
end

