-- ==== Sys2Proof/Laws/State.lean ====
section
/-!
SUPPORT. What each update of the state does to each field: one lemma a field and update, so that no
proof unfolds an update.
-/

namespace Sys2Proof.Machine

/-! ### `emit` (R33) -/

@[simp] theorem State.emit_params (e : Event) (s : State) :
    (s.emit e).params = s.params := rfl
@[simp] theorem State.emit_session (e : Event) (s : State) :
    (s.emit e).session = s.session := rfl
@[simp] theorem State.emit_clkPin (e : Event) (s : State) :
    (s.emit e).clkPin = s.clkPin := rfl
@[simp] theorem State.emit_dinPin (e : Event) (s : State) :
    (s.emit e).dinPin = s.dinPin := rfl
@[simp] theorem State.emit_lineCfg (e : Event) (s : State) :
    (s.emit e).lineCfg = s.lineCfg := rfl
@[simp] theorem State.emit_lvl (e : Event) (s : State) :
    (s.emit e).lvl = s.lvl := rfl
@[simp] theorem State.emit_phase (e : Event) (s : State) :
    (s.emit e).phase = s.phase := rfl
@[simp] theorem State.emit_cur (e : Event) (s : State) :
    (s.emit e).cur = s.cur := rfl
@[simp] theorem State.emit_useq (e : Event) (s : State) :
    (s.emit e).useq = s.useq := rfl
@[simp] theorem State.emit_mpc (e : Event) (s : State) :
    (s.emit e).mpc = s.mpc := rfl
@[simp] theorem State.emit_res (e : Event) (s : State) :
    (s.emit e).res = s.res := rfl
@[simp] theorem State.emit_txFaultSeen (e : Event) (s : State) :
    (s.emit e).txFaultSeen = s.txFaultSeen := rfl
@[simp] theorem State.emit_cfgFaultSeen (e : Event) (s : State) :
    (s.emit e).cfgFaultSeen = s.cfgFaultSeen := rfl
@[simp] theorem State.emit_mfault (e : Event) (s : State) :
    (s.emit e).mfault = s.mfault := rfl
@[simp] theorem State.emit_hist (e : Event) (s : State) :
    (s.emit e).hist = s.hist ++ [e] := rfl
@[simp] theorem State.emit_obs (e : Event) (s : State) :
    (s.emit e).obs = s.obs.see s.params e := rfl
@[simp] theorem State.emit_callers (e : Event) (s : State) :
    (s.emit e).callers = s.callers := rfl
@[simp] theorem State.emit_answers (e : Event) (s : State) :
    (s.emit e).answers = s.answers := rfl
@[simp] theorem State.emit_asked (e : Event) (s : State) :
    (s.emit e).asked = s.asked := rfl
@[simp] theorem State.emit_admitted (e : Event) (s : State) :
    (s.emit e).admitted = s.admitted := rfl
@[simp] theorem State.emit_arriving (e : Event) (s : State) :
    (s.emit e).arriving = s.arriving := rfl

/-! ### `takeAnswer` (R90) -/

@[simp] theorem State.takeAnswer_params (s : State) :
    (s.takeAnswer).params = s.params := rfl
@[simp] theorem State.takeAnswer_session (s : State) :
    (s.takeAnswer).session = s.session := rfl
@[simp] theorem State.takeAnswer_clkPin (s : State) :
    (s.takeAnswer).clkPin = s.clkPin := rfl
@[simp] theorem State.takeAnswer_dinPin (s : State) :
    (s.takeAnswer).dinPin = s.dinPin := rfl
@[simp] theorem State.takeAnswer_lineCfg (s : State) :
    (s.takeAnswer).lineCfg = s.lineCfg := rfl
@[simp] theorem State.takeAnswer_lvl (s : State) :
    (s.takeAnswer).lvl = s.lvl := rfl
@[simp] theorem State.takeAnswer_phase (s : State) :
    (s.takeAnswer).phase = s.phase := rfl
@[simp] theorem State.takeAnswer_cur (s : State) :
    (s.takeAnswer).cur = s.cur := rfl
@[simp] theorem State.takeAnswer_useq (s : State) :
    (s.takeAnswer).useq = s.useq := rfl
@[simp] theorem State.takeAnswer_mpc (s : State) :
    (s.takeAnswer).mpc = s.mpc := rfl
@[simp] theorem State.takeAnswer_res (s : State) :
    (s.takeAnswer).res = s.res := rfl
@[simp] theorem State.takeAnswer_txFaultSeen (s : State) :
    (s.takeAnswer).txFaultSeen = s.txFaultSeen := rfl
@[simp] theorem State.takeAnswer_cfgFaultSeen (s : State) :
    (s.takeAnswer).cfgFaultSeen = s.cfgFaultSeen := rfl
@[simp] theorem State.takeAnswer_mfault (s : State) :
    (s.takeAnswer).mfault = s.mfault := rfl
@[simp] theorem State.takeAnswer_hist (s : State) :
    (s.takeAnswer).hist = s.hist := rfl
@[simp] theorem State.takeAnswer_obs (s : State) :
    (s.takeAnswer).obs = s.obs := rfl
@[simp] theorem State.takeAnswer_callers (s : State) :
    (s.takeAnswer).callers = s.callers := rfl
@[simp] theorem State.takeAnswer_answers (s : State) :
    (s.takeAnswer).answers = s.answers.tail := rfl
@[simp] theorem State.takeAnswer_asked (s : State) :
    (s.takeAnswer).asked = s.asked + 1 := rfl
@[simp] theorem State.takeAnswer_admitted (s : State) :
    (s.takeAnswer).admitted = s.admitted := rfl
@[simp] theorem State.takeAnswer_arriving (s : State) :
    (s.takeAnswer).arriving = s.arriving := rfl

/-! ### `setCfg` (R24) -/

@[simp] theorem State.setCfg_params (l : Line) (v : KCfg) (s : State) :
    (s.setCfg l v).params = s.params := rfl
@[simp] theorem State.setCfg_session (l : Line) (v : KCfg) (s : State) :
    (s.setCfg l v).session = s.session := rfl
@[simp] theorem State.setCfg_clkPin (l : Line) (v : KCfg) (s : State) :
    (s.setCfg l v).clkPin = s.clkPin := rfl
@[simp] theorem State.setCfg_dinPin (l : Line) (v : KCfg) (s : State) :
    (s.setCfg l v).dinPin = s.dinPin := rfl
@[simp] theorem State.setCfg_lineCfg (l : Line) (v : KCfg) (s : State) :
    (s.setCfg l v).lineCfg = s.lineCfg.set l v := rfl
@[simp] theorem State.setCfg_lvl (l : Line) (v : KCfg) (s : State) :
    (s.setCfg l v).lvl = s.lvl := rfl
@[simp] theorem State.setCfg_phase (l : Line) (v : KCfg) (s : State) :
    (s.setCfg l v).phase = s.phase := rfl
@[simp] theorem State.setCfg_cur (l : Line) (v : KCfg) (s : State) :
    (s.setCfg l v).cur = s.cur := rfl
@[simp] theorem State.setCfg_useq (l : Line) (v : KCfg) (s : State) :
    (s.setCfg l v).useq = s.useq := rfl
@[simp] theorem State.setCfg_mpc (l : Line) (v : KCfg) (s : State) :
    (s.setCfg l v).mpc = s.mpc := rfl
@[simp] theorem State.setCfg_res (l : Line) (v : KCfg) (s : State) :
    (s.setCfg l v).res = s.res := rfl
@[simp] theorem State.setCfg_txFaultSeen (l : Line) (v : KCfg) (s : State) :
    (s.setCfg l v).txFaultSeen = s.txFaultSeen := rfl
@[simp] theorem State.setCfg_cfgFaultSeen (l : Line) (v : KCfg) (s : State) :
    (s.setCfg l v).cfgFaultSeen = s.cfgFaultSeen := rfl
@[simp] theorem State.setCfg_mfault (l : Line) (v : KCfg) (s : State) :
    (s.setCfg l v).mfault = s.mfault := rfl
@[simp] theorem State.setCfg_hist (l : Line) (v : KCfg) (s : State) :
    (s.setCfg l v).hist = s.hist := rfl
@[simp] theorem State.setCfg_obs (l : Line) (v : KCfg) (s : State) :
    (s.setCfg l v).obs = s.obs := rfl
@[simp] theorem State.setCfg_callers (l : Line) (v : KCfg) (s : State) :
    (s.setCfg l v).callers = s.callers := rfl
@[simp] theorem State.setCfg_answers (l : Line) (v : KCfg) (s : State) :
    (s.setCfg l v).answers = s.answers := rfl
@[simp] theorem State.setCfg_asked (l : Line) (v : KCfg) (s : State) :
    (s.setCfg l v).asked = s.asked := rfl
@[simp] theorem State.setCfg_admitted (l : Line) (v : KCfg) (s : State) :
    (s.setCfg l v).admitted = s.admitted := rfl
@[simp] theorem State.setCfg_arriving (l : Line) (v : KCfg) (s : State) :
    (s.setCfg l v).arriving = s.arriving := rfl

/-! ### `setLvl` (R25) -/

@[simp] theorem State.setLvl_params (l : Line) (v : KLevel) (s : State) :
    (s.setLvl l v).params = s.params := rfl
@[simp] theorem State.setLvl_session (l : Line) (v : KLevel) (s : State) :
    (s.setLvl l v).session = s.session := rfl
@[simp] theorem State.setLvl_clkPin (l : Line) (v : KLevel) (s : State) :
    (s.setLvl l v).clkPin = s.clkPin := rfl
@[simp] theorem State.setLvl_dinPin (l : Line) (v : KLevel) (s : State) :
    (s.setLvl l v).dinPin = s.dinPin := rfl
@[simp] theorem State.setLvl_lineCfg (l : Line) (v : KLevel) (s : State) :
    (s.setLvl l v).lineCfg = s.lineCfg := rfl
@[simp] theorem State.setLvl_lvl (l : Line) (v : KLevel) (s : State) :
    (s.setLvl l v).lvl = s.lvl.set l v := rfl
@[simp] theorem State.setLvl_phase (l : Line) (v : KLevel) (s : State) :
    (s.setLvl l v).phase = s.phase := rfl
@[simp] theorem State.setLvl_cur (l : Line) (v : KLevel) (s : State) :
    (s.setLvl l v).cur = s.cur := rfl
@[simp] theorem State.setLvl_useq (l : Line) (v : KLevel) (s : State) :
    (s.setLvl l v).useq = s.useq := rfl
@[simp] theorem State.setLvl_mpc (l : Line) (v : KLevel) (s : State) :
    (s.setLvl l v).mpc = s.mpc := rfl
@[simp] theorem State.setLvl_res (l : Line) (v : KLevel) (s : State) :
    (s.setLvl l v).res = s.res := rfl
@[simp] theorem State.setLvl_txFaultSeen (l : Line) (v : KLevel) (s : State) :
    (s.setLvl l v).txFaultSeen = s.txFaultSeen := rfl
@[simp] theorem State.setLvl_cfgFaultSeen (l : Line) (v : KLevel) (s : State) :
    (s.setLvl l v).cfgFaultSeen = s.cfgFaultSeen := rfl
@[simp] theorem State.setLvl_mfault (l : Line) (v : KLevel) (s : State) :
    (s.setLvl l v).mfault = s.mfault := rfl
@[simp] theorem State.setLvl_hist (l : Line) (v : KLevel) (s : State) :
    (s.setLvl l v).hist = s.hist := rfl
@[simp] theorem State.setLvl_obs (l : Line) (v : KLevel) (s : State) :
    (s.setLvl l v).obs = s.obs := rfl
@[simp] theorem State.setLvl_callers (l : Line) (v : KLevel) (s : State) :
    (s.setLvl l v).callers = s.callers := rfl
@[simp] theorem State.setLvl_answers (l : Line) (v : KLevel) (s : State) :
    (s.setLvl l v).answers = s.answers := rfl
@[simp] theorem State.setLvl_asked (l : Line) (v : KLevel) (s : State) :
    (s.setLvl l v).asked = s.asked := rfl
@[simp] theorem State.setLvl_admitted (l : Line) (v : KLevel) (s : State) :
    (s.setLvl l v).admitted = s.admitted := rfl
@[simp] theorem State.setLvl_arriving (l : Line) (v : KLevel) (s : State) :
    (s.setLvl l v).arriving = s.arriving := rfl

/-! ### `advance` (R27) -/

@[simp] theorem State.advance_params (s : State) :
    (s.advance).params = s.params := rfl
@[simp] theorem State.advance_session (s : State) :
    (s.advance).session = s.session := rfl
@[simp] theorem State.advance_clkPin (s : State) :
    (s.advance).clkPin = s.clkPin := rfl
@[simp] theorem State.advance_dinPin (s : State) :
    (s.advance).dinPin = s.dinPin := rfl
@[simp] theorem State.advance_lineCfg (s : State) :
    (s.advance).lineCfg = s.lineCfg := rfl
@[simp] theorem State.advance_lvl (s : State) :
    (s.advance).lvl = s.lvl := rfl
@[simp] theorem State.advance_phase (s : State) :
    (s.advance).phase = s.phase := rfl
@[simp] theorem State.advance_cur (s : State) :
    (s.advance).cur = s.cur := rfl
@[simp] theorem State.advance_useq (s : State) :
    (s.advance).useq = s.useq := rfl
@[simp] theorem State.advance_mpc (s : State) :
    (s.advance).mpc = if s.phase = .run then s.mpc + 1 else s.mpc := rfl
@[simp] theorem State.advance_res (s : State) :
    (s.advance).res = s.res := rfl
@[simp] theorem State.advance_txFaultSeen (s : State) :
    (s.advance).txFaultSeen = s.txFaultSeen := rfl
@[simp] theorem State.advance_cfgFaultSeen (s : State) :
    (s.advance).cfgFaultSeen = s.cfgFaultSeen := rfl
@[simp] theorem State.advance_mfault (s : State) :
    (s.advance).mfault = s.mfault := rfl
@[simp] theorem State.advance_hist (s : State) :
    (s.advance).hist = s.hist := rfl
@[simp] theorem State.advance_obs (s : State) :
    (s.advance).obs = s.obs := rfl
@[simp] theorem State.advance_callers (s : State) :
    (s.advance).callers = s.callers := rfl
@[simp] theorem State.advance_answers (s : State) :
    (s.advance).answers = s.answers := rfl
@[simp] theorem State.advance_asked (s : State) :
    (s.advance).asked = s.asked := rfl
@[simp] theorem State.advance_admitted (s : State) :
    (s.advance).admitted = s.admitted := rfl
@[simp] theorem State.advance_arriving (s : State) :
    (s.advance).arriving = s.arriving := rfl

/-! ### `onDevice` (R158) -/

@[simp] theorem State.onDevice_params (f : Device → Device) (s : State) :
    (s.onDevice f).params = s.params := rfl
@[simp] theorem State.onDevice_session (f : Device → Device) (s : State) :
    (s.onDevice f).session = s.session := rfl
@[simp] theorem State.onDevice_clkPin (f : Device → Device) (s : State) :
    (s.onDevice f).clkPin = s.clkPin := rfl
@[simp] theorem State.onDevice_dinPin (f : Device → Device) (s : State) :
    (s.onDevice f).dinPin = s.dinPin := rfl
@[simp] theorem State.onDevice_lineCfg (f : Device → Device) (s : State) :
    (s.onDevice f).lineCfg = s.lineCfg := rfl
@[simp] theorem State.onDevice_lvl (f : Device → Device) (s : State) :
    (s.onDevice f).lvl = s.lvl := rfl
@[simp] theorem State.onDevice_phase (f : Device → Device) (s : State) :
    (s.onDevice f).phase = s.phase := rfl
@[simp] theorem State.onDevice_cur (f : Device → Device) (s : State) :
    (s.onDevice f).cur = s.cur := rfl
@[simp] theorem State.onDevice_useq (f : Device → Device) (s : State) :
    (s.onDevice f).useq = s.useq := rfl
@[simp] theorem State.onDevice_mpc (f : Device → Device) (s : State) :
    (s.onDevice f).mpc = s.mpc := rfl
@[simp] theorem State.onDevice_res (f : Device → Device) (s : State) :
    (s.onDevice f).res = s.res := rfl
@[simp] theorem State.onDevice_txFaultSeen (f : Device → Device) (s : State) :
    (s.onDevice f).txFaultSeen = s.txFaultSeen := rfl
@[simp] theorem State.onDevice_cfgFaultSeen (f : Device → Device) (s : State) :
    (s.onDevice f).cfgFaultSeen = s.cfgFaultSeen := rfl
@[simp] theorem State.onDevice_mfault (f : Device → Device) (s : State) :
    (s.onDevice f).mfault = s.mfault := rfl
@[simp] theorem State.onDevice_hist (f : Device → Device) (s : State) :
    (s.onDevice f).hist = s.hist := rfl
@[simp] theorem State.onDevice_obs (f : Device → Device) (s : State) :
    (s.onDevice f).obs = { s.obs with dev := f s.obs.dev } := rfl
@[simp] theorem State.onDevice_callers (f : Device → Device) (s : State) :
    (s.onDevice f).callers = s.callers := rfl
@[simp] theorem State.onDevice_answers (f : Device → Device) (s : State) :
    (s.onDevice f).answers = s.answers := rfl
@[simp] theorem State.onDevice_asked (f : Device → Device) (s : State) :
    (s.onDevice f).asked = s.asked := rfl
@[simp] theorem State.onDevice_admitted (f : Device → Device) (s : State) :
    (s.onDevice f).admitted = s.admitted := rfl
@[simp] theorem State.onDevice_arriving (f : Device → Device) (s : State) :
    (s.onDevice f).arriving = s.arriving := rfl

/-! ### `toIdle` (R166, R167, R172) -/

@[simp] theorem State.toIdle_params (s : State) :
    (s.toIdle).params = s.params := rfl
@[simp] theorem State.toIdle_session (s : State) :
    (s.toIdle).session = s.session := rfl
@[simp] theorem State.toIdle_clkPin (s : State) :
    (s.toIdle).clkPin = s.clkPin := rfl
@[simp] theorem State.toIdle_dinPin (s : State) :
    (s.toIdle).dinPin = s.dinPin := rfl
@[simp] theorem State.toIdle_lineCfg (s : State) :
    (s.toIdle).lineCfg = s.lineCfg := rfl
@[simp] theorem State.toIdle_lvl (s : State) :
    (s.toIdle).lvl = s.lvl := rfl
@[simp] theorem State.toIdle_phase (s : State) :
    (s.toIdle).phase = .idle := rfl
@[simp] theorem State.toIdle_cur (s : State) :
    (s.toIdle).cur = none := rfl
@[simp] theorem State.toIdle_useq (s : State) :
    (s.toIdle).useq = [] := rfl
@[simp] theorem State.toIdle_mpc (s : State) :
    (s.toIdle).mpc = 0 := rfl
@[simp] theorem State.toIdle_res (s : State) :
    (s.toIdle).res = s.res := rfl
@[simp] theorem State.toIdle_txFaultSeen (s : State) :
    (s.toIdle).txFaultSeen = s.txFaultSeen := rfl
@[simp] theorem State.toIdle_cfgFaultSeen (s : State) :
    (s.toIdle).cfgFaultSeen = s.cfgFaultSeen := rfl
@[simp] theorem State.toIdle_mfault (s : State) :
    (s.toIdle).mfault = s.mfault := rfl
@[simp] theorem State.toIdle_hist (s : State) :
    (s.toIdle).hist = s.hist := rfl
@[simp] theorem State.toIdle_obs (s : State) :
    (s.toIdle).obs = s.obs := rfl
@[simp] theorem State.toIdle_callers (s : State) :
    (s.toIdle).callers = s.callers := rfl
@[simp] theorem State.toIdle_answers (s : State) :
    (s.toIdle).answers = s.answers := rfl
@[simp] theorem State.toIdle_asked (s : State) :
    (s.toIdle).asked = s.asked := rfl
@[simp] theorem State.toIdle_admitted (s : State) :
    (s.toIdle).admitted = s.admitted := rfl
@[simp] theorem State.toIdle_arriving (s : State) :
    (s.toIdle).arriving = s.arriving := rfl

/-! ### `record` (R166, R168 to R170) -/

@[simp] theorem State.record_params (r : Result) (s : State) :
    (s.record r).params = s.params := rfl
@[simp] theorem State.record_session (r : Result) (s : State) :
    (s.record r).session = sessionAfter r s.cur s.session := rfl
@[simp] theorem State.record_clkPin (r : Result) (s : State) :
    (s.record r).clkPin = s.clkPin := rfl
@[simp] theorem State.record_dinPin (r : Result) (s : State) :
    (s.record r).dinPin = s.dinPin := rfl
@[simp] theorem State.record_lineCfg (r : Result) (s : State) :
    (s.record r).lineCfg = s.lineCfg := rfl
@[simp] theorem State.record_lvl (r : Result) (s : State) :
    (s.record r).lvl = s.lvl := rfl
@[simp] theorem State.record_phase (r : Result) (s : State) :
    (s.record r).phase = s.phase := rfl
@[simp] theorem State.record_cur (r : Result) (s : State) :
    (s.record r).cur = s.cur := rfl
@[simp] theorem State.record_useq (r : Result) (s : State) :
    (s.record r).useq = s.useq := rfl
@[simp] theorem State.record_mpc (r : Result) (s : State) :
    (s.record r).mpc = s.mpc := rfl
@[simp] theorem State.record_res (r : Result) (s : State) :
    (s.record r).res = some r := rfl
@[simp] theorem State.record_txFaultSeen (r : Result) (s : State) :
    (s.record r).txFaultSeen = txMark r s.txFaultSeen := rfl
@[simp] theorem State.record_cfgFaultSeen (r : Result) (s : State) :
    (s.record r).cfgFaultSeen = cfgMark r s.cfgFaultSeen := rfl
@[simp] theorem State.record_mfault (r : Result) (s : State) :
    (s.record r).mfault = s.mfault := rfl
@[simp] theorem State.record_hist (r : Result) (s : State) :
    (s.record r).hist = s.hist := rfl
@[simp] theorem State.record_obs (r : Result) (s : State) :
    (s.record r).obs = s.obs := rfl
@[simp] theorem State.record_callers (r : Result) (s : State) :
    (s.record r).callers = s.callers := rfl
@[simp] theorem State.record_answers (r : Result) (s : State) :
    (s.record r).answers = s.answers := rfl
@[simp] theorem State.record_asked (r : Result) (s : State) :
    (s.record r).asked = s.asked := rfl
@[simp] theorem State.record_admitted (r : Result) (s : State) :
    (s.record r).admitted = s.admitted := rfl
@[simp] theorem State.record_arriving (r : Result) (s : State) :
    (s.record r).arriving = s.arriving := rfl

/-! ### `conclude` (R166, R167) -/

@[simp] theorem State.conclude_params (r : Result) (s : State) :
    (s.conclude r).params = s.params := rfl
@[simp] theorem State.conclude_session (r : Result) (s : State) :
    (s.conclude r).session = sessionAfter r s.cur s.session := rfl
@[simp] theorem State.conclude_clkPin (r : Result) (s : State) :
    (s.conclude r).clkPin = s.clkPin := rfl
@[simp] theorem State.conclude_dinPin (r : Result) (s : State) :
    (s.conclude r).dinPin = s.dinPin := rfl
@[simp] theorem State.conclude_lineCfg (r : Result) (s : State) :
    (s.conclude r).lineCfg = s.lineCfg := rfl
@[simp] theorem State.conclude_lvl (r : Result) (s : State) :
    (s.conclude r).lvl = s.lvl := rfl
@[simp] theorem State.conclude_phase (r : Result) (s : State) :
    (s.conclude r).phase = .idle := rfl
@[simp] theorem State.conclude_cur (r : Result) (s : State) :
    (s.conclude r).cur = none := rfl
@[simp] theorem State.conclude_useq (r : Result) (s : State) :
    (s.conclude r).useq = [] := rfl
@[simp] theorem State.conclude_mpc (r : Result) (s : State) :
    (s.conclude r).mpc = 0 := rfl
@[simp] theorem State.conclude_res (r : Result) (s : State) :
    (s.conclude r).res = some r := rfl
@[simp] theorem State.conclude_txFaultSeen (r : Result) (s : State) :
    (s.conclude r).txFaultSeen = txMark r s.txFaultSeen := rfl
@[simp] theorem State.conclude_cfgFaultSeen (r : Result) (s : State) :
    (s.conclude r).cfgFaultSeen = cfgMark r s.cfgFaultSeen := rfl
@[simp] theorem State.conclude_mfault (r : Result) (s : State) :
    (s.conclude r).mfault = s.mfault := rfl
@[simp] theorem State.conclude_hist (r : Result) (s : State) :
    (s.conclude r).hist = s.hist ++ [.done r] := rfl
@[simp] theorem State.conclude_obs (r : Result) (s : State) :
    (s.conclude r).obs = s.obs.see s.params (.done r) := rfl
@[simp] theorem State.conclude_callers (r : Result) (s : State) :
    (s.conclude r).callers = s.callers := rfl
@[simp] theorem State.conclude_answers (r : Result) (s : State) :
    (s.conclude r).answers = s.answers := rfl
@[simp] theorem State.conclude_asked (r : Result) (s : State) :
    (s.conclude r).asked = s.asked := rfl
@[simp] theorem State.conclude_admitted (r : Result) (s : State) :
    (s.conclude r).admitted = s.admitted := rfl
@[simp] theorem State.conclude_arriving (r : Result) (s : State) :
    (s.conclude r).arriving = s.arriving := rfl

/-! ### `modelFault` (R172) -/

@[simp] theorem State.modelFault_params (f : ModelFault) (s : State) :
    (s.modelFault f).params = s.params := rfl
@[simp] theorem State.modelFault_session (f : ModelFault) (s : State) :
    (s.modelFault f).session = s.session := rfl
@[simp] theorem State.modelFault_clkPin (f : ModelFault) (s : State) :
    (s.modelFault f).clkPin = s.clkPin := rfl
@[simp] theorem State.modelFault_dinPin (f : ModelFault) (s : State) :
    (s.modelFault f).dinPin = s.dinPin := rfl
@[simp] theorem State.modelFault_lineCfg (f : ModelFault) (s : State) :
    (s.modelFault f).lineCfg = s.lineCfg := rfl
@[simp] theorem State.modelFault_lvl (f : ModelFault) (s : State) :
    (s.modelFault f).lvl = s.lvl := rfl
@[simp] theorem State.modelFault_phase (f : ModelFault) (s : State) :
    (s.modelFault f).phase = .idle := rfl
@[simp] theorem State.modelFault_cur (f : ModelFault) (s : State) :
    (s.modelFault f).cur = none := rfl
@[simp] theorem State.modelFault_useq (f : ModelFault) (s : State) :
    (s.modelFault f).useq = [] := rfl
@[simp] theorem State.modelFault_mpc (f : ModelFault) (s : State) :
    (s.modelFault f).mpc = 0 := rfl
@[simp] theorem State.modelFault_res (f : ModelFault) (s : State) :
    (s.modelFault f).res = s.res := rfl
@[simp] theorem State.modelFault_txFaultSeen (f : ModelFault) (s : State) :
    (s.modelFault f).txFaultSeen = s.txFaultSeen := rfl
@[simp] theorem State.modelFault_cfgFaultSeen (f : ModelFault) (s : State) :
    (s.modelFault f).cfgFaultSeen = s.cfgFaultSeen := rfl
@[simp] theorem State.modelFault_mfault (f : ModelFault) (s : State) :
    (s.modelFault f).mfault = some f := rfl
@[simp] theorem State.modelFault_hist (f : ModelFault) (s : State) :
    (s.modelFault f).hist = s.hist ++ [.mfault f] := rfl
@[simp] theorem State.modelFault_obs (f : ModelFault) (s : State) :
    (s.modelFault f).obs = s.obs := rfl
@[simp] theorem State.modelFault_callers (f : ModelFault) (s : State) :
    (s.modelFault f).callers = s.callers := rfl
@[simp] theorem State.modelFault_answers (f : ModelFault) (s : State) :
    (s.modelFault f).answers = s.answers := rfl
@[simp] theorem State.modelFault_asked (f : ModelFault) (s : State) :
    (s.modelFault f).asked = s.asked := rfl
@[simp] theorem State.modelFault_admitted (f : ModelFault) (s : State) :
    (s.modelFault f).admitted = s.admitted := rfl
@[simp] theorem State.modelFault_arriving (f : ModelFault) (s : State) :
    (s.modelFault f).arriving = s.arriving := rfl

/-! ### `hold` (R57) -/

@[simp] theorem State.hold_params (op : Op) (s : State) :
    (s.hold op).params = s.params := rfl
@[simp] theorem State.hold_session (op : Op) (s : State) :
    (s.hold op).session = s.session := rfl
@[simp] theorem State.hold_clkPin (op : Op) (s : State) :
    (s.hold op).clkPin = s.clkPin := rfl
@[simp] theorem State.hold_dinPin (op : Op) (s : State) :
    (s.hold op).dinPin = s.dinPin := rfl
@[simp] theorem State.hold_lineCfg (op : Op) (s : State) :
    (s.hold op).lineCfg = s.lineCfg := rfl
@[simp] theorem State.hold_lvl (op : Op) (s : State) :
    (s.hold op).lvl = s.lvl := rfl
@[simp] theorem State.hold_phase (op : Op) (s : State) :
    (s.hold op).phase = s.phase := rfl
@[simp] theorem State.hold_cur (op : Op) (s : State) :
    (s.hold op).cur = s.cur := rfl
@[simp] theorem State.hold_useq (op : Op) (s : State) :
    (s.hold op).useq = s.useq := rfl
@[simp] theorem State.hold_mpc (op : Op) (s : State) :
    (s.hold op).mpc = s.mpc := rfl
@[simp] theorem State.hold_res (op : Op) (s : State) :
    (s.hold op).res = s.res := rfl
@[simp] theorem State.hold_txFaultSeen (op : Op) (s : State) :
    (s.hold op).txFaultSeen = s.txFaultSeen := rfl
@[simp] theorem State.hold_cfgFaultSeen (op : Op) (s : State) :
    (s.hold op).cfgFaultSeen = s.cfgFaultSeen := rfl
@[simp] theorem State.hold_mfault (op : Op) (s : State) :
    (s.hold op).mfault = s.mfault := rfl
@[simp] theorem State.hold_hist (op : Op) (s : State) :
    (s.hold op).hist = s.hist := rfl
@[simp] theorem State.hold_obs (op : Op) (s : State) :
    (s.hold op).obs = s.obs := rfl
@[simp] theorem State.hold_callers (op : Op) (s : State) :
    (s.hold op).callers = s.callers ++ [[op]] := rfl
@[simp] theorem State.hold_answers (op : Op) (s : State) :
    (s.hold op).answers = s.answers := rfl
@[simp] theorem State.hold_asked (op : Op) (s : State) :
    (s.hold op).asked = s.asked := rfl
@[simp] theorem State.hold_admitted (op : Op) (s : State) :
    (s.hold op).admitted = s.admitted := rfl
@[simp] theorem State.hold_arriving (op : Op) (s : State) :
    (s.hold op).arriving = s.arriving := rfl

/-! ### `latch` (R144) -/

@[simp] theorem State.latch_params (op : Op) (s : State) :
    (s.latch op).params = s.params := rfl
@[simp] theorem State.latch_session (op : Op) (s : State) :
    (s.latch op).session = s.session := rfl
@[simp] theorem State.latch_clkPin (op : Op) (s : State) :
    (s.latch op).clkPin = s.clkPin := rfl
@[simp] theorem State.latch_dinPin (op : Op) (s : State) :
    (s.latch op).dinPin = s.dinPin := rfl
@[simp] theorem State.latch_lineCfg (op : Op) (s : State) :
    (s.latch op).lineCfg = s.lineCfg := rfl
@[simp] theorem State.latch_lvl (op : Op) (s : State) :
    (s.latch op).lvl = s.lvl := rfl
@[simp] theorem State.latch_phase (op : Op) (s : State) :
    (s.latch op).phase = s.phase := rfl
@[simp] theorem State.latch_cur (op : Op) (s : State) :
    (s.latch op).cur = some op := rfl
@[simp] theorem State.latch_useq (op : Op) (s : State) :
    (s.latch op).useq = s.useq := rfl
@[simp] theorem State.latch_mpc (op : Op) (s : State) :
    (s.latch op).mpc = s.mpc := rfl
@[simp] theorem State.latch_res (op : Op) (s : State) :
    (s.latch op).res = s.res := rfl
@[simp] theorem State.latch_txFaultSeen (op : Op) (s : State) :
    (s.latch op).txFaultSeen = s.txFaultSeen := rfl
@[simp] theorem State.latch_cfgFaultSeen (op : Op) (s : State) :
    (s.latch op).cfgFaultSeen = s.cfgFaultSeen := rfl
@[simp] theorem State.latch_mfault (op : Op) (s : State) :
    (s.latch op).mfault = s.mfault := rfl
@[simp] theorem State.latch_hist (op : Op) (s : State) :
    (s.latch op).hist = s.hist ++ [.accept op] := rfl
@[simp] theorem State.latch_obs (op : Op) (s : State) :
    (s.latch op).obs = { s.obs with inInit := op.isInit } := rfl
@[simp] theorem State.latch_callers (op : Op) (s : State) :
    (s.latch op).callers = s.callers := rfl
@[simp] theorem State.latch_answers (op : Op) (s : State) :
    (s.latch op).answers = s.answers := rfl
@[simp] theorem State.latch_asked (op : Op) (s : State) :
    (s.latch op).asked = s.asked := rfl
@[simp] theorem State.latch_admitted (op : Op) (s : State) :
    (s.latch op).admitted = s.admitted := rfl
@[simp] theorem State.latch_arriving (op : Op) (s : State) :
    (s.latch op).arriving = s.arriving := rfl

/-! ### `load` (R120, R125, R136) -/

@[simp] theorem State.load_params (ms : List MicroOp) (s : State) :
    (s.load ms).params = s.params := rfl
@[simp] theorem State.load_session (ms : List MicroOp) (s : State) :
    (s.load ms).session = s.session := rfl
@[simp] theorem State.load_clkPin (ms : List MicroOp) (s : State) :
    (s.load ms).clkPin = s.clkPin := rfl
@[simp] theorem State.load_dinPin (ms : List MicroOp) (s : State) :
    (s.load ms).dinPin = s.dinPin := rfl
@[simp] theorem State.load_lineCfg (ms : List MicroOp) (s : State) :
    (s.load ms).lineCfg = s.lineCfg := rfl
@[simp] theorem State.load_lvl (ms : List MicroOp) (s : State) :
    (s.load ms).lvl = s.lvl := rfl
@[simp] theorem State.load_phase (ms : List MicroOp) (s : State) :
    (s.load ms).phase = .run := rfl
@[simp] theorem State.load_cur (ms : List MicroOp) (s : State) :
    (s.load ms).cur = s.cur := rfl
@[simp] theorem State.load_useq (ms : List MicroOp) (s : State) :
    (s.load ms).useq = ms := rfl
@[simp] theorem State.load_mpc (ms : List MicroOp) (s : State) :
    (s.load ms).mpc = 0 := rfl
@[simp] theorem State.load_res (ms : List MicroOp) (s : State) :
    (s.load ms).res = s.res := rfl
@[simp] theorem State.load_txFaultSeen (ms : List MicroOp) (s : State) :
    (s.load ms).txFaultSeen = s.txFaultSeen := rfl
@[simp] theorem State.load_cfgFaultSeen (ms : List MicroOp) (s : State) :
    (s.load ms).cfgFaultSeen = s.cfgFaultSeen := rfl
@[simp] theorem State.load_mfault (ms : List MicroOp) (s : State) :
    (s.load ms).mfault = s.mfault := rfl
@[simp] theorem State.load_hist (ms : List MicroOp) (s : State) :
    (s.load ms).hist = s.hist := rfl
@[simp] theorem State.load_obs (ms : List MicroOp) (s : State) :
    (s.load ms).obs = s.obs := rfl
@[simp] theorem State.load_callers (ms : List MicroOp) (s : State) :
    (s.load ms).callers = s.callers := rfl
@[simp] theorem State.load_answers (ms : List MicroOp) (s : State) :
    (s.load ms).answers = s.answers := rfl
@[simp] theorem State.load_asked (ms : List MicroOp) (s : State) :
    (s.load ms).asked = s.asked := rfl
@[simp] theorem State.load_admitted (ms : List MicroOp) (s : State) :
    (s.load ms).admitted = s.admitted := rfl
@[simp] theorem State.load_arriving (ms : List MicroOp) (s : State) :
    (s.load ms).arriving = s.arriving := rfl

/-! ### `bind` (R136) -/

@[simp] theorem State.bind_params (pc pd : Pin) (s : State) :
    (s.bind pc pd).params = s.params := rfl
@[simp] theorem State.bind_session (pc pd : Pin) (s : State) :
    (s.bind pc pd).session = s.session := rfl
@[simp] theorem State.bind_clkPin (pc pd : Pin) (s : State) :
    (s.bind pc pd).clkPin = some pc := rfl
@[simp] theorem State.bind_dinPin (pc pd : Pin) (s : State) :
    (s.bind pc pd).dinPin = some pd := rfl
@[simp] theorem State.bind_lineCfg (pc pd : Pin) (s : State) :
    (s.bind pc pd).lineCfg = s.lineCfg := rfl
@[simp] theorem State.bind_lvl (pc pd : Pin) (s : State) :
    (s.bind pc pd).lvl = s.lvl := rfl
@[simp] theorem State.bind_phase (pc pd : Pin) (s : State) :
    (s.bind pc pd).phase = s.phase := rfl
@[simp] theorem State.bind_cur (pc pd : Pin) (s : State) :
    (s.bind pc pd).cur = s.cur := rfl
@[simp] theorem State.bind_useq (pc pd : Pin) (s : State) :
    (s.bind pc pd).useq = s.useq := rfl
@[simp] theorem State.bind_mpc (pc pd : Pin) (s : State) :
    (s.bind pc pd).mpc = s.mpc := rfl
@[simp] theorem State.bind_res (pc pd : Pin) (s : State) :
    (s.bind pc pd).res = s.res := rfl
@[simp] theorem State.bind_txFaultSeen (pc pd : Pin) (s : State) :
    (s.bind pc pd).txFaultSeen = s.txFaultSeen := rfl
@[simp] theorem State.bind_cfgFaultSeen (pc pd : Pin) (s : State) :
    (s.bind pc pd).cfgFaultSeen = s.cfgFaultSeen := rfl
@[simp] theorem State.bind_mfault (pc pd : Pin) (s : State) :
    (s.bind pc pd).mfault = s.mfault := rfl
@[simp] theorem State.bind_hist (pc pd : Pin) (s : State) :
    (s.bind pc pd).hist = s.hist := rfl
@[simp] theorem State.bind_obs (pc pd : Pin) (s : State) :
    (s.bind pc pd).obs = s.obs := rfl
@[simp] theorem State.bind_callers (pc pd : Pin) (s : State) :
    (s.bind pc pd).callers = s.callers := rfl
@[simp] theorem State.bind_answers (pc pd : Pin) (s : State) :
    (s.bind pc pd).answers = s.answers := rfl
@[simp] theorem State.bind_asked (pc pd : Pin) (s : State) :
    (s.bind pc pd).asked = s.asked := rfl
@[simp] theorem State.bind_admitted (pc pd : Pin) (s : State) :
    (s.bind pc pd).admitted = s.admitted := rfl
@[simp] theorem State.bind_arriving (pc pd : Pin) (s : State) :
    (s.bind pc pd).arriving = s.arriving := rfl

/-! ### `dropArriving`, log entry 5 -/

@[simp] theorem State.dropArriving_params (s : State) :
    (s.dropArriving).params = s.params := rfl
@[simp] theorem State.dropArriving_session (s : State) :
    (s.dropArriving).session = s.session := rfl
@[simp] theorem State.dropArriving_clkPin (s : State) :
    (s.dropArriving).clkPin = s.clkPin := rfl
@[simp] theorem State.dropArriving_dinPin (s : State) :
    (s.dropArriving).dinPin = s.dinPin := rfl
@[simp] theorem State.dropArriving_lineCfg (s : State) :
    (s.dropArriving).lineCfg = s.lineCfg := rfl
@[simp] theorem State.dropArriving_lvl (s : State) :
    (s.dropArriving).lvl = s.lvl := rfl
@[simp] theorem State.dropArriving_phase (s : State) :
    (s.dropArriving).phase = s.phase := rfl
@[simp] theorem State.dropArriving_cur (s : State) :
    (s.dropArriving).cur = s.cur := rfl
@[simp] theorem State.dropArriving_useq (s : State) :
    (s.dropArriving).useq = s.useq := rfl
@[simp] theorem State.dropArriving_mpc (s : State) :
    (s.dropArriving).mpc = s.mpc := rfl
@[simp] theorem State.dropArriving_res (s : State) :
    (s.dropArriving).res = s.res := rfl
@[simp] theorem State.dropArriving_txFaultSeen (s : State) :
    (s.dropArriving).txFaultSeen = s.txFaultSeen := rfl
@[simp] theorem State.dropArriving_cfgFaultSeen (s : State) :
    (s.dropArriving).cfgFaultSeen = s.cfgFaultSeen := rfl
@[simp] theorem State.dropArriving_mfault (s : State) :
    (s.dropArriving).mfault = s.mfault := rfl
@[simp] theorem State.dropArriving_hist (s : State) :
    (s.dropArriving).hist = s.hist := rfl
@[simp] theorem State.dropArriving_obs (s : State) :
    (s.dropArriving).obs = s.obs := rfl
@[simp] theorem State.dropArriving_callers (s : State) :
    (s.dropArriving).callers = s.callers := rfl
@[simp] theorem State.dropArriving_answers (s : State) :
    (s.dropArriving).answers = s.answers := rfl
@[simp] theorem State.dropArriving_asked (s : State) :
    (s.dropArriving).asked = s.asked := rfl
@[simp] theorem State.dropArriving_admitted (s : State) :
    (s.dropArriving).admitted = s.admitted := rfl
@[simp] theorem State.dropArriving_arriving (s : State) :
    (s.dropArriving).arriving = none := rfl

/-! ### `dropRequest` (R57) -/

@[simp] theorem State.dropRequest_params (k : Nat) (s : State) :
    (s.dropRequest k).params = s.params := rfl
@[simp] theorem State.dropRequest_session (k : Nat) (s : State) :
    (s.dropRequest k).session = s.session := rfl
@[simp] theorem State.dropRequest_clkPin (k : Nat) (s : State) :
    (s.dropRequest k).clkPin = s.clkPin := rfl
@[simp] theorem State.dropRequest_dinPin (k : Nat) (s : State) :
    (s.dropRequest k).dinPin = s.dinPin := rfl
@[simp] theorem State.dropRequest_lineCfg (k : Nat) (s : State) :
    (s.dropRequest k).lineCfg = s.lineCfg := rfl
@[simp] theorem State.dropRequest_lvl (k : Nat) (s : State) :
    (s.dropRequest k).lvl = s.lvl := rfl
@[simp] theorem State.dropRequest_phase (k : Nat) (s : State) :
    (s.dropRequest k).phase = s.phase := rfl
@[simp] theorem State.dropRequest_cur (k : Nat) (s : State) :
    (s.dropRequest k).cur = s.cur := rfl
@[simp] theorem State.dropRequest_useq (k : Nat) (s : State) :
    (s.dropRequest k).useq = s.useq := rfl
@[simp] theorem State.dropRequest_mpc (k : Nat) (s : State) :
    (s.dropRequest k).mpc = s.mpc := rfl
@[simp] theorem State.dropRequest_res (k : Nat) (s : State) :
    (s.dropRequest k).res = s.res := rfl
@[simp] theorem State.dropRequest_txFaultSeen (k : Nat) (s : State) :
    (s.dropRequest k).txFaultSeen = s.txFaultSeen := rfl
@[simp] theorem State.dropRequest_cfgFaultSeen (k : Nat) (s : State) :
    (s.dropRequest k).cfgFaultSeen = s.cfgFaultSeen := rfl
@[simp] theorem State.dropRequest_mfault (k : Nat) (s : State) :
    (s.dropRequest k).mfault = s.mfault := rfl
@[simp] theorem State.dropRequest_hist (k : Nat) (s : State) :
    (s.dropRequest k).hist = s.hist := rfl
@[simp] theorem State.dropRequest_obs (k : Nat) (s : State) :
    (s.dropRequest k).obs = s.obs := rfl
@[simp] theorem State.dropRequest_callers (k : Nat) (s : State) :
    (s.dropRequest k).callers = (s.waiting.modify k List.tail).filter (fun c => !c.isEmpty) := rfl
@[simp] theorem State.dropRequest_answers (k : Nat) (s : State) :
    (s.dropRequest k).answers = s.answers := rfl
@[simp] theorem State.dropRequest_asked (k : Nat) (s : State) :
    (s.dropRequest k).asked = s.asked := rfl
@[simp] theorem State.dropRequest_admitted (k : Nat) (s : State) :
    (s.dropRequest k).admitted = if s.waiting.length = 1 then s.admitted else s.admitted + 1 := rfl
@[simp] theorem State.dropRequest_arriving (k : Nat) (s : State) :
    (s.dropRequest k).arriving = s.arriving := rfl

end Sys2Proof.Machine
end

