-- ==== Sys2Proof/Laws/Ops.lean ====
section
/-!
SUPPORT. What each shared operation can do, said once: the pin port's answers, the issue of one
micro-operation, of a list of them on a port that answers `ok`, of a list in general, a request, and
a step.
-/

namespace Sys2Proof.Machine

/-! ### The pin port's answers -/

@[simp] theorem State.portAnswer_eq (s : State) : s.portAnswer = s.answerAt 0 := rfl

/-- Once an answer is taken, the next ones move up. -/
@[simp] theorem State.answerAt_takeAnswer (s : State) (k : Nat) :
    s.takeAnswer.answerAt k = s.answerAt (k + 1) := by
  simp [State.answerAt, Nat.add_assoc, Nat.add_comm 1 k]

/-- The answers to come depend on the two inputs alone. -/
theorem State.answerAt_congr {s t : State} (ha : t.answers = s.answers) (hn : t.asked = s.asked)
    (k : Nat) : t.answerAt k = s.answerAt k := by
  simp only [State.answerAt, ha, hn]

theorem State.CleanFor.mono {m n : Nat} {s : State} (h : s.CleanFor n) (hmn : m ≤ n) :
    s.CleanFor m := fun k hk => h k (by omega)

/-! ### Micro-operations that complete -/

/-- How many pin-port answers a micro-operation takes: one, but for a `WAIT`. -/
def MicroOp.uses : MicroOp → Nat
  | .cfg _ => 1
  | .set _ _ => 1
  | .wait _ => 0

/-- How many pin-port answers a micro-sequence takes. -/
def usesOf (ms : List MicroOp) : Nat := (ms.map MicroOp.uses).sum

@[simp] theorem usesOf_nil : usesOf [] = 0 := rfl
@[simp] theorem usesOf_cons (m : MicroOp) (ms : List MicroOp) :
    usesOf (m :: ms) = m.uses + usesOf ms := by simp [usesOf]
@[simp] theorem usesOf_append (ms ns : List MicroOp) : usesOf (ms ++ ns) = usesOf ms + usesOf ns := by
  simp [usesOf]

/-- The event of a micro-operation that completes. -/
def eventOf (pc pd : Pin) : MicroOp → Event
  | .cfg l => .cfg l (pinOfLine pc pd l) .ok
  | .set l lv => .set l (pinOfLine pc pd l) lv .ok
  | .wait n => .wait n

theorem eventsOf_eq_map (pc pd : Pin) (ms : List MicroOp) :
    eventsOf pc pd ms = ms.map (eventOf pc pd) := by
  induction ms with
  | nil => rfl
  | cons m ms ih => cases m <;> simp [eventsOf, eventOf, ih]

theorem levelsAfter_append (ms ns : List MicroOp) (p : PerLine KLevel) :
    levelsAfter (ms ++ ns) p = levelsAfter ns (levelsAfter ms p) := by
  induction ms generalizing p with
  | nil => rfl
  | cons m ms ih => cases m <;> exact ih _

theorem cfgsAfter_append (ms ns : List MicroOp) (p : PerLine KCfg) :
    cfgsAfter (ms ++ ns) p = cfgsAfter ns (cfgsAfter ms p) := by
  induction ms generalizing p with
  | nil => rfl
  | cons m ms ih => cases m <;> exact ih _

/-- The state after one micro-operation that completes on the pins `pc` and `pd` (R91 to R93). -/
def State.completed (pc pd : Pin) (s : State) (m : MicroOp) : State :=
  match m with
  | .cfg l => ((s.takeAnswer.emit (eventOf pc pd m)).setCfg l .yes).advance
  | .set l lv => ((s.takeAnswer.emit (eventOf pc pd m)).setLvl l lv.known).advance
  | .wait _ => (s.emit (eventOf pc pd m)).advance

/-- The state after a list of micro-operations that all complete. -/
def State.completedAll (pc pd : Pin) (ms : List MicroOp) (s : State) : State :=
  ms.foldl (State.completed pc pd) s

theorem State.completedAll_cons (pc pd : Pin) (m : MicroOp) (ms : List MicroOp) (s : State) :
    s.completedAll pc pd (m :: ms) = (s.completed pc pd m).completedAll pc pd ms := rfl

theorem State.completedAll_append (pc pd : Pin) (ms ns : List MicroOp) (s : State) :
    s.completedAll pc pd (ms ++ ns) = (s.completedAll pc pd ms).completedAll pc pd ns := by
  simp [State.completedAll, List.foldl_append]

/-- Everything a list of completing micro-operations does, field by field. -/
structure State.Completed (pc pd : Pin) (ms : List MicroOp) (s t : State) : Prop where
  params : t.params = s.params
  session : t.session = s.session
  clkPin : t.clkPin = s.clkPin
  dinPin : t.dinPin = s.dinPin
  lineCfg : t.lineCfg = cfgsAfter ms s.lineCfg
  lvl : t.lvl = levelsAfter ms s.lvl
  phase : t.phase = s.phase
  cur : t.cur = s.cur
  useq : t.useq = s.useq
  mpc : t.mpc = if s.phase = .run then s.mpc + ms.length else s.mpc
  res : t.res = s.res
  txFaultSeen : t.txFaultSeen = s.txFaultSeen
  cfgFaultSeen : t.cfgFaultSeen = s.cfgFaultSeen
  mfault : t.mfault = s.mfault
  hist : t.hist = s.hist ++ eventsOf pc pd ms
  obs : t.obs = (eventsOf pc pd ms).foldl (fun o e => o.see s.params e) s.obs
  callers : t.callers = s.callers
  answers : t.answers = s.answers.drop (usesOf ms)
  asked : t.asked = s.asked + usesOf ms
  admitted : t.admitted = s.admitted
  arriving : t.arriving = s.arriving

theorem State.completedAll_spec (pc pd : Pin) (ms : List MicroOp) (s : State) :
    State.Completed pc pd ms s (s.completedAll pc pd ms) := by
  induction ms generalizing s with
  | nil => constructor <;> simp [State.completedAll, cfgsAfter, levelsAfter, eventsOf]
  | cons m ms ih =>
    have h := ih (s.completed pc pd m)
    rw [State.completedAll_cons]
    cases m <;> constructor <;>
      first
        | exact h.params | exact h.session | exact h.clkPin | exact h.dinPin | exact h.lineCfg
        | exact h.lvl | exact h.phase | exact h.cur | exact h.useq | exact h.res
        | exact h.txFaultSeen | exact h.cfgFaultSeen | exact h.mfault | exact h.callers
        | exact h.admitted | exact h.arriving | exact h.obs
        | (have := h.hist; simpa [State.completed, eventsOf, eventOf] using this)
        | (rw [h.mpc]
           by_cases hr : s.phase = .run <;>
             simp [State.completed, hr, Nat.add_assoc, Nat.add_comm 1])
        | (rw [h.answers, usesOf_cons, Nat.add_comm]
           simp [State.completed, MicroOp.uses])
        | (rw [h.asked, usesOf_cons]
           simp [State.completed, MicroOp.uses, Nat.add_assoc])

theorem State.Completed.answerAt {pc pd : Pin} {ms : List MicroOp} {s t : State}
    (h : State.Completed pc pd ms s t) (k : Nat) : t.answerAt k = s.answerAt (usesOf ms + k) := by
  simp only [State.answerAt, h.answers, h.asked, List.getElem?_drop, Nat.add_assoc]

theorem State.pinOf_eq {pc pd : Pin} {s : State} (hc : s.clkPin = some pc)
    (hd : s.dinPin = some pd) (l : Line) : s.pinOf l = some (pinOfLine pc pd l) := by
  cases l <;> assumption

/-- A micro-operation completes if its request is answered `ok`; a `WAIT` always does (R91 to
R93). -/
theorem State.issue_completes {pc pd : Pin} {s : State} (hc : s.clkPin = some pc)
    (hd : s.dinPin = some pd) (m : MicroOp) (h : s.CleanFor m.uses) :
    s.issue m = .completed (s.completed pc pd m) := by
  have hp := State.pinOf_eq hc hd
  cases m with
  | cfg l =>
    have h0 : s.answerAt 0 = .ok := h 0 Nat.one_pos
    simp [State.issue, State.issueCfg, hp, h0, State.completed, eventOf]
  | set l lv =>
    have h0 : s.answerAt 0 = .ok := h 0 Nat.one_pos
    simp [State.issue, State.issueSet, hp, h0, State.completed, eventOf]
  | wait n => rfl

theorem State.completed_pins (pc pd : Pin) (s : State) (m : MicroOp) :
    (s.completed pc pd m).clkPin = s.clkPin ∧ (s.completed pc pd m).dinPin = s.dinPin := by
  cases m <;> exact ⟨rfl, rfl⟩

theorem State.completed_clean {pc pd : Pin} {s : State} {m : MicroOp} {n : Nat}
    (h : s.CleanFor (m.uses + n)) : (s.completed pc pd m).CleanFor n := by
  intro k hk
  have := (State.completedAll_spec pc pd [m] s).answerAt k
  simp only [usesOf_cons, usesOf_nil, Nat.add_zero] at this
  exact this.trans (h _ (by omega))

/-- On a port that answers `ok` to the requests of `ms`, issuing `ms ++ ns` is issuing `ns` after all
of `ms` has completed. -/
theorem State.issueAll_append {pc pd : Pin} {s : State} (hc : s.clkPin = some pc)
    (hd : s.dinPin = some pd) (ms ns : List MicroOp) (h : s.CleanFor (usesOf ms)) :
    s.issueAll (ms ++ ns) = (s.completedAll pc pd ms).issueAll ns := by
  induction ms generalizing s with
  | nil => rfl
  | cons m ms ih =>
    rw [usesOf_cons] at h
    obtain ⟨hc', hd'⟩ := State.completed_pins pc pd s m
    rw [List.cons_append, State.issueAll,
      State.issue_completes hc hd m (h.mono (Nat.le_add_right _ _)), State.completedAll_cons]
    exact ih (hc'.trans hc) (hd'.trans hd) (State.completed_clean h)

/-- On a port that answers `ok`, a list of micro-operations completes, then the end of the operation
is checked (R89). -/
theorem State.issueAll_completes {pc pd : Pin} {s : State} (hc : s.clkPin = some pc)
    (hd : s.dinPin = some pd) (ms : List MicroOp) (h : s.CleanFor (usesOf ms)) :
    s.issueAll ms = (s.completedAll pc pd ms).finish := by
  simpa [State.issueAll] using State.issueAll_append hc hd ms [] h

/-- Where a framing primitive may be issued, it is. -/
theorem State.framing_issues {pc pd : Pin} {s : State} (h : s.IssuesOn pc pd)
    (ms : List MicroOp) : s.framing ms = s.issueAll ms := by
  obtain ⟨hf, hp, -, -⟩ := h
  unfold State.framing
  rw [if_pos hf]
  rcases hp with hp | hp
  · rw [hp]
  · rw [hp]; cases s.phase <;> rfl

theorem State.framing_completes {pc pd : Pin} {s : State} (h : s.IssuesOn pc pd)
    (ms : List MicroOp) (hc : s.CleanFor (usesOf ms)) :
    s.framing ms = (s.completedAll pc pd ms).finish := by
  rw [State.framing_issues h, State.issueAll_completes h.2.2.1 h.2.2.2 ms hc]

/-! ### Everything a micro-operation or framing primitive can do -/

/-- The endings of one micro-operation (R89, R91 to R95, R188): it completes; the port never answers;
its line is unbound; or the port answers `err(e)` and the operation ends with the error of R94. -/
theorem State.issue_cases (s : State) (m : MicroOp) :
    (∃ pc pd, s.issue m = .completed (s.completed pc pd m)) ∨
    s.issue m = .stopped s ∨
    s.issue m = .stopped (s.modelFault .notReady) ∨
    (∃ l pin e, m = .cfg l ∧ s.issue m = .stopped
      ((((s.takeAnswer.emit (.cfg l pin (.err e))).setCfg l .x).setLvl l .x).abort l none e)) ∨
    (∃ l lv pin e, m = .set l lv ∧ s.issue m = .stopped
      (((s.takeAnswer.emit (.set l pin lv (.err e))).setLvl l .x).abort l (some lv) e)) := by
  cases m with
  | cfg l =>
    simp only [State.issue, State.issueCfg]
    split
    · exact .inr (.inr (.inl rfl))
    · rename_i pin _
      split
      · exact .inr (.inl rfl)
      · exact .inl ⟨pin, pin, by cases l <;> rfl⟩
      · rename_i e _
        exact .inr (.inr (.inr (.inl ⟨l, pin, e, rfl, rfl⟩)))
  | set l lv =>
    simp only [State.issue, State.issueSet]
    split
    · exact .inr (.inr (.inl rfl))
    · rename_i pin _
      split
      · exact .inr (.inl rfl)
      · exact .inl ⟨pin, pin, by cases l <;> rfl⟩
      · rename_i e _
        exact .inr (.inr (.inr (.inr ⟨l, lv, pin, e, rfl, rfl⟩)))
  | wait n => exact .inl ⟨⟨0⟩, ⟨0⟩, rfl⟩

/-- The state a micro-operation leaves, however it ends. -/
def Issued.state : Issued → State
  | .completed s => s
  | .stopped s => s

/-- A property kept by every ending of every micro-operation of a list and by the end of the
operation is kept by the whole list. -/
theorem State.issueAll_keeps (P : State → Prop) (ms : List MicroOp)
    (hm : ∀ m ∈ ms, ∀ s, P s → P (s.issue m).state)
    (hf : ∀ s, P s → P (s.conclude .ok)) (s : State) (h : P s) : P (s.issueAll ms) := by
  induction ms generalizing s with
  | nil =>
    unfold State.issueAll State.finish
    split
    · exact hf s h
    · exact h
  | cons m ms ih =>
    have hs := hm m List.mem_cons_self s h
    unfold State.issueAll
    split
    · rename_i t ht
      rw [ht] at hs
      exact ih (fun n hn => hm n (List.mem_cons_of_mem _ hn)) t hs
    · rename_i t ht
      rw [ht] at hs
      exact hs

/-- The same for a framing primitive as a whole. -/
theorem State.framing_keeps (P : State → Prop) (ms : List MicroOp)
    (hm : ∀ m ∈ ms, ∀ s, P s → P (s.issue m).state)
    (hf : ∀ s, P s → P (s.conclude .ok)) (hx : ∀ s f, s.mfault = none → P s → P (s.modelFault f))
    (s : State) (h : P s) : P (s.framing ms) := by
  unfold State.framing
  split
  · rename_i hn
    split
    · exact State.issueAll_keeps P ms hm hf s h
    · exact State.issueAll_keeps P ms hm hf s h
    · exact hx s _ hn h
    · exact hx s _ hn h
  · exact h

/-! ### Requests -/

/-- Everything a request can do (R144, R176): it waits; it is accepted and its own body runs; or it
is accepted and the session check faults. -/
theorem State.request_cases (op : Op) (body : State → State) (s : State) :
    (¬ (s.phase = .idle ∧ s.mfault = none) ∧ s.request op body = s.hold op) ∨
    (s.phase = .idle ∧ s.mfault = none ∧
      ((s.session ≠ .dead ∧ (s.session = .uninitialized → op.isInit = true) ∧
          s.request op body = body (s.latch op)) ∨
        (s.session = .dead ∧ s.request op body = (s.latch op).modelFault .sessionDead) ∨
        (s.session = .uninitialized ∧ op.isInit = false ∧
          s.request op body = (s.latch op).modelFault .notReady))) := by
  unfold State.request
  split
  · rename_i h
    refine .inr ⟨h.1, h.2, ?_⟩
    unfold State.accept
    split
    · rename_i hs
      exact .inr (.inl ⟨hs, rfl⟩)
    · rename_i hs
      cases hi : op.isInit with
      | true => exact .inl ⟨by simp [hs], fun _ => rfl, by simp⟩
      | false => exact .inr (.inr ⟨hs, rfl, by simp⟩)
    · rename_i hs
      exact .inl ⟨by simp [hs], by simp [hs], rfl⟩
  · rename_i h
    exact .inl ⟨h, rfl⟩

/-- An accepted INITIALIZE (R136): one of its two model faults, or the pins bound and `INIT_SEQ`
loaded. -/
theorem startInit_cases (pc pd : Pin) (s : State) :
    (pc = pd ∧ startInit pc pd s = s.modelFault .pinAlias) ∨
    (pc ≠ pd ∧ s.session = .ready ∧ ¬ (s.clkPin = some pc ∧ s.dinPin = some pd) ∧
      startInit pc pd s = s.modelFault .pinRebind) ∨
    (pc ≠ pd ∧ (s.session = .ready → s.clkPin = some pc ∧ s.dinPin = some pd) ∧
      startInit pc pd s = (s.bind pc pd).load (initSeq s.params.initOrder)) := by
  unfold startInit
  split
  · rename_i h
    exact .inl ⟨h, rfl⟩
  · rename_i h
    split
    · rename_i hr
      refine .inr (.inl ⟨h, hr.1, fun hb => hr.2 ?_, rfl⟩)
      rw [hb.1, hb.2]
    · rename_i hr
      refine .inr (.inr ⟨h, fun hs => ?_, rfl⟩)
      by_contra hb
      exact hr ⟨hs, fun he => hb (by simpa [eq_comm] using he)⟩

/-- An accepted WRITE_DISPLAY_MEMORY (R119, R120). -/
theorem startWrite_cases (bytes : List Byte) (offset : Nat) (s : State) :
    (offset + bytes.length ≤ 16 ∧
      startWrite bytes offset s = s.load (writeSeq s.params bytes offset)) ∨
    (16 < offset + bytes.length ∧
      startWrite bytes offset s = s.conclude (.rangeError offset bytes.length)) := by
  unfold startWrite inRange Config.memSlots
  by_cases h : offset + bytes.length ≤ 16
  · exact .inl ⟨h, by simp [h]⟩
  · exact .inr ⟨by omega, by simp [h]⟩

/-- A property of states kept by holding, by acceptance, by the model faults, by a range error and by
loading a micro-sequence is kept by every host operation. -/
theorem State.hostOp_keeps (P : State → Prop) (op : Op) (s t : State)
    (hh : ∀ s, P s → P (s.hold op)) (hl : ∀ s, P s → P (s.latch op))
    (hx : ∀ s f, P s → s.mfault = none → P (s.modelFault f))
    (hr : ∀ s o l, P s → P (s.conclude (.rangeError o l)))
    (hd : ∀ s ms, P s → P (s.load ms)) (hb : ∀ s pc pd, op = .initSession pc pd → P s → P (s.bind pc pd))
    (h : P s) (he : exec op.toInstr s = .next t) : P t := by
  cases op with
  | initSession pc pd =>
    obtain rfl : s.request (.initSession pc pd) (startInit pc pd) = t := Host.Outcome.next.inj he
    rcases State.request_cases (.initSession pc pd) (startInit pc pd) s with
      ⟨-, e⟩ | ⟨-, hm, ⟨-, -, e⟩ | ⟨-, e⟩ | ⟨-, -, e⟩⟩ <;> rw [e]
    · exact hh s h
    · rcases startInit_cases pc pd (s.latch (.initSession pc pd)) with
        ⟨-, e⟩ | ⟨-, -, -, e⟩ | ⟨-, -, e⟩ <;> rw [e]
      · exact hx _ _ (hl s h) hm
      · exact hx _ _ (hl s h) hm
      · exact hd _ _ (hb _ _ _ rfl (hl s h))
    · exact hx _ _ (hl s h) hm
    · exact hx _ _ (hl s h) hm
  | writeDisplayMemory bytes offset =>
    obtain rfl : s.request (.writeDisplayMemory bytes offset) (startWrite bytes offset) = t :=
      Host.Outcome.next.inj he
    rcases State.request_cases (.writeDisplayMemory bytes offset) (startWrite bytes offset) s with
      ⟨-, e⟩ | ⟨-, hm, ⟨-, -, e⟩ | ⟨-, e⟩ | ⟨-, -, e⟩⟩ <;> rw [e]
    · exact hh s h
    · rcases startWrite_cases bytes offset (s.latch (.writeDisplayMemory bytes offset)) with
        ⟨-, e⟩ | ⟨-, e⟩ <;> rw [e]
      · exact hd _ _ (hl s h)
      · exact hr _ _ _ (hl s h)
    · exact hx _ _ (hl s h) hm
    · exact hx _ _ (hl s h) hm
  | setDisplayControl b =>
    obtain rfl : s.request (.setDisplayControl b) (startControl b) = t := Host.Outcome.next.inj he
    rcases State.request_cases (.setDisplayControl b) (startControl b) s with
      ⟨-, e⟩ | ⟨-, hm, ⟨-, -, e⟩ | ⟨-, e⟩ | ⟨-, -, e⟩⟩ <;> rw [e]
    · exact hh s h
    · exact hd _ _ (hl s h)
    · exact hx _ _ (hl s h) hm
    · exact hx _ _ (hl s h) hm

/-! ### Instructions and steps -/

/-- Every instruction is a host operation, a list of micro-operations issued, or a change of the
device model; and it answers a next state. -/
theorem exec_cases (i : Instr) :
    (∃ op : Op, i = op.toInstr) ∨
    (i.isWireByte = false ∧ ∃ ms, ∀ s, exec i s = .next (s.framing ms)) ∨
    (i.isWireByte = true ∧ ∀ s, exec i s = .next (s.onDevice (Device.take i))) := by
  cases i with
  | initSession pc pd => exact .inl ⟨.initSession pc pd, rfl⟩
  | writeDisplayMemory bytes offset => exact .inl ⟨.writeDisplayMemory bytes offset, rfl⟩
  | setDisplayControl b => exact .inl ⟨.setDisplayControl b, rfl⟩
  | beginTxn => exact .inr (.inl ⟨rfl, _, fun _ => rfl⟩)
  | bit v => exact .inr (.inl ⟨rfl, _, fun _ => rfl⟩)
  | send b => exact .inr (.inl ⟨rfl, _, fun _ => rfl⟩)
  | endTxn => exact .inr (.inl ⟨rfl, _, fun _ => rfl⟩)
  | txn bytes => exact .inr (.inl ⟨rfl, _, fun _ => rfl⟩)
  | cfgLine l => exact .inr (.inl ⟨rfl, _, fun _ => rfl⟩)
  | setLine l lv => exact .inr (.inl ⟨rfl, _, fun _ => rfl⟩)
  | wait n => exact .inr (.inl ⟨rfl, _, fun _ => rfl⟩)
  | dataWrite => exact .inr (.inr ⟨rfl, fun _ => rfl⟩)
  | addressSet a => exact .inr (.inr ⟨rfl, fun _ => rfl⟩)
  | addrByte16 => exact .inr (.inr ⟨rfl, fun _ => rfl⟩)
  | displayOff => exact .inr (.inr ⟨rfl, fun _ => rfl⟩)
  | displayOn st => exact .inr (.inr ⟨rfl, fun _ => rfl⟩)
  | dataByte d => exact .inr (.inr ⟨rfl, fun _ => rfl⟩)

/-- A micro-operation as an instruction is that micro-operation issued. -/
theorem exec_micro (m : MicroOp) (s : State) : exec m.toInstr s = .next (s.framing [m]) := by
  cases m <;> rfl

/-- While no operation is in progress, what a lone byte or a waiting request makes of the state. -/
theorem fetchOutside_cases {s t : State}
    (h : (match s.fetchOutside with
      | .instr i u => exec i u
      | .absorbed u => .next u
      | .nothing => .next s
      | .offEnd => .fault .sequencerOffEnd) = Host.Outcome.next t) :
    (∃ x, s.arriving = some x ∧
      t = s.dropArriving.onDevice (fun d => d.applyByte s.params x)) ∨
    (s.arriving = none ∧ t = s) ∨
    (s.arriving = none ∧ s.mfault = none ∧
      ∃ k op ops, s.waiting[k]? = some (op :: ops) ∧ exec op.toInstr (s.dropRequest k) = .next t) := by
  unfold State.fetchOutside at h
  cases ha : s.arriving with
  | some x =>
    refine .inl ⟨x, rfl, ?_⟩
    simp only [ha, State.fetchByte, decode] at h
    cases hd : decodeByte s.params x.1 x.2 with
    | error e =>
      simp only [hd] at h
      cases h
      simp [Device.applyByte, hd]
    | ok i =>
      simp only [hd] at h
      have hw : i.isWireByte = true := by
        unfold decodeByte decodeControl at hd
        split at hd
        · split at hd
          · cases hd; rfl
          · cases hd; rfl
          · cases hd; rfl
          · cases hd; rfl
          · split at hd <;> cases hd; rfl
        · cases hd; rfl
        · cases hd
      have he : exec i s.dropArriving = .next (s.dropArriving.onDevice (Device.take i)) := by
        cases i <;> first | rfl | cases hw
      rw [he] at h
      cases h
      simp [Device.applyByte, hd]
  | none =>
    simp only [ha] at h
    by_cases hm : s.mfault = none
    · simp only [hm, ↓reduceIte, State.fetchRequest] at h
      cases hw : s.waiting[s.nextCaller]? with
      | none =>
        simp only [hw] at h
        cases h
        exact .inr (.inl ⟨rfl, rfl⟩)
      | some c =>
        cases c with
        | nil =>
          simp only [hw] at h
          cases h
          exact .inr (.inl ⟨rfl, rfl⟩)
        | cons op ops =>
          simp only [hw] at h
          exact .inr (.inr ⟨rfl, hm, _, op, ops, hw, h⟩)
    · simp only [hm, ↓reduceIte] at h
      cases h
      exact .inr (.inl ⟨rfl, rfl⟩)

/-- Everything a step can do (R32, R57, R89): the micro-operation at `mpc` is issued while an operation
is in progress; otherwise a lone byte acts on the device, nothing happens, or a waiting request arrives
at the idle block. -/
theorem step_cases {s t : State} (h : step s = .next t) :
    (s.phase = .run ∧ s.mfault = none ∧ ∃ m, s.useq[s.mpc]? = some m ∧ t = s.framing [m]) ∨
    (¬ (s.phase = .run ∧ s.mfault = none) ∧
      ((∃ x, s.arriving = some x ∧
          t = s.dropArriving.onDevice (fun d => d.applyByte s.params x)) ∨
        (s.arriving = none ∧ t = s) ∨
        (s.arriving = none ∧ s.mfault = none ∧ s.phase = .idle ∧
          ∃ k op ops, s.waiting[k]? = some (op :: ops) ∧
            exec op.toInstr (s.dropRequest k) = .next t))) := by
  unfold step State.fetch at h
  by_cases hr : s.phase = .run ∧ s.mfault = none
  · refine .inl ⟨hr.1, hr.2, ?_⟩
    simp only [hr, and_self, ↓reduceIte, State.fetchMicro] at h
    cases hu : s.useq[s.mpc]? with
    | none => simp only [hu] at h; cases h
    | some m =>
      simp only [hu, exec_micro] at h
      cases h
      exact ⟨m, rfl, rfl⟩
  · refine .inr ⟨hr, ?_⟩
    rw [if_neg hr] at h
    rcases fetchOutside_cases h with hx | hx | ⟨ha, hm, hx⟩
    · exact .inl hx
    · exact .inr (.inl hx)
    · refine .inr (.inr ⟨ha, hm, ?_, hx⟩)
      cases hp : s.phase with
      | idle => rfl
      | run => exact absurd ⟨hp, hm⟩ hr

end Sys2Proof.Machine
end

