-- ==== Sys2Proof/Laws/Framing.lean ====
section
/-!
SUPPORT. Micro-sequences: counts, events and levels of a list put together from parts, and of the
bytes of a transaction; and what a list of micro-operations that all complete leaves (R89, R166).
-/

namespace Sys2Proof.Machine

/-! ### Counts -/

theorem setCount_append (ms ns : List MicroOp) :
    setCount (ms ++ ns) = setCount ms + setCount ns := by
  induction ms with
  | nil => simp [setCount]
  | cons m ms ih => cases m <;> (simp [setCount, ih]; try omega)

theorem waitCount_append (ms ns : List MicroOp) :
    waitCount (ms ++ ns) = waitCount ms + waitCount ns := by
  induction ms with
  | nil => simp [waitCount]
  | cons m ms ih => cases m <;> (simp [waitCount, ih]; try omega)

theorem cfgCount_append (ms ns : List MicroOp) :
    cfgCount (ms ++ ns) = cfgCount ms + cfgCount ns := by
  induction ms with
  | nil => simp [cfgCount]
  | cons m ms ih => cases m <;> (simp [cfgCount, ih]; try omega)

theorem waitUnits_append (ms ns : List MicroOp) :
    waitUnits (ms ++ ns) = waitUnits ms + waitUnits ns := by
  induction ms with
  | nil => simp [waitUnits]
  | cons m ms ih => cases m <;> (simp [waitUnits, ih]; try omega)

/-- Pin-port answers are taken by `CFG` and `SET` alone (R90). -/
theorem usesOf_eq (ms : List MicroOp) : usesOf ms = cfgCount ms + setCount ms := by
  induction ms with
  | nil => rfl
  | cons m ms ih => cases m <;> simp [setCount, cfgCount, MicroOp.uses, ih] <;> omega

/-- A byte is 48 micro-operations (R99). -/
theorem Framing.sendSeq_length (b : Byte) : (Framing.sendSeq b).length = 48 := rfl

theorem Framing.bytes_length (bs : List Byte) :
    (bs.flatMap Framing.sendSeq).length = 48 * bs.length := by
  induction bs with
  | nil => rfl
  | cons b bs ih =>
    rw [List.flatMap_cons, List.length_append, ih, Framing.sendSeq_length, List.length_cons]
    omega

theorem Framing.bytes_setCount (bs : List Byte) :
    setCount (bs.flatMap Framing.sendSeq) = 24 * bs.length := by
  induction bs with
  | nil => rfl
  | cons b bs ih =>
    rw [List.flatMap_cons, setCount_append, ih, List.length_cons,
      show setCount (Framing.sendSeq b) = 24 from rfl]
    omega

theorem Framing.bytes_cfgCount (bs : List Byte) : cfgCount (bs.flatMap Framing.sendSeq) = 0 := by
  induction bs with
  | nil => rfl
  | cons b bs ih =>
    rw [List.flatMap_cons, cfgCount_append, ih, show cfgCount (Framing.sendSeq b) = 0 from rfl]

/-- A byte takes 24 pin-port answers, one per `SET` (R90, R99). -/
theorem Framing.sendSeq_usesOf (b : Byte) : usesOf (Framing.sendSeq b) = 24 := by
  rw [usesOf_eq, show cfgCount (Framing.sendSeq b) = 0 from rfl,
    show setCount (Framing.sendSeq b) = 24 from rfl]

/-- A transaction takes one pin-port answer per `SET` (R90, R102). -/
theorem Framing.txnSeq_usesOf (bs : List Byte) :
    usesOf (Framing.txnSeq bs) = 5 + 24 * bs.length := by
  rw [usesOf_eq, Framing.txnSeq, cfgCount_append, cfgCount_append, setCount_append,
    setCount_append, Framing.bytes_cfgCount, Framing.bytes_setCount,
    show setCount Framing.beginSeq = 2 from rfl, show setCount Framing.endSeq = 3 from rfl,
    show cfgCount Framing.beginSeq = 0 from rfl, show cfgCount Framing.endSeq = 0 from rfl]
  omega

/-! ### A `SET`, then a `WAIT`, and so on -/

/-- Every `SET` is followed by one `WAIT`, and there is nothing else (R197, R198). -/
def Framing.Alternates : List MicroOp → Prop
  | [] => True
  | .set _ _ :: .wait _ :: ms => Framing.Alternates ms
  | _ => False

theorem Framing.Alternates.append : ∀ {ms ns : List MicroOp},
    Framing.Alternates ms → Framing.Alternates ns → Framing.Alternates (ms ++ ns)
  | [], _, _, h => h
  | .set _ _ :: .wait _ :: ms, _, h, h' => Framing.Alternates.append (ms := ms) h h'

theorem Framing.bytes_alternate (bs : List Byte) :
    Framing.Alternates (bs.flatMap Framing.sendSeq) := by
  induction bs with
  | nil => trivial
  | cons b bs ih =>
    rw [List.flatMap_cons]
    exact .append (by simp [Framing.sendSeq, Byte.wireBits, Framing.bitSeq, Framing.Alternates]) ih

theorem Framing.txnSeq_alternates (bs : List Byte) : Framing.Alternates (Framing.txnSeq bs) :=
  .append (.append (ms := Framing.beginSeq) trivial (Framing.bytes_alternate bs))
    (ns := Framing.endSeq) trivial

/-- The first `2 n` micro-operations take `n` answers. -/
theorem Framing.Alternates.usesOf_take : ∀ {ms : List MicroOp} {n : Nat},
    Framing.Alternates ms → 2 * n ≤ ms.length → usesOf (ms.take (2 * n)) = n
  | _, 0, _, _ => rfl
  | .set _ _ :: .wait _ :: ms, n + 1, h, hl => by
    have e : 2 * (n + 1) = 2 * n + 1 + 1 := by omega
    rw [e, List.take_succ_cons, List.take_succ_cons, usesOf_cons, usesOf_cons,
      Framing.Alternates.usesOf_take (ms := ms) h (by simp at hl; omega)]
    simp [MicroOp.uses]
    omega
  | [], n + 1, _, h => by simp at h

/-- Nothing in it configures a line. -/
theorem Framing.Alternates.cfgsAfter_take : ∀ {ms : List MicroOp} (n : Nat) (p : PerLine KCfg),
    Framing.Alternates ms → cfgsAfter (ms.take (2 * n)) p = p
  | _, 0, _, _ => rfl
  | .set _ _ :: .wait _ :: ms, n + 1, p, h => by
    have e : 2 * (n + 1) = 2 * n + 1 + 1 := by omega
    rw [e, List.take_succ_cons, List.take_succ_cons]
    exact Framing.Alternates.cfgsAfter_take (ms := ms) n p h
  | [], n + 1, _, _ => by simp [cfgsAfter]

/-! ### Events, levels and configuration records -/

theorem eventsOf_append (pc pd : Pin) (ms ns : List MicroOp) :
    eventsOf pc pd (ms ++ ns) = eventsOf pc pd ms ++ eventsOf pc pd ns := by
  simp [eventsOf_eq_map]

theorem Framing.sendSeq_events (pc pd : Pin) (b : Byte) :
    eventsOf pc pd (Framing.sendSeq b) = byteEvents pc pd b := by
  simp [Framing.sendSeq, Byte.wireBits, Byte.bitLevel, byteEvents, List.range, List.range.loop,
    eventsOf, Framing.bitSeq, bitEvents, pinOfLine, Config.tSetup, Config.tHigh, Config.tLow]

theorem Framing.bytes_events (pc pd : Pin) (bs : List Byte) :
    eventsOf pc pd (bs.flatMap Framing.sendSeq) = bs.flatMap (byteEvents pc pd) := by
  induction bs with
  | nil => rfl
  | cons b bs ih =>
    rw [List.flatMap_cons, eventsOf_append, ih, Framing.sendSeq_events, List.flatMap_cons]

/-- The events of a transaction are those of its parts (R102). -/
theorem Framing.txnSeq_events (pc pd : Pin) (bs : List Byte) :
    eventsOf pc pd (Framing.txnSeq bs) = txnEvents pc pd bs := by
  rw [Framing.txnSeq, eventsOf_append, eventsOf_append, Framing.bytes_events]
  rfl

/-- A byte leaves CLOCK low and DATA at its last bit (R99). -/
theorem Framing.sendSeq_levels (b : Byte) (p : PerLine KLevel) :
    levelsAfter (Framing.sendSeq b) p = { clk := .low, din := (Byte.bitLevel b 7).known } := rfl

/-- A transaction leaves both lines at the idle level, whatever they were (R101, R110). -/
theorem Framing.txnSeq_levels (bs : List Byte) (p : PerLine KLevel) :
    levelsAfter (Framing.txnSeq bs) p = idleHigh := by
  rw [Framing.txnSeq, levelsAfter_append]
  rfl

theorem Framing.bytes_cfgs (bs : List Byte) (p : PerLine KCfg) :
    cfgsAfter (bs.flatMap Framing.sendSeq) p = p := by
  induction bs with
  | nil => rfl
  | cons b bs ih => rw [List.flatMap_cons, cfgsAfter_append]; exact ih

/-- A transaction configures nothing (R103). -/
theorem Framing.txnSeq_cfgs (bs : List Byte) (p : PerLine KCfg) :
    cfgsAfter (Framing.txnSeq bs) p = p := by
  rw [Framing.txnSeq, cfgsAfter_append, cfgsAfter_append, Framing.bytes_cfgs]
  rfl

/-! ### The end of a list that completes -/

theorem State.finish_run {s : State} (hp : s.phase = .run) (h : s.useq.length ≤ s.mpc) :
    s.finish = s.conclude .ok := if_pos ⟨hp, h⟩

theorem State.finish_on {s : State} (h : ¬ (s.phase = .run ∧ s.useq.length ≤ s.mpc)) :
    s.finish = s := if_neg h

/-- A list of micro-operations that all complete, with the check for the end of the operation, in
the terms of the statements. -/
theorem State.completedTo {pc pd : Pin} {s : State} (ms : List MicroOp) {n u : Nat}
    {evs : List Event} {lv : PerLine KLevel} {lc : PerLine KCfg}
    (hn : ms.length = n) (hu : usesOf ms = u) (he : eventsOf pc pd ms = evs)
    (hl : levelsAfter ms s.lvl = lv) (hc : cfgsAfter ms s.lineCfg = lc) :
    s.CompletedTo n u evs lv lc (s.completedAll pc pd ms).finish := by
  subst hn hu he hl hc
  have h := State.completedAll_spec pc pd ms s
  generalize s.completedAll pc pd ms = t at h
  have hend : (t.phase = .run ∧ t.useq.length ≤ t.mpc) ↔ s.EndsWithin ms.length := by
    rw [h.phase, h.useq, h.mpc]
    constructor
    · rintro ⟨a, b⟩
      rw [if_pos a] at b
      exact ⟨a, b⟩
    · rintro ⟨a, b⟩
      rw [if_pos a]
      exact ⟨a, b⟩
  by_cases hE : s.EndsWithin ms.length
  · rw [State.finish_run (hend.2 hE).1 (hend.2 hE).2]
    refine ⟨by simp [h.lvl], by simp [h.lineCfg], by simp [h.answers], by simp [h.asked],
      fun _ => ⟨by simp [h.hist], by simp, by simp, by simp, by simp, by simp, ?_, ?_⟩,
      fun x => absurd hE x, by simp [h.params], by simp [h.clkPin], by simp [h.dinPin],
      by simp [h.txFaultSeen, txMark], by simp [h.cfgFaultSeen, cfgMark], by simp [h.mfault],
      by simp [h.callers], by simp [h.admitted],
      by simp [h.arriving]⟩
    · rintro ⟨a, b, hab⟩
      simp [sessionAfter, h.cur, hab, Op.isInit]
    · intro hx
      simp only [State.conclude_session, sessionAfter, h.cur, h.session]
      cases hcur : s.cur with
      | none => rfl
      | some op => cases op with
        | initSession a b => exact absurd ⟨a, b, hcur⟩ hx
        | writeDisplayMemory a b => rfl
        | setDisplayControl a => rfl
  · rw [State.finish_on (fun x => hE (hend.1 x))]
    exact ⟨h.lvl, h.lineCfg, h.answers, h.asked, fun x => absurd x hE,
      fun _ => ⟨h.hist, h.res, h.phase, h.cur, h.useq, h.session, h.mpc⟩, h.params, h.clkPin,
      h.dinPin, h.txFaultSeen, h.cfgFaultSeen, h.mfault, h.callers, h.admitted, h.arriving⟩

end Sys2Proof.Machine
end

