-- ==== Sys2Proof/Laws/PerInstr.lean ====
section
/-!
SUPPORT. Statements about every instruction as syntax, one lemma per constructor. `WireForm`: the
wire byte forms, and no other instruction, have a bit pattern, of one byte (spec/30_encoding.md R65,
R88), and every one of them is an instruction of the table in the sense of WellFormed.
-/

namespace Sys2Proof.Laws.WireForm

/-- The number of bytes of an instruction's encoding, in every configuration (R65, R88). -/
def Statement (i : Instr) : Prop :=
  (∀ c : Cfg, (encode c i).length = if i.isWireByte then 1 else 0) ∧
    (i.isWireByte = true → i.wellFormed = true)

theorem initSession (pc pd : Pin) : Statement (.initSession pc pd) := ⟨fun _ => rfl, fun h => by cases h⟩
theorem writeDisplayMemory (bytes : List Byte) (offset : Nat) : Statement (.writeDisplayMemory bytes offset) := ⟨fun _ => rfl, fun h => by cases h⟩
theorem setDisplayControl (b : Int) : Statement (.setDisplayControl b) := ⟨fun _ => rfl, fun h => by cases h⟩
theorem beginTxn : Statement .beginTxn := ⟨fun _ => rfl, fun h => by cases h⟩
theorem bit (v : Level) : Statement (.bit v) := ⟨fun _ => rfl, fun h => by cases h⟩
theorem send (b : Byte) : Statement (.send b) := ⟨fun _ => rfl, fun h => by cases h⟩
theorem endTxn : Statement .endTxn := ⟨fun _ => rfl, fun h => by cases h⟩
theorem txn (bytes : List Byte) : Statement (.txn bytes) := ⟨fun _ => rfl, fun h => by cases h⟩
theorem cfgLine (l : Line) : Statement (.cfgLine l) := ⟨fun _ => rfl, fun h => by cases h⟩
theorem setLine (l : Line) (lv : Level) : Statement (.setLine l lv) := ⟨fun _ => rfl, fun h => by cases h⟩
theorem wait (n : Nat) : Statement (.wait n) := ⟨fun _ => rfl, fun h => by cases h⟩
theorem dataWrite : Statement .dataWrite := ⟨fun _ => rfl, fun _ => rfl⟩
theorem addressSet (a : BitVec 4) : Statement (.addressSet a) := ⟨fun _ => rfl, fun _ => rfl⟩
theorem addrByte16 : Statement .addrByte16 := ⟨fun _ => rfl, fun _ => rfl⟩
theorem displayOff : Statement .displayOff := ⟨fun _ => rfl, fun _ => rfl⟩
theorem displayOn (st : BitVec 3) : Statement (.displayOn st) := ⟨fun _ => rfl, fun _ => rfl⟩
theorem dataByte (d : Byte) : Statement (.dataByte d) := ⟨fun _ => rfl, fun _ => rfl⟩

end Sys2Proof.Laws.WireForm
end

