-- ==== Sys2Proof/Laws/Wire.lean ====
section
/-!
SUPPORT. What the decoder makes of one bit, of one byte and of a transaction on the wire (R152, R154,
R155).
-/

namespace Sys2Proof.Machine

/-! ### One line driven inside a transaction -/

theorem Observer.drive_data (c : Cfg) (o : Observer) (bits : Byte) (n : Nat) (bs : List Byte)
    (v w : Level) (hw : o.wire = { clk := .low, din := w.known })
    (hd : o.dec = .active bits n bs) :
    o.drive c .din v.known = { o with wire := { clk := .low, din := v.known } } := by
  obtain ⟨wire, inInit, dec, tokens, dev⟩ := o
  simp only at hw hd
  subst hw hd
  cases v <;> cases w <;> rfl

theorem Observer.drive_rise (c : Cfg) (o : Observer) (bits : Byte) (n : Nat) (bs : List Byte)
    (v : Level) (hw : o.wire = { clk := .low, din := v.known }) (hd : o.dec = .active bits n bs) :
    o.drive c .clk .high =
      { (o.sample v bits n bs) with wire := { clk := .high, din := v.known } } := by
  have : edgeOf o.wire .clk .high = some (.clkRise v) := by rw [hw]; cases v <;> rfl
  simp only [Observer.drive, this, Observer.feed, hd]
  unfold Observer.sample
  dsimp only
  split <;> simp [hw, PerLine.set]

theorem Observer.drive_fall (c : Cfg) (o : Observer) (bits : Byte) (n : Nat) (bs : List Byte)
    (v : Level) (hw : o.wire = { clk := .high, din := v.known })
    (hd : o.dec = .active bits n bs) :
    o.drive c .clk .low = { o with wire := { clk := .low, din := v.known } } := by
  obtain ⟨wire, inInit, dec, tokens, dev⟩ := o
  simp only at hw hd
  subst hw hd
  cases v <;> rfl

theorem Observer.sample_dec (v : Level) (bits : Byte) (n : Nat) (bs : List Byte) (o : Observer) :
    ∃ b m l, (o.sample v bits n bs).dec = .active b m l := by
  unfold Observer.sample
  dsimp only
  split <;> exact ⟨_, _, _, rfl⟩

/-! ### One bit and one byte -/

/-- Inside a transaction, with CLOCK low, a bit on the wire is one sample (R98, R154). -/
theorem Observer.see_bit (c : Cfg) (pc pd : Pin) (v : Level) (o : Observer) (bits : Byte) (n : Nat)
    (bs : List Byte) (w : Level) (hw : o.wire = { clk := .low, din := w.known })
    (hd : o.dec = .active bits n bs) :
    (bitEvents pc pd v).foldl (fun o e => o.see c e) o =
      { (o.sample v bits n bs) with wire := { clk := .low, din := v.known } } := by
  obtain ⟨b, m, l, hs⟩ :=
    Observer.sample_dec v bits n bs { o with wire := { clk := .low, din := v.known } }
  simp only [bitEvents, List.foldl_cons, List.foldl_nil, Observer.see,
    show Level.high.known = KLevel.high from rfl, show Level.low.known = KLevel.low from rfl]
  rw [Observer.drive_data c o bits n bs v w hw hd,
    Observer.drive_rise c { o with wire := { clk := .low, din := v.known } } bits n bs v rfl hd]
  refine (Observer.drive_fall c
    { (Observer.sample v bits n bs { o with wire := { clk := .low, din := v.known } }) with
      wire := { clk := .high, din := v.known } } b m l v rfl hs).trans ?_
  unfold Observer.sample
  dsimp only
  split <;> rfl

theorem Observer.see_bit_inner (c : Cfg) (pc pd : Pin) (v : Level) (o : Observer) (bits : Byte)
    (n : Nat) (bs : List Byte) (w : Level) (hw : o.wire = { clk := .low, din := w.known })
    (hd : o.dec = .active bits n bs) (hn : n + 1 ≠ 8) :
    (bitEvents pc pd v).foldl (fun o e => o.see c e) o =
      { o with
        wire := { clk := .low, din := v.known },
        dec := .active (bits ||| (BitVec.ofNat 8 v.toBool.toNat <<< n)) (n + 1) bs } := by
  rw [Observer.see_bit c pc pd v o bits n bs w hw hd]
  simp only [Observer.sample, if_neg hn]

theorem Observer.see_bit_last (c : Cfg) (pc pd : Pin) (v : Level) (o : Observer) (bits : Byte)
    (bs : List Byte) (w : Level) (hw : o.wire = { clk := .low, din := w.known })
    (hd : o.dec = .active bits 7 bs) :
    (bitEvents pc pd v).foldl (fun o e => o.see c e) o =
      { o with
        wire := { clk := .low, din := v.known },
        dec := .active 0#8 0 (bs ++ [bits ||| (BitVec.ofNat 8 v.toBool.toNat <<< 7)]),
        tokens := o.tokens ++ [.byte (bits ||| (BitVec.ofNat 8 v.toBool.toNat <<< 7))] } := by
  rw [Observer.see_bit c pc pd v o bits 7 bs w hw hd]
  rfl

/-- Eight sampled bits, the first at bit 0, are the byte sent (R16, R152). -/
theorem Byte.rebuilt (b : Byte) :
    (0#8 ||| (BitVec.ofNat 8 (Byte.bitLevel b 0).toBool.toNat <<< 0)
      ||| (BitVec.ofNat 8 (Byte.bitLevel b 1).toBool.toNat <<< 1)
      ||| (BitVec.ofNat 8 (Byte.bitLevel b 2).toBool.toNat <<< 2)
      ||| (BitVec.ofNat 8 (Byte.bitLevel b 3).toBool.toNat <<< 3)
      ||| (BitVec.ofNat 8 (Byte.bitLevel b 4).toBool.toNat <<< 4)
      ||| (BitVec.ofNat 8 (Byte.bitLevel b 5).toBool.toNat <<< 5)
      ||| (BitVec.ofNat 8 (Byte.bitLevel b 6).toBool.toNat <<< 6)
      ||| (BitVec.ofNat 8 (Byte.bitLevel b 7).toBool.toNat <<< 7)) = b := by
  revert b
  decide

/-- Inside a transaction, with CLOCK low, a byte on the wire is received as that byte (R99, R155). -/
theorem Observer.see_byte (c : Cfg) (pc pd : Pin) (b : Byte) (o : Observer) (bs : List Byte)
    (w : Level) (hw : o.wire = { clk := .low, din := w.known }) (hd : o.dec = .active 0#8 0 bs) :
    (byteEvents pc pd b).foldl (fun o e => o.see c e) o =
      { o with
        wire := { clk := .low, din := (Byte.bitLevel b 7).known },
        dec := .active 0#8 0 (bs ++ [b]), tokens := o.tokens ++ [.byte b] } := by
  have hr := Byte.rebuilt b
  rw [byteEvents, show List.range 8 = [0, 1, 2, 3, 4, 5, 6, 7] from rfl]
  show List.foldl _ _ (List.flatMap (fun i => bitEvents pc pd (Byte.bitLevel b i)) _) = _
  simp only [List.flatMap_cons, List.flatMap_nil, List.foldl_append, List.foldl_nil]
  generalize Byte.bitLevel b 0 = v0 at *
  generalize Byte.bitLevel b 1 = v1 at *
  generalize Byte.bitLevel b 2 = v2 at *
  generalize Byte.bitLevel b 3 = v3 at *
  generalize Byte.bitLevel b 4 = v4 at *
  generalize Byte.bitLevel b 5 = v5 at *
  generalize Byte.bitLevel b 6 = v6 at *
  generalize Byte.bitLevel b 7 = v7 at *
  rw [Observer.see_bit_inner c pc pd v0 o _ _ _ w hw hd (by decide),
    Observer.see_bit_inner c pc pd v1 _ _ _ _ v0 rfl rfl (by decide),
    Observer.see_bit_inner c pc pd v2 _ _ _ _ v1 rfl rfl (by decide),
    Observer.see_bit_inner c pc pd v3 _ _ _ _ v2 rfl rfl (by decide),
    Observer.see_bit_inner c pc pd v4 _ _ _ _ v3 rfl rfl (by decide),
    Observer.see_bit_inner c pc pd v5 _ _ _ _ v4 rfl rfl (by decide),
    Observer.see_bit_inner c pc pd v6 _ _ _ _ v5 rfl rfl (by decide),
    Observer.see_bit_last c pc pd v7 _ _ _ v6 rfl rfl]
  simp only [Nat.reduceAdd, hr]

/-- A list of bytes on the wire is received in order; CLOCK is left low. -/
theorem Observer.see_bytes (c : Cfg) (pc pd : Pin) (bytes : List Byte) (o : Observer)
    (bs : List Byte) (w : Level) (hw : o.wire = { clk := .low, din := w.known })
    (hd : o.dec = .active 0#8 0 bs) :
    ∃ w' : Level, (bytes.flatMap (byteEvents pc pd)).foldl (fun o e => o.see c e) o =
      { o with
        wire := { clk := .low, din := w'.known }, dec := .active 0#8 0 (bs ++ bytes),
        tokens := o.tokens ++ bytes.map .byte } := by
  induction bytes generalizing o bs w with
  | nil => exact ⟨w, by simp [← hw, ← hd]⟩
  | cons b bytes ih =>
    rw [List.flatMap_cons, List.foldl_append, Observer.see_byte c pc pd b o bs w hw hd]
    obtain ⟨w', h⟩ := ih { o with
      wire := { clk := .low, din := (Byte.bitLevel b 7).known },
      dec := .active 0#8 0 (bs ++ [b]), tokens := o.tokens ++ [.byte b] } (bs ++ [b]) _ rfl rfl
    exact ⟨w', by rw [h]; simp⟩

/-- A transaction on an idle-high wire, from IDLE, is received whole and applied at its STOP (R155,
R158). -/
theorem Observer.see_txn (c : Cfg) (pc pd : Pin) (bytes : List Byte) (o : Observer)
    (hd : o.dec = .idle) (hw : o.wire = idleHigh) :
    (txnEvents pc pd bytes).foldl (fun o e => o.see c e) o =
      { o with
        tokens := o.tokens ++ [.start] ++ bytes.map .byte ++ [.stop bytes],
        dev := o.dev.applyBytes c bytes } := by
  rw [txnEvents, List.foldl_append, List.foldl_append]
  have h1 : (beginEvents pc pd).foldl (fun o e => o.see c e) o =
      { o with
        wire := { clk := .low, din := .low }, dec := .active 0#8 0 [],
        tokens := o.tokens ++ [.start] } := by
    obtain ⟨wire, inInit, dec, tokens, dev⟩ := o
    simp only at hw hd
    subst hw hd
    rfl
  rw [h1]
  obtain ⟨w', h2⟩ := Observer.see_bytes c pc pd bytes
    { o with
      wire := { clk := .low, din := .low }, dec := .active 0#8 0 [],
      tokens := o.tokens ++ [.start] } [] .low rfl rfl
  rw [h2]
  obtain ⟨wire, inInit, dec, tokens, dev⟩ := o
  simp only at hw hd
  subst hw hd
  cases w' <;> rfl

/-- Outside PRE the end of an operation changes nothing (R152). -/
theorem Observer.see_done (c : Cfg) (r : Result) (o : Observer) (h : o.dec ≠ .pre) :
    o.see c (.done r) = o := by simp [Observer.see, h]

end Sys2Proof.Machine
end

