-- ==== Sys2Proof/Laws/Step.lean ====
section
/-!
SUPPORT. Runs of steps: the micro-sequence of an operation that completes.
-/

namespace Sys2Proof.Machine

theorem State.Reaches.refl (s : State) : s.Reaches 0 s := rfl

theorem State.Reaches.head {n : Nat} {s t u : State} (h : step s = .next t) (h' : t.Reaches n u) :
    s.Reaches (n + 1) u := by
  have hs : Sys2Proof.core.step s = .next t := h
  simp only [State.Reaches, Host.Core.run, hs]
  exact h'

theorem State.Reaches.one {s t : State} (h : step s = .next t) : s.Reaches 1 t :=
  State.Reaches.head h (State.Reaches.refl t)

theorem State.Reaches.trans {m n : Nat} {s t u : State} (h : s.Reaches m t) (h' : t.Reaches n u) :
    s.Reaches (m + n) u := by
  induction m generalizing s with
  | zero =>
    cases (h : Host.Outcome.next s = .next t)
    rw [Nat.zero_add]
    exact h'
  | succ m ih =>
    simp only [State.Reaches, Host.Core.run] at h
    split at h
    · rename_i s' hs
      rw [show m + 1 + n = m + n + 1 by omega]
      exact State.Reaches.head hs (ih h)
    · cases h
    · cases h

/-- An operation in progress issues the micro-operation at `mpc` (R89). -/
theorem step_micro {s : State} {m : MicroOp} (hm : s.mfault = none) (hp : s.phase = .run)
    (hu : s.useq[s.mpc]? = some m) : step s = .next (s.framing [m]) := by
  simp only [step, State.fetch, hm, hp, and_self, ↓reduceIte, State.fetchMicro, hu, exec_micro]

theorem State.framing_one {pc pd : Pin} {s : State} (hi : s.IssuesOn pc pd) (m : MicroOp)
    (hc : s.CleanFor m.uses) : s.framing [m] = (s.completed pc pd m).finish := by
  rw [State.framing_completes hi [m] (by simpa using hc)]
  rfl

/-- Completing one micro-operation keeps the sequencer on the rest of the sequence. -/
theorem State.completed_run {pc pd : Pin} {s : State} (hi : s.IssuesOn pc pd) (hp : s.phase = .run)
    (m : MicroOp) (ms : List MicroOp) (hd : s.useq.drop s.mpc = m :: ms) :
    (s.completed pc pd m).IssuesOn pc pd ∧ (s.completed pc pd m).phase = .run ∧
      (s.completed pc pd m).useq.drop (s.completed pc pd m).mpc = ms ∧
      (s.completed pc pd m).obs = s.obs.see s.params (eventOf pc pd m) ∧
      (s.completed pc pd m).params = s.params := by
  have h := State.completedAll_spec pc pd [m] s
  have hph := h.phase.trans hp
  have hmpc : (s.completed pc pd m).mpc = s.mpc + 1 := by
    have := h.mpc
    rwa [if_pos hp] at this
  have hus : (s.completed pc pd m).useq = s.useq := h.useq
  refine ⟨⟨h.mfault.trans hi.1, .inl hph, h.clkPin.trans hi.2.2.1, h.dinPin.trans hi.2.2.2⟩, hph,
    ?_, by cases m <;> rfl, h.params⟩
  rw [hmpc, hus, ← List.drop_drop, hd]
  rfl

/-- A micro-sequence, with more of the operation to come, completes in one step per micro-operation on
a port that answers `ok` (R89). -/
theorem State.reaches_completedAll {pc pd : Pin} {s : State} (hi : s.IssuesOn pc pd)
    (hp : s.phase = .run) (ms ns : List MicroOp) (hd : s.useq.drop s.mpc = ms ++ ns) (hn : ns ≠ [])
    (hc : s.CleanFor (usesOf ms)) : s.Reaches ms.length (s.completedAll pc pd ms) := by
  induction ms generalizing s with
  | nil => exact State.Reaches.refl s
  | cons m ms ih =>
    rw [usesOf_cons] at hc
    obtain ⟨hi', hp', hd', -, -⟩ := State.completed_run hi hp m (ms ++ ns) hd
    have hget : s.useq[s.mpc]? = some m := by
      have := congrArg List.head? hd
      simpa [List.head?_drop] using this
    have hst := step_micro hi.1 hp hget
    rw [State.framing_one hi m (hc.mono (Nat.le_add_right _ _)), State.finish_on] at hst
    · exact State.Reaches.head hst (ih hi' hp' hd' (State.completed_clean hc))
    · rintro ⟨-, hle⟩
      have := List.drop_eq_nil_of_le hle
      rw [hd'] at this
      exact hn (List.append_eq_nil_iff.1 this).2

/-- The step that issues the last micro-operation of the operation ends it (R89, R166). -/
theorem State.reaches_last {pc pd : Pin} {s : State} (hi : s.IssuesOn pc pd) (hp : s.phase = .run)
    (m : MicroOp) (hd : s.useq.drop s.mpc = [m]) (hc : s.CleanFor m.uses) :
    s.Reaches 1 ((s.completed pc pd m).conclude .ok) := by
  obtain ⟨-, hp', hd', -⟩ := State.completed_run hi hp m [] hd
  have hget : s.useq[s.mpc]? = some m := by
    have := congrArg List.head? hd
    simpa [List.head?_drop] using this
  have hst := step_micro hi.1 hp hget
  rw [State.framing_one hi m hc, State.finish_run hp' (List.drop_eq_nil_iff.1 hd')] at hst
  exact State.Reaches.one hst

/-- The rest of an operation's micro-sequence completes in one step per micro-operation on a port that
answers `ok`, and the operation ends `OK` with the last (R89, R166). -/
theorem State.reaches_ok {pc pd : Pin} {s : State} (hi : s.IssuesOn pc pd) (hp : s.phase = .run)
    (ms : List MicroOp) (hd : s.useq.drop s.mpc = ms) (hn : ms ≠ []) (hc : s.CleanFor (usesOf ms)) :
    s.Reaches ms.length ((s.completedAll pc pd ms).conclude .ok) := by
  obtain ⟨ms, m, rfl⟩ : ∃ l m, ms = l ++ [m] := ⟨_, _, (List.dropLast_append_getLast hn).symm⟩
  rw [usesOf_append] at hc
  have h1 := State.reaches_completedAll hi hp ms [m] hd (by simp) (hc.mono (Nat.le_add_right _ _))
  have h := State.completedAll_spec pc pd ms s
  have hu : ∀ k, k < usesOf [m] → (s.completedAll pc pd ms).answerAt k = .ok := fun k hk => by
    rw [h.answerAt]
    exact hc _ (by omega)
  have hmpc := h.mpc
  rw [if_pos hp] at hmpc
  have hd2 : (s.completedAll pc pd ms).useq.drop (s.completedAll pc pd ms).mpc = [m] := by
    rw [hmpc, h.useq, ← List.drop_drop, hd]
    simp
  have h2 := State.reaches_last (s := s.completedAll pc pd ms)
    ⟨h.mfault.trans hi.1, .inl (h.phase.trans hp), h.clkPin.trans hi.2.2.1, h.dinPin.trans hi.2.2.2⟩
    (h.phase.trans hp) m hd2 (by simpa [State.CleanFor] using hu)
  rw [List.length_append, State.completedAll_append]
  exact h1.trans h2

end Sys2Proof.Machine
end

