-- ==== Sys2Proof/Tests/Slice0.lean ====
section
/-!
SUPPORT. The model's own tests: the WellFormed smoke, one word per wire byte form written out from
spec/30_encoding.md, small single-step tests with expected values from spec/95_test_vectors.md, and
for every obligation with hypotheses a witness that they can be met, at the edges of their ranges.
-/

namespace Sys2Proof.Tests

open Sys2Proof Sys2Proof.Machine

/-! ### States -/

/-- Clock pin `P4`, data pin `P5` and a third pin, as in spec/95_test_vectors.md. -/
def p4 : Pin := ⟨4⟩
def p5 : Pin := ⟨5⟩
def p6 : Pin := ⟨6⟩

/-- READY at the idle level, the observer `IDLE`, with the port's next answers given. -/
def ready (answers : List Config.Answer) : State :=
  { State.reset with
    session := .ready, clkPin := some p4, dinPin := some p5,
    lineCfg := { clk := .yes, din := .yes }, lvl := idleHigh,
    obs := { Observer.reset with wire := idleHigh, dec := .idle }, answers := answers }

/-- The same port for `n` requests, all answered `ok`. -/
def clean (n : Nat) : State := ready (List.replicate n .ok)

/-- The answers of a port whose request number `n` is the first to fail. -/
def failAt (n : Nat) : List Config.Answer :=
  (List.replicate n .ok).append [.err ⟨7⟩]

/-- `op` in progress at `mpc`, with the port's next answers given. -/
def running (op : Op) (mpc : Nat) (answers : List Config.Answer) : State :=
  { ready answers with
    phase := .run, cur := some op, useq := microSeq Cfg.default op, mpc := mpc,
    hist := [.accept op] }

/-- An INITIALIZE from reset in progress at `mpc`. -/
def starting (mpc : Nat) (answers : List Config.Answer) : State :=
  { State.reset with
    clkPin := some p4, dinPin := some p5, phase := .run, cur := some (.initSession p4 p5),
    useq := initSeq .cc, mpc := mpc, answers := answers, hist := [.accept (.initSession p4 p5)],
    obs := { Observer.reset with inInit := true } }

/-- READY after a failed write: the decoder in DESYNC, DATA unknown (program P4). -/
def desynced (n : Nat) : State :=
  { clean n with
    lvl := { clk := .high, din := .x }, txFaultSeen := true,
    obs := { (clean n).obs with wire := { clk := .high, din := .x }, dec := .desync } }

/-- READY, faulted. -/
def faulted : State := { clean 0 with mfault := some .notReady }

/-- READY, with the device's pointer and mode known. -/
def pointing (q : Nat) : State :=
  { clean 0 with
    obs := { (clean 0).obs with
      dev := { Device.unknown with ptr := some q, autoinc := some true, mem := [(3, 0x11#8)] } } }

/-- Whether an instruction answers a next state of which `p` holds. -/
def gives (i : Instr) (s : State) (p : State → Bool) : Bool :=
  match exec i s with
  | .next t => p t
  | .fault _ => false
  | .refused _ => false

/-- The same for one step. -/
def stepGives (s : State) (p : State → Bool) : Bool :=
  match step s with
  | .next t => p t
  | .fault _ => false
  | .refused _ => false

/-! ### WellFormed: an ill-formed term for each check -/

theorem test_wellFormed_rejects_empty_txn : Instr.wellFormed (.txn []) = false := by decide
theorem test_wellFormed_rejects_wait_zero : Instr.wellFormed (.wait 0) = false := by decide
theorem test_wellFormed_rejects_wait_three : Instr.wellFormed (.wait 3) = false := by decide
theorem test_wellFormed_accepts :
    Instr.wellFormed (.txn [0x40#8]) = true ∧ Instr.wellFormed (.wait 1) = true ∧
      Instr.wellFormed (.wait 2) = true := by decide

/-! ### Words written out from the layouts of R71 to R73, R123 (default configuration) -/

theorem test_decode_dataWrite :
    decode Cfg.default .control [0b01000000#8, 0xAA#8] = .ok (.dataWrite, [0xAA#8]) := by rfl
theorem test_decode_addressSet :
    decode Cfg.default .control [0b11001111#8] = .ok (.addressSet 15#4, []) := by rfl
theorem test_decode_addrByte16 :
    decode Cfg.default .control [0b11010000#8] = .ok (.addrByte16, []) := by rfl
theorem test_decode_displayOff :
    decode Cfg.default .control [0b10000000#8] = .ok (.displayOff, []) := by rfl
theorem test_decode_displayOn :
    decode Cfg.default .control [0b10001100#8] = .ok (.displayOn 4#3, []) := by rfl
theorem test_decode_dataByte :
    decode Cfg.default .payload [0b01000000#8] = .ok (.dataByte 0x40#8, []) := by rfl
/-- A fixed-address data write (bit 2) is no byte of this block (R80). -/
theorem test_decode_rejects_fixed_address :
    decode Cfg.default .control [0b01000100#8] = .error (.otherControlByte 0x44#8) := by rfl
/-- Display control with a step but the on bit clear (R80). -/
theorem test_decode_rejects_off_with_step :
    decode Cfg.default .control [0b10000001#8] = .error (.otherControlByte 0x81#8) := by rfl
/-- The address class ends at 0xCF, and 0xD0 is the only byte of the next row (V17). -/
theorem test_decode_rejects_D1 :
    decode Cfg.default .control [0b11010001#8] = .error (.otherControlByte 0xD1#8) := by rfl
theorem test_decode_rejects_extra :
    decode Cfg.default .extra [0x40#8] = .error (.extraByte 0x40#8) := by rfl
theorem test_decode_rejects_nothing :
    decode Cfg.default .control [] = .error .noByte := by rfl

/-- V17: the address bytes; V10: the level map. -/
theorem test_encode_address_bytes :
    [0, 5, 15, 16].map (encAs Cfg.default) = [0xC0#8, 0xC5#8, 0xCF#8, 0xD0#8] := by decide
theorem test_encode_level_bytes :
    [-5, -1, 0, 1, 2, 3, 5, 7, 8, 9, 1000].map (fun b => encDc Cfg.default (clamp b)) =
      [0x80#8, 0x80#8, 0x80#8, 0x88#8, 0x89#8, 0x8A#8, 0x8C#8, 0x8E#8, 0x8F#8, 0x8F#8, 0x8F#8] := by
  decide

/-- V12: the bits of 0x8C and 0xC2 in wire order. -/
theorem test_wireBits :
    Byte.wireBits 0x8C#8 = [.low, .low, .high, .high, .low, .low, .low, .high] ∧
      Byte.wireBits 0xC2#8 = [.low, .high, .low, .low, .low, .low, .high, .high] := by decide

/-- R67: the numeric codes. -/
theorem test_codes :
    [Result.ok, .configurationError 0 .clk ⟨0⟩, .transmissionError 0 .clk .low ⟨0⟩,
      .rangeError 0 0].map Result.code = [0, 1, 2, 3] ∧
    [ModelFault.notReady, .sessionDead, .pinAlias, .pinRebind].map ModelFault.code =
      [16, 17, 18, 19] := by decide

/-! ### One instruction each -/

/-- V24: INITIALIZE from reset is accepted and loads four requests. -/
theorem test_initialize_accepted :
    gives (.initSession p4 p5) State.reset (fun t =>
      t.useq == [.cfg .clk, .cfg .din, .set .clk .high, .set .din .high] &&
      t.phase == .run && t.clkPin == some p4 && t.dinPin == some p5) = true := by decide
/-- V26: two equal pins. -/
theorem test_initialize_alias :
    gives (.initSession p4 p4) State.reset (fun t =>
      t.mfault == some .pinAlias &&
      t.hist == [.accept (.initSession p4 p4), .mfault .pinAlias]) = true := by decide
set_option maxRecDepth 8000 in
/-- V18: a write of one byte is 164 micro-operations; bits 0 and 1 of the address byte 0xC2 are the
`SET`s at 62 and 68 (10_state.md R28). -/
theorem test_write_accepted :
    gives (.writeDisplayMemory [0x3F#8] 2) (clean 0) (fun t =>
      t.useq.length == 164 && t.useq[(62 : Nat)]? == some (.set .din .low) &&
      t.useq[(68 : Nat)]? == some (.set .din .high)) = true := by decide
/-- V7: `write_display_memory([1,2,3], offset=15)`. -/
theorem test_write_out_of_range :
    gives (.writeDisplayMemory [1#8, 2#8, 3#8] 15) (clean 0) (fun t =>
      t.res == some (.rangeError 15 3) && t.lvl == idleHigh && t.phase == .idle &&
      t.hist == [.accept (.writeDisplayMemory [1#8, 2#8, 3#8] 15), .done (.rangeError 15 3)])
      = true := by decide
/-- V8: brightness 9 sends 0x8F. -/
theorem test_display_control_clamps :
    gives (.setDisplayControl 9) (clean 0) (fun t => t.useq == Framing.txnSeq [0x8F#8]) = true := by
  decide
/-- V26: before INITIALIZE. -/
theorem test_display_control_not_ready :
    gives (.setDisplayControl 3) State.reset (fun t =>
      t.mfault == some .notReady && t.hist == [.accept (.setDisplayControl 3), .mfault .notReady])
      = true := by decide
/-- V11: BEGIN from (1, 1). -/
theorem test_begin :
    gives .beginTxn (clean 2) (fun t =>
      t.lvl == { clk := .low, din := .low } &&
      t.hist == [.set .din p5 .low .ok, .wait 1, .set .clk p4 .low .ok, .wait 1]) = true := by decide
/-- V11: BIT(1). -/
theorem test_bit :
    gives (.bit .high) (clean 3) (fun t =>
      t.lvl == { clk := .low, din := .high } &&
      t.hist == [.set .din p5 .high .ok, .wait 1, .set .clk p4 .high .ok, .wait 2,
        .set .clk p4 .low .ok, .wait 1]) = true := by decide
/-- V12: after `SEND(0x7F)` the levels are (CLK 0, DIN 0). -/
theorem test_send :
    gives (.send 0x7F#8) (clean 24) (fun t => t.lvl == { clk := .low, din := .low }) = true := by
  decide
/-- V11: END from (0, 1) issues `SET(DIN, 0)` and ends at (1, 1). -/
theorem test_end :
    gives .endTxn { clean 3 with lvl := { clk := .low, din := .high } } (fun t =>
      t.lvl == idleHigh &&
      t.hist == [.set .din p5 .low .ok, .wait 1, .set .clk p4 .high .ok, .wait 1,
        .set .din p5 .high .ok, .wait 2]) = true := by decide
set_option maxRecDepth 8000 in
/-- V28: `TXN([0x40])` from IDLE gives START, BYTE 40, STOP, and is applied at its STOP. -/
theorem test_txn_tokens :
    gives (.txn [0x40#8]) (clean 29) (fun t =>
      t.obs.tokens == [.start, .byte 0x40#8, .stop [0x40#8]] &&
      t.obs.dev == { Device.unknown with autoinc := some true }) = true := by decide
set_option maxRecDepth 8000 in
/-- V23: `sdc 5` with `err` at index 30 (the sixteenth request). -/
theorem test_txn_fails_mid_byte :
    gives (.txn [0x8C#8])
      (running (.setDisplayControl 5) 0 (failAt 15)) (fun t =>
        t.res == some (.transmissionError 30 .clk .high ⟨7⟩) && t.hist.length == 33 &&
        t.lvl == { clk := .x, din := .low } && t.txFaultSeen) = true := by decide
/-- V24: the first request of INITIALIZE. -/
theorem test_cfg :
    gives (.cfgLine .clk) (starting 0 [.ok]) (fun t =>
      t.lineCfg == { clk := .yes, din := .no } && t.mpc == 1) = true := by decide
/-- V25, `k = 1`: a failed `CFG(DIN)`. -/
theorem test_cfg_fails :
    gives (.cfgLine .din) { starting 1 [.err ⟨9⟩] with lineCfg := { clk := .yes, din := .no } }
      (fun t =>
        t.res == some (.configurationError 1 .din ⟨9⟩) && t.session == .dead && t.cfgFaultSeen &&
        t.lineCfg == { clk := .yes, din := .x } && t.lvl == { clk := .x, din := .x } &&
        t.obs.dec == .pre) = true := by decide
/-- V24: the last request of INITIALIZE ends it with READY, the observer leaves PRE (R153). -/
theorem test_set_ends_initialize :
    gives (.setLine .din .high) { starting 3 [.ok] with lvl := { clk := .high, din := .x } } (fun t =>
      t.session == .ready && t.res == some .ok && t.lvl == idleHigh && t.obs.dec == .idle &&
      t.useq == []) = true := by decide
/-- V25, `k = 3`: a failed `SET(DIN, 1)`. -/
theorem test_set_fails_initialize :
    gives (.setLine .din .high) { starting 3 [.err ⟨9⟩] with lvl := { clk := .high, din := .x } }
      (fun t =>
        t.res == some (.configurationError 3 .din ⟨9⟩) && t.session == .dead &&
        t.lvl == { clk := .high, din := .x }) = true := by decide
/-- R93: a wait advances the sequencer and takes no answer. -/
theorem test_wait :
    gives (.wait 1) (running (.setDisplayControl 5) 1 [.ok]) (fun t =>
      t.mpc == 2 && t.answers == [.ok] && t.hist == [.accept (.setDisplayControl 5), .wait 1])
      = true := by decide
/-- V28: DW applied. -/
theorem test_dataWrite :
    gives .dataWrite (clean 0) (fun t =>
      t.obs.dev == { Device.unknown with autoinc := some true }) = true := by decide
theorem test_addressSet :
    gives (.addressSet 15#4) (clean 0) (fun t =>
      t.obs.dev == { Device.unknown with ptr := some 15 }) = true := by decide
/-- V29: byte 0xD0 makes all device state `none`. -/
theorem test_addrByte16 :
    gives .addrByte16 (pointing 3) (fun t => t.obs.dev == Device.unknown) = true := by decide
theorem test_displayOff :
    gives .displayOff (clean 0) (fun t =>
      t.obs.dev == { Device.unknown with lit := some false }) = true := by decide
theorem test_displayOn :
    gives (.displayOn 7#3) (clean 0) (fun t =>
      t.obs.dev == { Device.unknown with lit := some true, step := some 7#3 }) = true := by decide
/-- V29: `wdm [0x06], 15` leaves slot 15 and the pointer at 16. -/
theorem test_dataByte_last_slot :
    gives (.dataByte 0x06#8) (pointing 15) (fun t =>
      t.obs.dev.ptr == some 16 && Memory.read t.obs.dev.mem 15 == some 0x06#8 &&
      Memory.read t.obs.dev.mem 3 == some 0x11#8) = true := by decide
/-- R158: past the last slot everything becomes unknown. -/
theorem test_dataByte_past_end :
    gives (.dataByte 0x06#8) (pointing 16) (fun t => t.obs.dev == Device.unknown) = true := by decide

/-! ### Steps -/

/-- The machine from reset has nothing to do (R191). -/
theorem test_step_reset : stepGives State.reset (fun t => t == State.reset) = true := by decide
/-- A placed word is decoded and run by the next step. -/
theorem test_step_word :
    stepGives (State.reset.withFetchWord 8 0x8E) (fun t =>
      t.obs.dev == { Device.unknown with lit := some true, step := some 6#3 } &&
      t.arriving == none)
      = true := by decide
/-- A waiting request is admitted (R57). -/
theorem test_step_request :
    stepGives { State.reset with callers := [[.initSession p4 p5, .setDisplayControl 8]] } (fun t =>
      t.cur == some (.initSession p4 p5) && t.callers == [[.setDisplayControl 8]]) = true := by decide
/-- V20: a write whose first request fails. -/
theorem test_step_first_request_fails :
    stepGives (running (.writeDisplayMemory [0xFF#8] 0) 0 [.err ⟨7⟩]) (fun t =>
      t.hist == [.accept (.writeDisplayMemory [0xFF#8] 0), .set .din p5 .low (.err ⟨7⟩),
        .done (.transmissionError 0 .din .low ⟨7⟩)] &&
      t.lvl == { clk := .high, din := .x } && t.txFaultSeen && t.session == .ready &&
      t.obs.dec == .desync) = true := by decide

/-- R89: while an operation is in progress a step issues its micro-operation, whatever is handed to the
device model. -/
theorem test_step_run_first :
    stepGives { running (.setDisplayControl 5) 1 [] with arriving := some (.control, 0x80#8) }
      (fun t => t.mpc == 2 && t.hist == [.accept (.setDisplayControl 5), .wait 1] &&
        t.arriving == some (.control, 0x80#8)) = true := by decide

/-! ### Timing -/

set_option maxRecDepth 8000 in
/-- V30: the waits between the consecutive `set` events of `TXN([b])`. -/
theorem test_timing_transaction :
    (gaps (.accept (.setDisplayControl 5) :: eventsOf p4 p5 (Framing.txnSeq [0x8C#8]))).map Gap.waits =
      [[1], [1]] ++ (List.replicate 8 [[1], [2], [1]]).flatten ++ [[1], [1]] := by decide
/-- V30, R197: CLOCK high for one unit only; R198: one unit after the stop condition. -/
theorem test_timing_rejects :
    timingOk [.accept (.setDisplayControl 5), .set .clk p4 .high .ok, .wait 1, .set .clk p4 .low .ok]
        = false ∧
      timingOk [.accept (.setDisplayControl 5), .set .din p5 .high .ok, .wait 1, .done .ok,
        .accept (.initSession p4 p5), .cfg .clk p4 .ok] = false := by decide
/-- R200: no wait inside INITIALIZE, and none asked for between it and the next operation. -/
theorem test_timing_initialize :
    gaps [.accept (.initSession p4 p5), .cfg .clk p4 .ok, .cfg .din p5 .ok, .set .clk p4 .high .ok,
      .set .din p5 .high .ok, .done .ok, .accept (.setDisplayControl 5), .set .din p5 .low .ok] = [] := by
  decide

/-! ### Witnesses: the hypotheses of each obligation can be met -/

theorem test_default_valid : Cfg.default.Valid := by decide

/-- A port whose next `n` answers are all `ok` is clean for `n` requests. -/
theorem test_cleanFor {s : State} {n : Nat} (h : s.answers = List.replicate n .ok) : s.CleanFor n := by
  intro k hk
  simp [State.answerAt, h, hk]

theorem test_cleanFor_append {s : State} {n : Nat} {rest : List Config.Answer}
    (h : s.answers = (List.replicate n Config.Answer.ok).append rest) : s.CleanFor n := by
  intro k hk
  simp [State.answerAt, h, List.getElem?_append, hk, List.append_eq]

theorem test_issuesOn (n : Nat) : (clean n).IssuesOn p4 p5 ∧ (clean n).CleanFor n :=
  ⟨⟨rfl, .inr rfl, rfl, rfl⟩, test_cleanFor rfl⟩

theorem test_issuesOn_running (op : Op) (m : Nat) (as : List Config.Answer) :
    (running op m as).IssuesOn p4 p5 ∧ (running op m as).phase = .run ∧
      (running op m as).cur = some op := ⟨⟨rfl, .inl rfl, rfl, rfl⟩, rfl, rfl⟩

theorem test_witness_DecodeOfEncodeReturnsInstruction :
    Cfg.default.Valid ∧ Instr.isWireByte .addrByte16 = true ∧
      classify Cfg.default (encAs Cfg.default 16) = .other ∧
      Instr.isWireByte (.displayOn 7#3) = true ∧ Instr.isWireByte (.addressSet 15#4) = true := by
  decide
theorem test_witness_DecodedByteIsItsEncoding :
    decode Cfg.default .control [0xCF#8, 0x01#8] = .ok (.addressSet 15#4, [0x01#8]) := by rfl
/-- Both sides of the equivalence: 0x87 is just below the display-on bytes, 0x88 the first. -/
theorem test_witness_DecoderRejectsExactlyOtherBytes :
    Cfg.default.Valid ∧
      ((0x87#8 ≠ Cfg.default.cmdDataWrite ∧
        (∀ a : BitVec 4, 0x87#8 ≠ Cfg.default.addrSetBase ||| a.setWidth 8) ∧
        0x87#8 ≠ Cfg.default.addrSetBase ||| 0x10#8 ∧ 0x87#8 ≠ Cfg.default.dispOff ∧
        (∀ s : BitVec 3, 0x87#8 ≠ Cfg.default.dispOnBase ||| s.setWidth 8)) ∧
        0x88#8 = Cfg.default.dispOnBase ||| (0#3).setWidth 8) := by decide
theorem test_witness_ClassifierNamesEncodedCommands :
    Cfg.default.Valid ∧ classify Cfg.default 0x40#8 = .dw ∧
      classify Cfg.default 0xC0#8 = .addr 0#4 ∧ classify Cfg.default 0xCF#8 = .addr 15#4 ∧
      classify Cfg.default 0x80#8 = .dcOff ∧ classify Cfg.default 0x88#8 = .dcOn 0#3 ∧
      classify Cfg.default 0x8F#8 = .dcOn 7#3 ∧ classify Cfg.default 0xD0#8 = .other := by decide
theorem test_witness_AddressByteIsBaseOrOffset :
    Cfg.default.Valid ∧ (0 ≤ 15 ∧ 15 ≤ 15 ∧ 16 ≤ 16) := by decide
theorem test_witness_DisplayByteIsOffOrOnWithStep :
    Cfg.default.Valid ∧ clamp (-1) = 0 ∧ clamp 0 = 0 ∧ clamp 1 = 1 ∧ clamp 8 = 8 ∧ clamp 9 = 8 := by
  decide
theorem test_witness_ClampBoundsBrightness :
    Cfg.default.Valid ∧ clamp (-1) = 0 ∧ clamp 0 = 0 ∧ clamp 8 = 8 ∧ clamp 9 = 8 ∧
      encDc Cfg.default 1 = 0x88#8 ∧ encDc Cfg.default 8 = 0x8F#8 := by decide
theorem test_witness_OperationCounts :
    16 + ([] : List Byte).length ≤ 16 ∧ 0 + (List.replicate 16 0x11#8).length ≤ 16 ∧
      (List.replicate 16 0x11#8).length = 16 ∧ 16 < 17 + ([] : List Byte).length ∧
      16 < 0 + (List.replicate 17 0x11#8).length := by decide
/-- The last micro-operation of the last bit of the one byte of a transaction (V11: index 51). -/
theorem test_witness_TransactionPositions :
    [0x40#8][(0 : Nat)]? = some 0x40#8 ∧ (7 : Nat) < 8 ∧ (5 : Nat) < 6 ∧ 4 + 48 * 0 + 6 * 7 + 5 = 51 ∧
      (Framing.txnSeq [0x40#8])[(51 : Nat)]? = some (.wait 1) ∧
      (Framing.txnSeq [0x40#8])[(3 : Nat)]? = some (.wait 1) ∧
      (Framing.txnSeq [0x40#8])[(52 : Nat)]? = some (.set .din .low) ∧
      (Framing.txnSeq [0x40#8])[(57 : Nat)]? = some (.wait 2) ∧
      (Framing.txnSeq [0x40#8])[(58 : Nat)]? = none := by decide +kernel
theorem test_witness_WaitsAreOneOrTwoUnits :
    MicroOp.wait 2 ∈ microSeq Cfg.default (.setDisplayControl 8) ∧
      MicroOp.wait 1 ∈ microSeq Cfg.default (.setDisplayControl 8) := by decide
/-- V30: the wait at `T_HIGH`, at the trailing `T_STOP_IDLE`, and one in between. -/
theorem test_witness_SetsAreSeparatedByOneWait :
    Op.isInit (.setDisplayControl 8) = false ∧
      6 < (microSeq Cfg.default (.setDisplayControl 8)).length ∧ 6 % 2 = 0 ∧
      (microSeq Cfg.default (.setDisplayControl 8))[(6 : Nat)]? = some (.set .clk .high) ∧
      (microSeq Cfg.default (.setDisplayControl 8))[(7 : Nat)]? = some (.wait 2) ∧
      (microSeq Cfg.default (.setDisplayControl 8))[(54 : Nat)]? = some (.set .clk .high) ∧
      (microSeq Cfg.default (.setDisplayControl 8))[(55 : Nat)]? = some (.wait 1) ∧
      (microSeq Cfg.default (.setDisplayControl 8))[(56 : Nat)]? = some (.set .din .high) ∧
      (microSeq Cfg.default (.setDisplayControl 8))[(57 : Nat)]? = some (.wait 2) ∧
      57 < (microSeq Cfg.default (.setDisplayControl 8)).length ∧ 57 % 2 = 1 := by decide +kernel
theorem test_witness_DataStableWhileClockHigh :
    (Framing.sendSeq 0x01#8)[(2 : Nat)]? = some (.set .clk .high) ∧
      (Framing.sendSeq 0x01#8)[(44 : Nat)]? = some (.set .clk .high) := by decide

theorem test_witness_InitializeIsAccepted :
    p4 ≠ p5 ∧
      (State.reset.phase = .idle ∧ State.reset.mfault = none ∧
        State.reset.session = .uninitialized) ∧
      ((clean 0).phase = .idle ∧ (clean 0).mfault = none ∧ (clean 0).session = .ready ∧
        (clean 0).clkPin = some p4 ∧ (clean 0).dinPin = some p5) := by decide
theorem test_witness_WriteInRangeIsAccepted :
    (clean 0).phase = .idle ∧ (clean 0).mfault = none ∧ (clean 0).session = .ready ∧
      15 + [0x06#8].length ≤ 16 ∧ 16 + ([] : List Byte).length ≤ 16 := by decide
theorem test_witness_WriteOutOfRangeIsRangeError :
    (clean 0).phase = .idle ∧ (clean 0).mfault = none ∧ (clean 0).session = .ready ∧
      16 < 15 + [1#8, 2#8].length ∧ 16 < 17 + ([] : List Byte).length := by decide
theorem test_witness_DisplayControlIsAccepted :
    (clean 0).phase = .idle ∧ (clean 0).mfault = none ∧ (clean 0).session = .ready := by decide
theorem test_witness_RequestInRunIsHeld :
    (running (.setDisplayControl 5) 0 []).phase = .run ∧ faulted.mfault ≠ none := by decide
/-- V26, one state for each of the four faults. -/
theorem test_witness_ModelFaultsAtAcceptance :
    ({ clean 0 with session := .dead } : State).session = .dead ∧
      (State.reset.session = .uninitialized ∧ Op.isInit (.setDisplayControl 3) = false) ∧
      State.reset.session ≠ .dead ∧
      ((clean 0).session = .ready ∧ p4 ≠ p6 ∧
        ¬ ((clean 0).clkPin = some p4 ∧ (clean 0).dinPin = some p6)) ∧
      (clean 0).phase = .idle ∧ (clean 0).mfault = none ∧
      State.reset.phase = .idle ∧ State.reset.mfault = none := by decide

theorem test_witness_ConfigureCompletes :
    (starting 0 [.ok]).IssuesOn p4 p5 ∧ (starting 0 [.ok]).portAnswer = .ok :=
  ⟨⟨rfl, .inl rfl, rfl, rfl⟩, rfl⟩
theorem test_witness_ConfigureFailureKillsSession :
    (starting 0 [.err ⟨9⟩]).IssuesOn p4 p5 ∧ (starting 0 [.err ⟨9⟩]).phase = .run ∧
      (starting 0 [.err ⟨9⟩]).cur = some (.initSession p4 p5) ∧
      (starting 0 [.err ⟨9⟩]).portAnswer = .err ⟨9⟩ := ⟨⟨rfl, .inl rfl, rfl, rfl⟩, rfl, rfl, rfl⟩
/-- `SetCompletes`: at the last micro-operation but one of an operation, and outside any. -/
theorem test_witness_SetCompletes :
    (running (.setDisplayControl 5) 56 [.ok]).IssuesOn p4 p5 ∧
      (running (.setDisplayControl 5) 56 [.ok]).portAnswer = .ok ∧
      (clean 1).IssuesOn p4 p5 ∧ (clean 1).portAnswer = .ok :=
  ⟨⟨rfl, .inl rfl, rfl, rfl⟩, rfl, ⟨rfl, .inr rfl, rfl, rfl⟩, rfl⟩
/-- Both clauses of `CompletedTo`: the last wait of an operation ends it, the one before does not. -/
theorem test_witness_WaitCompletes :
    (running (.setDisplayControl 5) 57 []).IssuesOn p4 p5 ∧
      (running (.setDisplayControl 5) 57 []).EndsWithin 1 ∧
      ¬ (running (.setDisplayControl 5) 55 []).EndsWithin 1 ∧ ¬ (clean 0).EndsWithin 1 :=
  ⟨⟨rfl, .inl rfl, rfl, rfl⟩, by decide, by decide, by decide⟩
/-- One operation of each kind whose next request fails. -/
theorem test_witness_SetFailureEndsOperation :
    ((running (.setDisplayControl 5) 0 [.err ⟨7⟩]).IssuesOn p4 p5 ∧
      (running (.setDisplayControl 5) 0 [.err ⟨7⟩]).portAnswer = .err ⟨7⟩ ∧
      Op.isInit (.setDisplayControl 5) = false) ∧
    ((starting 2 [.err ⟨9⟩]).IssuesOn p4 p5 ∧ (starting 2 [.err ⟨9⟩]).portAnswer = .err ⟨9⟩ ∧
      (starting 2 [.err ⟨9⟩]).cur = some (.initSession p4 p5) ∧
      Op.isInit (.initSession p4 p5) = true) :=
  ⟨⟨⟨rfl, .inl rfl, rfl, rfl⟩, rfl, rfl⟩, ⟨rfl, .inl rfl, rfl, rfl⟩, rfl, rfl, rfl⟩
theorem test_witness_UnansweredRequestIsStuck :
    (running (.setDisplayControl 5) 0 [.never]).IssuesOn p4 p5 ∧
      (running (.setDisplayControl 5) 0 [.never]).portAnswer = .never ∧
      (running (.setDisplayControl 5) 0 [.never]).phase = .run ∧
      (running (.setDisplayControl 5) 0 [.never]).useq[(0 : Nat)]? = some (.set .din .low) :=
  ⟨⟨rfl, .inl rfl, rfl, rfl⟩, rfl, rfl, rfl⟩
theorem test_witness_FramingOutsideSessionFaults :
    faulted.mfault ≠ none ∧ State.reset.mfault = none ∧ State.reset.phase = .idle ∧
      State.reset.session = .uninitialized ∧
      ({ clean 0 with session := .dead } : State).mfault = none ∧
      ({ clean 0 with session := .dead } : State).phase = .idle := by decide

theorem test_witness_StartAndStopConditionsComplete :
    ((clean 2).IssuesOn p4 p5 ∧ (clean 2).CleanFor 2) ∧
      ((clean 3).IssuesOn p4 p5 ∧ (clean 3).CleanFor 3) := ⟨test_issuesOn 2, test_issuesOn 3⟩
theorem test_witness_BitAndByteComplete :
    ((clean 3).IssuesOn p4 p5 ∧ (clean 3).CleanFor 3) ∧
      ((clean 24).IssuesOn p4 p5 ∧ (clean 24).CleanFor 24) := ⟨test_issuesOn 3, test_issuesOn 24⟩
theorem test_witness_TransactionCompletes :
    (clean 29).IssuesOn p4 p5 ∧ (clean 29).CleanFor (5 + 24 * [0x40#8].length) := test_issuesOn 29
/-- V22: the last request of the stop condition, and V20: the very first one. -/
theorem test_witness_FailedTransactionStopsAtOnce :
    (running (.setDisplayControl 8) 0 (failAt 28)).IssuesOn p4 p5 ∧
      Op.isInit (.setDisplayControl 8) = false ∧
      (running (.setDisplayControl 8) 0 (failAt 28)).CleanFor 28 ∧
      (running (.setDisplayControl 8) 0 (failAt 28)).answerAt 28 =
        .err ⟨7⟩ ∧
      (Framing.txnSeq [0x8F#8])[(2 * 28 : Nat)]? = some (.set .din .high) ∧
      (running (.setDisplayControl 8) 0 [.err ⟨7⟩]).CleanFor 0 ∧
      (running (.setDisplayControl 8) 0 [.err ⟨7⟩]).answerAt 0 = .err ⟨7⟩ ∧
      (Framing.txnSeq [0x8F#8])[(2 * 0 : Nat)]? = some (.set .din .low) := by
  refine ⟨⟨rfl, .inl rfl, rfl, rfl⟩, rfl, fun k hk => ?_, rfl, rfl, fun k hk => ?_, rfl, rfl⟩
  · exact test_cleanFor_append (rest := [.err ⟨7⟩]) rfl k hk
  · omega
theorem test_witness_PrimitiveIsItsMicroOperations :
    (running (.setDisplayControl 5) 0 (List.replicate 29 .ok)).IssuesOn p4 p5 ∧
      (running (.setDisplayControl 5) 0 (List.replicate 29 .ok)).phase = .run ∧
      (running (.setDisplayControl 5) 0 (List.replicate 29 .ok)).useq.drop 0 =
        Framing.txnSeq [0x8C#8] ++ [] ∧
      setCount (Framing.txnSeq [0x8C#8]) = 29 ∧
      (running (.setDisplayControl 5) 0 (List.replicate 29 .ok)).CleanFor 29 :=
  ⟨⟨rfl, .inl rfl, rfl, rfl⟩, rfl, by decide +kernel, by decide +kernel, test_cleanFor rfl⟩

theorem test_witness_DecoderReadsTransaction :
    ((clean 29).IssuesOn p4 p5 ∧ (clean 29).CleanFor (5 + 24 * [0x40#8].length)) ∧
      [0x40#8] ≠ [] ∧ (clean 29).obs.dec = .idle ∧ (clean 29).obs.wire = idleHigh :=
  ⟨test_issuesOn 29, by decide, rfl, rfl⟩
theorem test_witness_FailedRequestLosesSync :
    ((clean 0).obs.dec ≠ .pre ∧ (clean 0).obs.dec ≠ .desync ∧ (clean 0).obs.wire.get .din ≠ .x) ∧
      (clean 0).obs.loseSync.dec = .desync := by decide
/-- The last slot, the first address past it, and nothing known. -/
theorem test_witness_PayloadByteIsStoredAtPointer :
    ((pointing 15).obs.dev.autoinc = some true ∧ (pointing 15).obs.dev.ptr = some 15 ∧
        (15 : Nat) < 16) ∧
      ((pointing 16).obs.dev.ptr = some 16 ∧ (16 : Nat) ≤ 16) ∧
      (clean 0).obs.dev.ptr = none ∧ (clean 0).obs.dev.autoinc ≠ some true := by decide

theorem test_witness_InitializeReachesReady :
    p4 ≠ p5 ∧
      (({ State.reset with answers := List.replicate 4 .ok } : State).Resting ∧
        ({ State.reset with answers := List.replicate 4 .ok } : State).CleanFor 4 ∧
        State.reset.session = .uninitialized) ∧
      ((clean 4).Resting ∧ (clean 4).CleanFor 4 ∧ (clean 4).session = .ready ∧
        (clean 4).clkPin = some p4 ∧ (clean 4).dinPin = some p5) :=
  ⟨by decide, ⟨⟨rfl, rfl⟩, test_cleanFor rfl, rfl⟩, ⟨rfl, rfl⟩, test_cleanFor rfl, rfl, rfl, rfl⟩
/-- The three decoder states the statement tells apart. -/
theorem test_witness_InitializeReachesReady_decoder :
    State.reset.obs.dec = .pre ∧ ((clean 4).obs.dec = .idle ∧ (clean 4).obs.wire = idleHigh) ∧
      (desynced 4).obs.dec = .desync ∧ (desynced 4).session = .ready := by decide
/-- V25: the first and the last of the four requests fails, a configure request and a drive request. -/
theorem test_witness_InitializeFailureIsDead :
    p4 ≠ p5 ∧ (initSeq State.reset.params.initOrder)[(0 : Nat)]? = some (.cfg .clk) ∧
      (initSeq State.reset.params.initOrder)[(3 : Nat)]? = some (.set .din .high) ∧
      (({ State.reset with answers := [.err ⟨9⟩] } : State).Resting ∧
        ({ State.reset with answers := [.err ⟨9⟩] } : State).CleanFor 0 ∧
        ({ State.reset with answers := [.err ⟨9⟩] } : State).answerAt 0 = .err ⟨9⟩) ∧
      (({ State.reset with answers := [.ok, .ok, .ok, .err ⟨9⟩] } : State).Resting ∧
        ({ State.reset with answers := [.ok, .ok, .ok, .err ⟨9⟩] } : State).CleanFor 3 ∧
        ({ State.reset with answers := [.ok, .ok, .ok, .err ⟨9⟩] } : State).answerAt 3 =
          .err ⟨9⟩) := by
  refine ⟨by decide, rfl, rfl, ⟨⟨rfl, rfl⟩, fun k hk => ?_, rfl⟩, ⟨rfl, rfl⟩, fun k hk => ?_, rfl⟩
  · omega
  · match k, hk with
    | 0, _ => rfl
    | 1, _ => rfl
    | 2, _ => rfl
/-- One byte to the last slot, no byte at all at offset 16, and a decoder in DESYNC. -/
theorem test_witness_WriteReachesDisplayMemory :
    ((clean 82).Resting ∧ (clean 82).session = .ready ∧ (clean 82).clkPin = some p4 ∧
      (clean 82).dinPin = some p5 ∧ (clean 82).CleanFor (58 + 24 * [6#8].length)) ∧
      (clean 82).params.Valid ∧ 15 + [6#8].length ≤ 16 ∧ (clean 82).obs.dec = .idle ∧
      (clean 82).obs.wire = idleHigh ∧
      ((clean 58).Resting ∧ (clean 58).CleanFor (58 + 24 * ([] : List Byte).length)) ∧
      16 + ([] : List Byte).length ≤ 16 ∧
      classify (clean 58).params (encAs (clean 58).params 16) = .other ∧
      ((desynced 58).Resting ∧ (desynced 58).session = .ready ∧ (desynced 58).obs.dec = .desync ∧
        (desynced 58).CleanFor 58) :=
  ⟨⟨⟨rfl, rfl⟩, rfl, rfl, rfl, test_cleanFor rfl⟩, test_default_valid, by decide, rfl, rfl,
    ⟨⟨rfl, rfl⟩, test_cleanFor rfl⟩, by decide, by decide, ⟨rfl, rfl⟩, rfl, rfl, test_cleanFor rfl⟩
theorem test_witness_DisplayControlReachesDevice :
    ((clean 29).Resting ∧ (clean 29).session = .ready ∧ (clean 29).clkPin = some p4 ∧
      (clean 29).dinPin = some p5 ∧ (clean 29).CleanFor 29) ∧
      (clean 29).params.Valid ∧ (clean 29).obs.dec = .idle ∧ (clean 29).obs.wire = idleHigh ∧
      clamp 0 = 0 ∧ clamp 9 ≠ 0 ∧
      ((desynced 29).Resting ∧ (desynced 29).session = .ready ∧ (desynced 29).obs.dec = .desync ∧
        (desynced 29).CleanFor 29) :=
  ⟨⟨⟨rfl, rfl⟩, rfl, rfl, rfl, test_cleanFor rfl⟩, test_default_valid, rfl, rfl, by decide, by decide,
    ⟨rfl, rfl⟩, rfl, rfl, test_cleanFor rfl⟩

theorem test_witness_RequestFrame :
    gives (Op.toInstr (.writeDisplayMemory [1#8] 15)) (clean 0) (fun _ => true) = true ∧
      gives (Op.toInstr (.setDisplayControl 1)) (running (.setDisplayControl 5) 0 [])
        (fun _ => true) = true ∧
      (running (.setDisplayControl 5) 0 []).phase = .run ∧
      Op.isInit (.writeDisplayMemory [1#8] 15) = false := by decide
theorem test_witness_FramingFrame :
    gives (.cfgLine .clk) (starting 0 [.ok]) (fun _ => true) = true ∧ Line.din ≠ Line.clk ∧
      gives (.setLine .din .high) (clean 1) (fun _ => true) = true ∧
      gives (.wait 1) (clean 0) (fun _ => true) = true ∧
      gives .endTxn (clean 3) (fun _ => true) = true := by decide
theorem test_witness_WireByteFrame :
    Instr.isWireByte .dataWrite = true ∧ gives .dataWrite (clean 0) (fun _ => true) = true := by
  decide

/-- A state for each clause of the step. -/
theorem test_witness_StepRunsFetchedInstruction :
    ((running (.setDisplayControl 5) 57 []).mfault = none ∧
        (running (.setDisplayControl 5) 57 []).phase = .run ∧
        (running (.setDisplayControl 5) 57 []).useq[(57 : Nat)]? = some (.wait 2)) ∧
      (State.reset.withFetchWord 8 0x40).arriving = some (.control, 0x40#8) ∧
      (State.reset.withFetchWord 8 0x40).phase = .idle ∧
      decode Cfg.default .control [0x40#8] = .ok (.dataWrite, []) ∧
      decode Cfg.default .extra [0x40#8] = .error (.extraByte 0x40#8) ∧
      ((clean 0).arriving = none ∧ (clean 0).mfault = none ∧ (clean 0).phase = .idle ∧
        ({ clean 0 with callers := [[.setDisplayControl 1]] } : State).callers =
          [[.setDisplayControl 1]]) ∧
      (faulted.mfault ≠ none ∧ faulted.arriving = none ∧ (clean 0).waiting = []) :=
  ⟨⟨rfl, rfl, rfl⟩, rfl, rfl, rfl, rfl, ⟨rfl, rfl, rfl, rfl⟩, by decide, rfl, rfl⟩
/-- Two callers, the first of them with nothing more to ask. -/
theorem test_witness_IdleAdmitsOneWaitingRequest :
    ({ clean 0 with callers := [[], [.setDisplayControl 1], [.setDisplayControl 2]] } : State).waiting
        = [[.setDisplayControl 1], [.setDisplayControl 2]] ∧
      (clean 0).arriving = none ∧ (clean 0).mfault = none ∧ (clean 0).phase = .idle := by decide
theorem test_witness_ModelFaultIsQuiescent : faulted.mfault ≠ none ∧ faulted.arriving = none := by decide
theorem test_witness_RunAcceptsNothing :
    (running (.setDisplayControl 5) 57 []).phase = .run ∧
      stepGives (running (.setDisplayControl 5) 57 []) (fun t =>
        t.hist == [.accept (.setDisplayControl 5), .wait 2, .done .ok]) = true := by decide
theorem test_witness_HistoryOnlyGrows :
    gives (.wait 1) (clean 0) (fun t => t.hist == [.wait 1]) = true := by decide
theorem test_witness_MarksAreSticky :
    gives (.wait 1) { clean 0 with txFaultSeen := true } (fun t => t.txFaultSeen) = true ∧
      gives .dataWrite faulted (fun t => t.mfault == some .notReady) = true ∧
      gives (.setDisplayControl 1) { clean 0 with session := .dead, cfgFaultSeen := true }
        (fun t => t.cfgFaultSeen) = true := by decide
theorem test_witness_ConfigurationIsNeverWritten :
    gives (.wait 1) (clean 0) (fun _ => true) = true ∧ stepGives (clean 0) (fun _ => true) = true := by
  decide

/-- An operation in progress, anywhere in its micro-sequence, meets the invariant of the block. -/
theorem test_running_inv (m : Nat) (hm : m < 58) (as : List Config.Answer) (lv : PerLine KLevel) :
    ({ running (.setDisplayControl 5) m as with
        lvl := levelsAfter ((controlSeq Cfg.default 5).take m) lv } : State).BlockInv := by
  refine ⟨fun _ => ⟨rfl, by simp [running, ready], ⟨p4, p5, by decide, rfl, rfl⟩, ?_, ⟨_, rfl, rfl, rfl⟩,
    lv, rfl⟩, fun h => by simp [running] at h, fun h => by simp [running, ready, State.reset] at h⟩
  show m < (controlSeq Cfg.default 5).length
  exact hm
/-- The last request of INITIALIZE, answered `err`: the session goes to DEAD in one step. -/
theorem test_witness_SessionTransitions :
    (starting 0 [.err ⟨9⟩]).BlockInv ∧
      stepGives (starting 0 [.err ⟨9⟩]) (fun t =>
        t.session == .dead && t.res == some (.configurationError 0 .clk ⟨9⟩)) = true := by
  refine ⟨⟨fun _ => ⟨rfl, by decide, ⟨p4, p5, by decide, rfl, rfl⟩, by decide, ⟨_, rfl, rfl, rfl, rfl⟩,
    _, rfl⟩, fun h => (by cases h), fun h => (by cases h)⟩, by decide⟩
theorem test_witness_BlockNeverReadsObserver :
    gives (.setLine .clk .low) (clean 1) (fun _ => true) = true ∧
      (clean 1).obs ≠ Observer.reset := by decide
theorem test_witness_StepKeepsBlockInvariant :
    (clean 0).BlockInv ∧ stepGives (clean 0) (fun _ => true) = true := by
  refine ⟨⟨fun h => (by cases h), fun _ => ⟨rfl, rfl, rfl, fun h => (by cases h),
    fun _ => ⟨p4, p5, by decide, rfl, rfl⟩, fun _ _ _ => rfl⟩, fun h => (by cases h)⟩, by decide⟩
theorem test_witness_EveryInstructionAndStepAnswersNext :
    (starting 0 [.ok]).BlockInv :=
  ⟨fun _ => ⟨rfl, by decide, ⟨p4, p5, by decide, rfl, rfl⟩, by decide, ⟨_, rfl, rfl, rfl, rfl⟩, _, rfl⟩,
    fun h => (by cases h), fun h => (by cases h)⟩
theorem test_witness_StepKeepsObserverReplay :
    State.reset.ObserverInv ∧
      stepGives { State.reset with callers := [[.initSession p4 p5]] } (fun _ => true) = true :=
  ⟨⟨rfl, rfl, rfl⟩, by decide⟩
theorem test_witness_StepKeepsMemoryCanonical :
    (pointing 15).MemoryInv ∧
      stepGives { pointing 15 with arriving := some (.payload, 0x06#8) } (fun t =>
        t.obs.dev.mem == [(3, 0x11#8), (15, 0x06#8)]) = true := by decide
/-- An operation in progress after its first two micro-operations. -/
def midway : State :=
  { running (.setDisplayControl 5) 2 [.ok] with
    lvl := levelsAfter ((controlSeq Cfg.default 5).take 2) idleHigh,
    hist := [.accept (.setDisplayControl 5)] ++ eventsOf p4 p5 ((controlSeq Cfg.default 5).take 2) }
theorem test_witness_StepKeepsTiming :
    midway.BlockInv ∧ midway.TimingInv ∧
      stepGives midway (fun t => (gaps t.hist).map Gap.waits == [[1]] && t.mpc == 3) = true :=
  ⟨test_running_inv 2 (by decide) [.ok] idleHigh,
    ⟨fun _ h => (by cases h), fun h => (by cases h),
      fun _ => ⟨[], _, p4, p5, rfl, rfl, rfl, rfl, .inl rfl⟩⟩, by decide⟩

end Sys2Proof.Tests
end

/-! ## Proofs: the state, its invariants and what a step keeps (10_state.md)

The micro-sequences of the operations and the endings of a step come first; then the invariant of the
block, the timing, the observer, what each update of the state keeps, and the single statements. -/

namespace Sys2Proof.Machine

/-! ### Micro-sequences of the operations -/

theorem Session.eq_ready {x : Session} (hu : x ≠ .uninitialized) (hd : x ≠ .dead) : x = .ready := by
  cases x with
  | uninitialized => exact absurd rfl hu
  | ready => rfl
  | dead => exact absurd rfl hd

theorem Op.eq_initSession {op : Op} (h : op.isInit = true) : ∃ pc pd, op = .initSession pc pd := by
  cases op with
  | initSession pc pd => exact ⟨pc, pd, rfl⟩
  | writeDisplayMemory _ _ => cases h
  | setDisplayControl _ => cases h

theorem Framing.txnSeq_length (bs : List Byte) :
    (Framing.txnSeq bs).length = 10 + 48 * bs.length := by
  rw [Framing.txnSeq, List.length_append, List.length_append, Framing.bytes_length,
    show Framing.beginSeq.length = 4 from rfl, show Framing.endSeq.length = 6 from rfl]
  omega

theorem initSeq_length (o : InitOrder) : (initSeq o).length = 4 := by cases o <;> rfl

/-- The micro-sequence of a write or display control is empty, for a write out of range (R119), or one
or two transactions (R121, R122, R125). -/
theorem microSeq_transactions (c : Cfg) (op : Op) (h : op.isInit = false) :
    microSeq c op = [] ∨ (∃ bs, microSeq c op = Framing.txnSeq bs) ∨
      ∃ as bs, microSeq c op = Framing.txnSeq as ++ Framing.txnSeq bs := by
  cases op with
  | initSession pc pd => cases h
  | writeDisplayMemory bytes offset =>
    cases hr : inRange offset bytes.length with
    | false => exact .inl (by simp [microSeq, hr])
    | true => exact .inr (.inr ⟨[encDw c], encAs c offset :: bytes, by simp [microSeq, hr, writeSeq]⟩)
  | setDisplayControl b => exact .inr (.inl ⟨_, rfl⟩)

/-- R128: 884 micro-operations at most. -/
theorem microSeq_length_le (c : Cfg) (op : Op) : (microSeq c op).length ≤ 884 := by
  cases op with
  | initSession pc pd => simp [microSeq, initSeq_length]
  | writeDisplayMemory bytes offset =>
    by_cases hr : offset + bytes.length ≤ 16
    · have h : (microSeq c (.writeDisplayMemory bytes offset)).length = 116 + 48 * bytes.length := by
        simp [microSeq, inRange, Config.memSlots, hr, writeSeq, Framing.txnSeq_length]
        omega
      omega
    · simp [microSeq, inRange, Config.memSlots, hr]
  | setDisplayControl b => simp [microSeq, controlSeq, Framing.txnSeq_length]

/-- Every operation that issues anything leaves both lines at the idle level (R110, R139). -/
theorem microSeq_levels {c : Cfg} {op : Op} (h : microSeq c op ≠ []) (p : PerLine KLevel) :
    levelsAfter (microSeq c op) p = idleHigh := by
  cases hi : op.isInit with
  | true =>
    obtain ⟨pc, pd, rfl⟩ := Op.eq_initSession hi
    simp only [microSeq]
    cases c.initOrder <;> rfl
  | false =>
    rcases microSeq_transactions c op hi with e | ⟨bs, e⟩ | ⟨as, bs, e⟩
    · exact absurd e h
    · rw [e, Framing.txnSeq_levels]
    · rw [e, levelsAfter_append, Framing.txnSeq_levels]

theorem Framing.Alternates.cfg_not_mem : ∀ {ms : List MicroOp} (l : Line),
    Framing.Alternates ms → MicroOp.cfg l ∉ ms
  | [], _, _ => List.not_mem_nil
  | .set _ _ :: .wait _ :: ms, l, h => by
    simpa using Framing.Alternates.cfg_not_mem (ms := ms) l h

/-- A write or display control configures no line (R126). -/
theorem isInit_of_cfg_mem {c : Cfg} {op : Op} {l : Line} (h : MicroOp.cfg l ∈ microSeq c op) :
    op.isInit = true := by
  by_contra hi
  rw [Bool.not_eq_true] at hi
  have ha : Framing.Alternates (microSeq c op) := by
    rcases microSeq_transactions c op hi with e | ⟨bs, e⟩ | ⟨as, bs, e⟩ <;> rw [e]
    · trivial
    · exact Framing.txnSeq_alternates bs
    · exact (Framing.txnSeq_alternates as).append (Framing.txnSeq_alternates bs)
  exact ha.cfg_not_mem l h

/-! ### What one step can do from the block's invariant -/

/-- The state after the request of `m` on the pins `pc` and `pd` was answered with `err(e)` (R91, R92,
R95); a `WAIT` makes no request. -/
def State.failed (pc pd : Pin) (e : PinErr) (s : State) (m : MicroOp) : State :=
  match m with
  | .cfg l => (((s.takeAnswer.emit (.cfg l (pinOfLine pc pd l) (.err e))).setCfg l .x).setLvl l
      .x).abort l none e
  | .set l lv => ((s.takeAnswer.emit (.set l (pinOfLine pc pd l) lv (.err e))).setLvl l .x).abort l
      (some lv) e
  | .wait _ => s

/-- The endings of one micro-operation on bound lines, with the pins its event names (R89, R91 to R95,
R188). -/
theorem State.issue_bound_cases {pc pd : Pin} {s : State} (hc : s.clkPin = some pc)
    (hd : s.dinPin = some pd) (m : MicroOp) :
    s.issue m = .completed (s.completed pc pd m) ∨ s.issue m = .stopped s ∨
      ∃ e, m.uses = 1 ∧ s.issue m = .stopped (s.failed pc pd e m) := by
  have hp := State.pinOf_eq hc hd
  cases m with
  | cfg l =>
    cases ha : s.answerAt 0 with
    | ok => exact .inl (by simp [State.issue, State.issueCfg, hp, ha, State.completed, eventOf])
    | err e => exact .inr (.inr ⟨e, rfl, by simp [State.issue, State.issueCfg, hp, ha, State.failed]⟩)
    | never => exact .inr (.inl (by simp [State.issue, State.issueCfg, hp, ha]))
  | set l lv =>
    cases ha : s.answerAt 0 with
    | ok => exact .inl (by simp [State.issue, State.issueSet, hp, ha, State.completed, eventOf])
    | err e => exact .inr (.inr ⟨e, rfl, by simp [State.issue, State.issueSet, hp, ha, State.failed]⟩)
    | never => exact .inr (.inl (by simp [State.issue, State.issueSet, hp, ha]))
  | wait n => exact .inl rfl

theorem State.completed_spec (pc pd : Pin) (m : MicroOp) (s : State) :
    State.Completed pc pd [m] s (s.completed pc pd m) := State.completedAll_spec pc pd [m] s

theorem State.completed_mpc {pc pd : Pin} {s : State} (hp : s.phase = .run) (m : MicroOp) :
    (s.completed pc pd m).mpc = s.mpc + 1 := by
  rw [(State.completed_spec pc pd m s).mpc, if_pos hp, List.length_singleton]

/-- A step of an operation in progress, in the terms of its invariant (R27, R89): the request at `mpc`
is never answered; the micro-operation completes, with more to come or as the last; or it fails. -/
theorem State.RunningOk.step_cases {s t : State} (hp : s.phase = .run) (hr : s.RunningOk)
    (h : step s = .next t) :
    ∃ pc pd m, s.clkPin = some pc ∧ s.dinPin = some pd ∧ s.useq[s.mpc]? = some m ∧
      (t = s ∨
        (s.mpc + 1 < s.useq.length ∧ t = s.completed pc pd m) ∨
        (s.mpc + 1 = s.useq.length ∧ t = (s.completed pc pd m).conclude .ok) ∨
        ∃ e, m.uses = 1 ∧ t = s.failed pc pd e m) := by
  obtain ⟨hm, -, ⟨pc, pd, -, hc, hd⟩, hlt, -⟩ := hr
  have hu := List.getElem?_eq_getElem hlt
  rw [step_micro hm hp hu, State.framing_issues ⟨hm, .inl hp, hc, hd⟩] at h
  refine ⟨pc, pd, _, hc, hd, hu, ?_⟩
  obtain rfl := Host.Outcome.next.inj h
  rcases State.issue_bound_cases hc hd s.useq[s.mpc] with hi | hi | ⟨e, hm, hi⟩
  · have hdone := State.completed_spec pc pd s.useq[s.mpc] s
    have hmpc := State.completed_mpc (pc := pc) (pd := pd) hp s.useq[s.mpc]
    have hfin : s.issueAll [s.useq[s.mpc]] = (s.completed pc pd s.useq[s.mpc]).finish := by
      simp only [State.issueAll, hi]
    rw [hfin]
    rcases Nat.lt_or_ge (s.mpc + 1) s.useq.length with hl | hl
    · refine .inr (.inl ⟨hl, State.finish_on fun ⟨_, hle⟩ => ?_⟩)
      rw [hdone.useq, hmpc] at hle
      omega
    · refine .inr (.inr (.inl ⟨by omega, State.finish_run (hdone.phase.trans hp) ?_⟩))
      rw [hdone.useq, hmpc]
      exact hl
  · exact .inl (by simp only [State.issueAll, hi])
  · exact .inr (.inr (.inr ⟨e, hm, by simp only [State.issueAll, hi]⟩))

/-- The micro-operation at `mpc` is the next one completed. -/
theorem take_succ_of_getElem? {α : Type} {l : List α} {n : Nat} {a : α} (h : l[n]? = some a) :
    l.take (n + 1) = l.take n ++ [a] := by
  rw [List.take_add_one, h, Option.toList_some]

/-- Whether an event is one of a micro-operation (R68); the others open and end no gap (R199). -/
def Event.isMicro : Event → Bool
  | .accept _ => false
  | .cfg _ _ _ => true
  | .set _ _ _ _ => true
  | .wait _ => true
  | .done _ => false
  | .mfault _ => false

/-- The request `op` at an idle block ended at its acceptance, with a model fault or a RANGE_ERROR (R119,
R172): the sequencer is clear, two events are appended, and the session, the bindings, the lines and the
fault marks are as before. -/
structure State.EndedAtAcceptance (op : Op) (s t : State) : Prop where
  phase : t.phase = .idle
  cur : t.cur = none
  useq : t.useq = []
  mpc : t.mpc = 0
  session : t.session = s.session
  clkPin : t.clkPin = s.clkPin
  dinPin : t.dinPin = s.dinPin
  lvl : t.lvl = s.lvl
  txFaultSeen : t.txFaultSeen = s.txFaultSeen
  cfgFaultSeen : t.cfgFaultSeen = s.cfgFaultSeen
  hist : ∃ e, e.isMicro = false ∧ t.hist = s.hist ++ [.accept op] ++ [e]

theorem State.endedAtAcceptance_modelFault (op : Op) (f : ModelFault) (s : State) :
    State.EndedAtAcceptance op s ((s.latch op).modelFault f) := by
  constructor <;> simp [Event.isMicro]

theorem State.endedAtAcceptance_rangeError (op : Op) (o n : Nat) (s : State) :
    State.EndedAtAcceptance op s ((s.latch op).conclude (.rangeError o n)) := by
  constructor <;> simp [sessionAfter, txMark, cfgMark, Event.isMicro]

/-- The session check at an idle block without model fault (R144, R176): the operation's own body runs, a
write or display control's in READY alone, or the request ends at its acceptance. -/
theorem idle_accept_cases {s : State} (hp : s.phase = .idle) (hm : s.mfault = none) (op : Op)
    (body : State → State) :
    (s.session ≠ .dead ∧ (op.isInit = false → s.session = .ready) ∧
        s.request op body = body (s.latch op)) ∨
      State.EndedAtAcceptance op s (s.request op body) := by
  rcases State.request_cases op body s with ⟨hn, -⟩ | ⟨-, -, ⟨hd, hu, e⟩ | ⟨-, e⟩ | ⟨-, -, e⟩⟩
  · exact absurd ⟨hp, hm⟩ hn
  · refine .inl ⟨hd, fun hi => Session.eq_ready (fun hs => ?_) hd, e⟩
    cases hi.symm.trans (hu hs)
  · exact .inr (e ▸ State.endedAtAcceptance_modelFault op _ s)
  · exact .inr (e ▸ State.endedAtAcceptance_modelFault op _ s)

/-- Everything a request can do that arrives at an idle block without model fault (R144, R176): it ends
at its acceptance, or an INITIALIZE is bound and loaded, or a write or display control is loaded. -/
theorem idle_request_cases {op : Op} {s t : State} (hp : s.phase = .idle) (hm : s.mfault = none)
    (h : exec op.toInstr s = .next t) :
    State.EndedAtAcceptance op s t ∨
    (∃ pc pd, op = .initSession pc pd ∧ pc ≠ pd ∧ s.session ≠ .dead ∧
      (s.session = .ready → s.clkPin = some pc ∧ s.dinPin = some pd) ∧
      t = ((s.latch op).bind pc pd).load (microSeq s.params op)) ∨
    (op.isInit = false ∧ s.session = .ready ∧ microSeq s.params op ≠ [] ∧
      t = (s.latch op).load (microSeq s.params op)) := by
  cases op with
  | initSession pc pd =>
    obtain rfl : s.request _ (startInit pc pd) = t := Host.Outcome.next.inj h
    rcases idle_accept_cases hp hm _ (startInit pc pd) with ⟨hd, -, e⟩ | hf
    · rw [e]
      rcases startInit_cases pc pd (s.latch (.initSession pc pd)) with
        ⟨-, e⟩ | ⟨-, -, -, e⟩ | ⟨hne, hb, e⟩
      · exact .inl (e ▸ State.endedAtAcceptance_modelFault _ _ s)
      · exact .inl (e ▸ State.endedAtAcceptance_modelFault _ _ s)
      · exact .inr (.inl ⟨pc, pd, rfl, hne, hd, hb, e⟩)
    · exact .inl hf
  | writeDisplayMemory bytes offset =>
    obtain rfl : s.request _ (startWrite bytes offset) = t := Host.Outcome.next.inj h
    rcases idle_accept_cases hp hm _ (startWrite bytes offset) with ⟨-, hs, e⟩ | hf
    · rw [e]
      rcases startWrite_cases bytes offset (s.latch (.writeDisplayMemory bytes offset)) with
        ⟨hr, e⟩ | ⟨-, e⟩
      · have hseq : microSeq s.params (.writeDisplayMemory bytes offset) =
            writeSeq s.params bytes offset := by simp [microSeq, inRange, Config.memSlots, hr]
        refine .inr (.inr ⟨rfl, hs rfl, ?_, ?_⟩)
        · rw [hseq]
          simp [writeSeq, Framing.txnSeq, Framing.beginSeq]
        · rw [e, hseq, State.latch_params]
      · exact .inl (e ▸ State.endedAtAcceptance_rangeError _ _ _ s)
    · exact .inl hf
  | setDisplayControl b =>
    obtain rfl : s.request _ (startControl b) = t := Host.Outcome.next.inj h
    rcases idle_accept_cases hp hm _ (startControl b) with ⟨-, hs, e⟩ | hf
    · exact .inr (.inr ⟨rfl, hs rfl,
        by simp [microSeq, controlSeq, Framing.txnSeq, Framing.beginSeq], e⟩)
    · exact .inl hf

/-! ### The invariant of the block (R22, R23, R26, R27, R31) -/

/-- The error of a failed request in an INITIALIZE, and of a failed `CFG` (R94). -/
theorem State.failure_init {s : State} {op : Op} (hc : s.cur = some op) (hi : op.isInit = true)
    (l : Line) (lv : Option Level) (e : PinErr) :
    s.failure l lv e = .configurationError s.mpc l e := by
  obtain ⟨pc, pd, rfl⟩ := Op.eq_initSession hi
  cases lv <;> simp [State.failure, hc]

/-- The error of a failed `SET` in a write or display control (R94). -/
theorem State.failure_set {s : State} {op : Op} (hc : s.cur = some op) (hi : op.isInit = false)
    (l : Line) (lv : Level) (e : PinErr) :
    s.failure l (some lv) e = .transmissionError s.mpc l lv e := by
  cases op with
  | initSession pc pd => cases hi
  | writeDisplayMemory _ _ => simp [State.failure, hc]
  | setDisplayControl _ => simp [State.failure, hc]

/-- How a failed request ends the operation in progress (R95, R167): with CONFIGURATION_ERROR and the
session DEAD in an INITIALIZE, with TRANSMISSION_ERROR and the session kept in the other two. -/
theorem State.failed_cases {s : State} {op : Op} {m : MicroOp} (hc : s.cur = some op)
    (hmem : m ∈ microSeq s.params op) (hu : m.uses = 1) (pc pd : Pin) (e : PinErr) :
    ∃ (r : Result) (u : State), s.failed pc pd e m = u.conclude r ∧ u.session = s.session ∧
      u.clkPin = s.clkPin ∧ u.dinPin = s.dinPin ∧ u.cfgFaultSeen = s.cfgFaultSeen ∧
      ((op.isInit = true ∧ ∃ k l, r = .configurationError k l e) ∨
        (op.isInit = false ∧ ∃ k l lv, r = .transmissionError k l lv e)) := by
  cases m with
  | cfg l =>
    have hi := isInit_of_cfg_mem hmem
    exact ⟨_, _, rfl, rfl, rfl, rfl, rfl, .inl ⟨hi, _, _, State.failure_init hc hi l none e⟩⟩
  | set l lv =>
    refine ⟨_, _, rfl, rfl, rfl, rfl, rfl, ?_⟩
    cases hi : op.isInit with
    | true => exact .inl ⟨rfl, _, _, State.failure_init hc hi l (some lv) e⟩
    | false => exact .inr ⟨rfl, _, _, _, State.failure_set hc hi l lv e⟩
  | wait n => cases hu

/-- A write or display control runs in READY alone (R144). -/
theorem bindingsFit.ready {op : Op} {s : State} (h : bindingsFit op s) (hi : op.isInit = false) :
    s.session = .ready := by
  cases op with
  | initSession pc pd => cases hi
  | writeDisplayMemory _ _ => exact h
  | setDisplayControl _ => exact h

theorem State.BlockInv.of_idle {s : State} (hp : s.phase = .idle) (hi : s.IdleOk)
    (hc : s.cfgFaultSeen = true → s.session = .dead) : s.BlockInv :=
  ⟨fun h => (by cases hp.symm.trans h), fun _ => hi, hc⟩

theorem State.BlockInv.of_run {s : State} (hp : s.phase = .run) (hr : s.RunningOk)
    (hc : s.cfgFaultSeen = true → s.session = .dead) : s.BlockInv :=
  ⟨fun _ => hr, fun h => (by cases hp.symm.trans h), hc⟩

/-- An operation in progress that ends leaves the block idle with the bindings it ran on; the idle
lines (R26) are owed only where the session is READY without marks. -/
theorem State.blockInv_conclude {s : State} {r : Result} (hb : s.Bound)
    (hs : sessionAfter r s.cur s.session ≠ .uninitialized)
    (hc : cfgMark r s.cfgFaultSeen = true → sessionAfter r s.cur s.session = .dead)
    (hl : sessionAfter r s.cur s.session = .ready → txMark r s.txFaultSeen = false →
      s.lvl = idleHigh) : (s.conclude r).BlockInv :=
  .of_idle rfl ⟨rfl, rfl, rfl, fun h => absurd h hs, fun _ => hb, fun h ht _ => hl h ht⟩ hc

/-- The micro-operation at `mpc` completes and more are to come. -/
theorem State.RunningOk.completed {s : State} (hp : s.phase = .run) (hr : s.RunningOk)
    {pc pd : Pin} {m : MicroOp} (hu : s.useq[s.mpc]? = some m) (hl : s.mpc + 1 < s.useq.length) :
    (s.completed pc pd m).RunningOk := by
  obtain ⟨hm, hd, ⟨a, b, hne, ha, hb⟩, -, ⟨op, hc, hseq, hfit⟩, before, hlvl⟩ := hr
  have h := State.completed_spec pc pd m s
  have hmpc := State.completed_mpc (pc := pc) (pd := pd) hp m
  refine ⟨h.mfault.trans hm, h.session ▸ hd, ⟨a, b, hne, h.clkPin.trans ha, h.dinPin.trans hb⟩, ?_,
    ⟨op, h.cur.trans hc, ?_, ?_⟩, before, ?_⟩
  · rw [hmpc, h.useq]
    exact hl
  · rw [h.useq, h.params, hseq]
  · cases op <;> simpa [bindingsFit, h.clkPin, h.dinPin, h.session] using hfit
  · rw [hmpc, h.useq, take_succ_of_getElem? hu, levelsAfter_append, ← hlvl, h.lvl]

/-- The last micro-operation completes: the operation ends `OK`, the session is READY and both lines
are at the idle level (R26, R140, R166). -/
theorem State.RunningOk.completed_last {s : State} (hr : s.RunningOk)
    (hcf : s.cfgFaultSeen = true → s.session = .dead)
    {pc pd : Pin} {m : MicroOp} (hu : s.useq[s.mpc]? = some m) (hl : s.mpc + 1 = s.useq.length) :
    ((s.completed pc pd m).conclude .ok).BlockInv := by
  obtain ⟨hm, hd, ⟨a, b, hne, ha, hb⟩, hlt, ⟨op, hc, hseq, hfit⟩, before, hlvl⟩ := hr
  have h := State.completed_spec pc pd m s
  have hs : sessionAfter .ok (s.completed pc pd m).cur (s.completed pc pd m).session = .ready := by
    rw [h.cur, h.session, hc]
    cases hi : op.isInit with
    | true => simp [sessionAfter, hi]
    | false => simp [sessionAfter, hi, hfit.ready hi]
  refine State.blockInv_conclude ⟨a, b, hne, h.clkPin.trans ha, h.dinPin.trans hb⟩
    (by rw [hs]; exact Session.noConfusion) (fun hx => ?_) fun _ _ => ?_
  · exact absurd (hcf (h.cfgFaultSeen ▸ hx)) hd
  · have hne' : microSeq s.params op ≠ [] := by
      rintro e
      rw [hseq, e] at hlt
      exact Nat.not_lt_zero _ hlt
    rw [h.lvl, hlvl, ← levelsAfter_append, ← take_succ_of_getElem? hu, hl, List.take_length, hseq,
      microSeq_levels hne']

/-- A failed request ends the operation: READY with the mark set, or DEAD (R169, R170). -/
theorem State.RunningOk.failed {s : State} (hr : s.RunningOk)
    (hcf : s.cfgFaultSeen = true → s.session = .dead) {m : MicroOp}
    (hu : s.useq[s.mpc]? = some m) (h1 : m.uses = 1) (pc pd : Pin) (e : PinErr) :
    (s.failed pc pd e m).BlockInv := by
  obtain ⟨hm, hd, ⟨a, b, hne, ha, hb⟩, hlt, ⟨op, hc, hseq, hfit⟩, -⟩ := hr
  have hmem : m ∈ microSeq s.params op := hseq ▸ List.mem_of_getElem? hu
  obtain ⟨r, u, hf, hus, hua, hub, huf, hres⟩ := State.failed_cases hc hmem h1 pc pd e
  have hbound : u.Bound := ⟨a, b, hne, hua.trans ha, hub.trans hb⟩
  rw [hf]
  rcases hres with ⟨-, k, l, rfl⟩ | ⟨hi, k, l, lv, rfl⟩
  · exact State.blockInv_conclude hbound Session.noConfusion (fun _ => rfl)
      fun h => Session.noConfusion h
  · have hready : u.session = .ready := hus.trans (hfit.ready hi)
    refine State.blockInv_conclude hbound ?_ (fun h => absurd (hcf (huf ▸ h)) hd)
      fun _ h => Bool.noConfusion h
    rw [sessionAfter, hready]
    exact Session.noConfusion

/-- A request that arrives at the idle block keeps the invariant. -/
theorem State.BlockInv.idle_request {s t : State} {op : Op} (hp : s.phase = .idle)
    (hm : s.mfault = none) (h : s.BlockInv) (he : exec op.toInstr s = .next t) : t.BlockInv := by
  obtain ⟨-, hidle, hcf⟩ := h
  obtain ⟨-, -, -, hun, hbound, hlines⟩ := hidle hp
  rcases idle_request_cases hp hm he with
    hend | ⟨pc, pd, rfl, hne, hd, -, rfl⟩ | ⟨hi, hs, hseq, rfl⟩
  · refine .of_idle hend.phase ⟨hend.cur, hend.useq, hend.mpc, ?_, ?_, ?_⟩ ?_
    · rwa [hend.session, hend.clkPin, hend.dinPin]
    · rwa [hend.session, State.Bound, hend.clkPin, hend.dinPin]
    · rwa [hend.session, hend.txFaultSeen, hend.cfgFaultSeen, hend.lvl]
    · rwa [hend.cfgFaultSeen, hend.session]
  · refine .of_run rfl ⟨hm, hd, ⟨pc, pd, hne, rfl, rfl⟩, ?_, ⟨_, rfl, rfl, rfl, rfl⟩, s.lvl, rfl⟩ hcf
    simp [microSeq, initSeq_length]
  · refine .of_run rfl ⟨hm, ?_, hbound (by simp [hs]), List.length_pos_of_ne_nil hseq,
      ⟨op, rfl, rfl, ?_⟩, s.lvl, rfl⟩ hcf
    · simp [hs]
    · cases op with
      | initSession _ _ => cases hi
      | writeDisplayMemory _ _ => exact hs
      | setDisplayControl _ => exact hs

/-- Settles O56: by the endings of a step in RUN, and by those of a request at the idle block. -/
theorem stepKeepsBlockInvariant : Obligations.StepKeepsBlockInvariant := by
  intro s t h hst
  rcases step_cases hst with ⟨hp, -, -⟩ | ⟨-, ⟨x, -, rfl⟩ | ⟨-, rfl⟩ | ⟨-, hm, hp, k, op, ops, -, he⟩⟩
  · obtain ⟨hrun, hidle, hcf⟩ := h
    obtain ⟨pc, pd, m, -, -, hu, rfl | ⟨hl, rfl⟩ | ⟨hl, rfl⟩ | ⟨e, h1, rfl⟩⟩ :=
      (hrun hp).step_cases hp hst
    · exact ⟨hrun, hidle, hcf⟩
    · have hdone := State.completed_spec pc pd m s
      exact .of_run (hdone.phase.trans hp) ((hrun hp).completed hp hu hl)
        (by rw [hdone.cfgFaultSeen, hdone.session]; exact hcf)
    · exact (hrun hp).completed_last hcf hu hl
    · exact (hrun hp).failed hcf hu h1 pc pd e
  · exact h
  · exact h
  · exact State.BlockInv.idle_request (s := s.dropRequest k) hp hm h he

/-- Settles O52: by the endings of a step in RUN; outside RUN only an accepted INITIALIZE writes the
bindings, and in READY it writes those that stand. -/
theorem sessionTransitions : Obligations.SessionTransitions := by
  intro s t h hst
  obtain ⟨hrun, -, -⟩ := h
  rcases step_cases hst with ⟨hp, -, -⟩ | ⟨-, ⟨x, -, rfl⟩ | ⟨-, rfl⟩ | ⟨-, hm, hp, k, op, ops, -, he⟩⟩
  · obtain ⟨-, hd, -, -, ⟨op, hc, hseq, hfit⟩, -⟩ := hrun hp
    have hinit : op.isInit = true → ∃ pc pd, s.cur = some (.initSession pc pd) := fun hi => by
      obtain ⟨a, b, rfl⟩ := Op.eq_initSession hi
      exact ⟨a, b, hc⟩
    obtain ⟨pc, pd, m, -, -, hu, rfl | ⟨-, rfl⟩ | ⟨-, rfl⟩ | ⟨e, h1, rfl⟩⟩ :=
      (hrun hp).step_cases hp hst
    · exact ⟨.inl rfl, fun _ => ⟨rfl, rfl⟩⟩
    · have hdone := State.completed_spec pc pd m s
      exact ⟨.inl hdone.session, fun _ => ⟨hdone.clkPin, hdone.dinPin⟩⟩
    · have hdone := State.completed_spec pc pd m s
      refine ⟨?_, fun _ => ⟨hdone.clkPin, hdone.dinPin⟩⟩
      rw [State.conclude_session, State.conclude_res, hdone.cur, hdone.session]
      cases hi : op.isInit with
      | true => exact .inr ⟨hd, hp, hinit hi, .inl ⟨by simp [sessionAfter, hc, hi], rfl⟩⟩
      | false => exact .inl (by simp [sessionAfter, hc, hi])
    · obtain ⟨r, u, hf, hus, hua, hub, -, ⟨hi, k, l, rfl⟩ | ⟨-, k, l, lv, rfl⟩⟩ :=
        State.failed_cases hc (hseq ▸ List.mem_of_getElem? hu) h1 pc pd e
      · rw [hf]
        exact ⟨.inr ⟨hd, hp, hinit hi, .inr ⟨rfl, k, l, e, rfl⟩⟩, fun _ => ⟨hua, hub⟩⟩
      · rw [hf]
        exact ⟨.inl hus, fun _ => ⟨hua, hub⟩⟩
  · exact ⟨.inl rfl, fun _ => ⟨rfl, rfl⟩⟩
  · exact ⟨.inl rfl, fun _ => ⟨rfl, rfl⟩⟩
  · rcases idle_request_cases (s := s.dropRequest k) hp hm he with
      hend | ⟨pc, pd, rfl, -, hd, hb, rfl⟩ | ⟨-, -, -, rfl⟩
    · exact ⟨.inl hend.session, fun _ => ⟨hend.clkPin, hend.dinPin⟩⟩
    · refine ⟨.inl rfl, fun hu => ?_⟩
      obtain ⟨hc, hd⟩ := hb (Session.eq_ready hu hd)
      exact ⟨hc.symm, hd.symm⟩
    · exact ⟨.inl rfl, fun _ => ⟨rfl, rfl⟩⟩

/-! ### Totality (R27, R165) -/

/-- Outside an operation there is always something to do, or nothing. -/
theorem State.fetchOutside_ne_offEnd (s : State) : s.fetchOutside ≠ .offEnd := by
  unfold State.fetchOutside
  split
  · unfold State.fetchByte
    split <;> exact Fetched.noConfusion
  · split
    · unfold State.fetchRequest
      split <;> exact Fetched.noConfusion
    · exact Fetched.noConfusion

theorem exec_total (i : Instr) (s : State) : ∃ t, exec i s = .next t := by
  rcases exec_cases i with ⟨op, rfl⟩ | ⟨-, ms, h⟩ | ⟨-, h⟩
  · cases op <;> exact ⟨_, rfl⟩
  · exact ⟨_, h s⟩
  · exact ⟨_, h s⟩

theorem step_total {s : State} (h : s.phase = .run → s.mpc < s.useq.length) :
    ∃ t, step s = .next t := by
  have hf : s.fetch ≠ .offEnd := by
    unfold State.fetch
    split
    · rename_i hr
      rw [State.fetchMicro, List.getElem?_eq_getElem (h hr.1)]
      exact Fetched.noConfusion
    · exact s.fetchOutside_ne_offEnd
  unfold step
  split
  · exact exec_total _ _
  · exact ⟨_, rfl⟩
  · exact ⟨_, rfl⟩
  · rename_i he
    exact absurd he hf

/-- Settles O57: `mpc` is 0 outside RUN and inside a micro-sequence of at most 884 in it. -/
theorem everyInstructionAndStepAnswersNext : Obligations.EveryInstructionAndStepAnswersNext := by
  refine ⟨exec_total, fun s ⟨hrun, hidle, _⟩ => ⟨step_total fun hp => ?_, ?_, by decide⟩⟩
  · obtain ⟨-, -, -, hlt, -⟩ := hrun hp
    exact hlt
  · cases hp : s.phase with
    | idle =>
      obtain ⟨-, -, hmpc, -⟩ := hidle hp
      omega
    | run =>
      obtain ⟨-, -, -, hlt, ⟨op, -, hseq, -⟩, -⟩ := hrun hp
      have := microSeq_length_le s.params op
      rw [hseq] at hlt
      omega

/-! ### The timing checker over a micro-sequence (R197 to R199) -/

/-- What the checker remembers between operations, of the watch alone: `Settled` of a history is this
of the watch after it. -/
def Watch.Settled (w : Watch) : Prop :=
  w.last = none ∨ (w.last = some (.din, .high) ∧ w.waits = [Config.tStopIdle])

theorem settled_iff (hist : List Event) :
    Settled hist ↔ (hist.foldl Watch.see Watch.start).Settled := Iff.rfl

/-- A gap holds exactly one wait, of its window. -/
def Gap.Exact (g : Gap) : Prop := g.waits = [g.window]

theorem gapsFrom_append (w : Watch) (es fs : List Event) :
    gapsFrom w (es ++ fs) = gapsFrom w es ++ gapsFrom (es.foldl Watch.see w) fs := by
  induction es generalizing w with
  | nil => rfl
  | cons e es ih => simp [gapsFrom, ih]

theorem gaps_append (hist es : List Event) :
    gaps (hist ++ es) = gaps hist ++ gapsFrom (hist.foldl Watch.see Watch.start) es :=
  gapsFrom_append _ _ _

/-- Reading `es` takes the checker from `w` to `w'`, and every gap that ends meanwhile is exact. -/
def Watch.Paces (w : Watch) (es : List Event) (w' : Watch) : Prop :=
  es.foldl Watch.see w = w' ∧ ∀ g ∈ gapsFrom w es, g.Exact

theorem Watch.Paces.append {w w' w'' : Watch} {es fs : List Event} (h : w.Paces es w')
    (h' : w'.Paces fs w'') : w.Paces (es ++ fs) w'' := by
  obtain ⟨rfl, hg⟩ := h
  obtain ⟨rfl, hg'⟩ := h'
  refine ⟨List.foldl_append, fun g hm => ?_⟩
  rw [gapsFrom_append] at hm
  exact (List.mem_append.1 hm).elim (hg g) (hg' g)

/-- Inside a transaction, after the start condition or a bit: CLOCK went low, and its wait is over. -/
def Watch.midTransaction : Watch :=
  { last := some (.clk, .low), waits := [Config.tLow], timed := true }

/-- After a stop condition and its wait. -/
def Watch.afterStop : Watch :=
  { last := some (.din, .high), waits := [Config.tStopIdle], timed := true }

theorem Watch.begin_paces (pc pd : Pin) {w : Watch} (hs : w.Settled) (ht : w.timed = true) :
    w.Paces (eventsOf pc pd Framing.beginSeq) .midTransaction := by
  obtain ⟨last, waits, timed⟩ := w
  obtain rfl : timed = true := ht
  rcases hs with hl | ⟨hl, hw⟩
  · obtain rfl : last = none := hl
    exact ⟨rfl, by simp [Framing.beginSeq, eventsOf, gapsFrom, Watch.gaps, Watch.close, Watch.see,
      Gap.Exact, Gap.window, window]⟩
  · obtain rfl : last = some (.din, .high) := hl
    obtain rfl : waits = [Config.tStopIdle] := hw
    exact ⟨rfl, by simp [Framing.beginSeq, eventsOf, gapsFrom, Watch.gaps, Watch.close, Watch.see,
      Gap.Exact, Gap.window, window]⟩

theorem Watch.bit_paces (pc pd : Pin) (v : Level) :
    Watch.midTransaction.Paces (eventsOf pc pd (Framing.bitSeq v)) .midTransaction :=
  ⟨rfl, by cases v <;> simp [Framing.bitSeq, eventsOf, gapsFrom, Watch.gaps, Watch.close, Watch.see,
    Watch.midTransaction, Gap.Exact, Gap.window, window, Config.tSetup, Config.tStopD, Config.tLow,
    Config.tStartC]⟩

theorem Watch.end_paces (pc pd : Pin) :
    Watch.midTransaction.Paces (eventsOf pc pd Framing.endSeq) .afterStop :=
  ⟨rfl, by simp [Framing.endSeq, eventsOf, gapsFrom, Watch.gaps, Watch.close, Watch.see,
    Watch.midTransaction, Gap.Exact, Gap.window, window, Config.tSetup, Config.tStopD, Config.tLow,
    Config.tStartC]⟩

/-- What holds of each part holds of all parts in a row. -/
theorem Watch.flatMap_paces {α : Type} (pc pd : Pin) (f : α → List MicroOp)
    (h : ∀ x, Watch.midTransaction.Paces (eventsOf pc pd (f x)) .midTransaction) (xs : List α) :
    Watch.midTransaction.Paces (eventsOf pc pd (xs.flatMap f)) .midTransaction := by
  induction xs with
  | nil => exact ⟨rfl, fun g hg => by simp [eventsOf, gapsFrom] at hg⟩
  | cons x xs ih =>
    rw [List.flatMap_cons, eventsOf_append]
    exact (h x).append ih

theorem Watch.txn_paces (pc pd : Pin) (bytes : List Byte) {w : Watch} (hs : w.Settled)
    (ht : w.timed = true) : w.Paces (eventsOf pc pd (Framing.txnSeq bytes)) .afterStop := by
  have hbyte (b : Byte) : Watch.midTransaction.Paces (eventsOf pc pd (Framing.sendSeq b))
      .midTransaction := Watch.flatMap_paces pc pd _ (Watch.bit_paces pc pd) _
  rw [Framing.txnSeq, eventsOf_append, eventsOf_append]
  exact ((Watch.begin_paces pc pd hs ht).append (Watch.flatMap_paces pc pd _ hbyte bytes)).append
    (Watch.end_paces pc pd)

theorem Watch.afterStop_settled : Watch.afterStop.Settled := .inr ⟨rfl, rfl⟩

/-- INITIALIZE issues no wait; its first request ends the gap a stop condition left open (R138,
R200). -/
theorem Watch.init_paces (pc pd : Pin) (o : InitOrder) {w : Watch} (hs : w.Settled)
    (ht : w.timed = false) :
    w.Paces (eventsOf pc pd (initSeq o)) { last := none, waits := [], timed := false } := by
  obtain ⟨last, waits, timed⟩ := w
  obtain rfl : timed = false := ht
  rcases hs with hl | ⟨hl, hw⟩
  · obtain rfl : last = none := hl
    cases o <;> exact ⟨rfl, by simp [initSeq, eventsOf, gapsFrom, Watch.gaps, Watch.close, Watch.see]⟩
  · obtain rfl : last = some (.din, .high) := hl
    obtain rfl : waits = [Config.tStopIdle] := hw
    cases o <;> exact ⟨rfl, by simp [initSeq, eventsOf, gapsFrom, Watch.gaps, Watch.close, Watch.see,
      Gap.Exact, Gap.window, window]⟩

/-- The events of a whole operation, accepted on a settled history, are paced and leave it settled. -/
theorem Watch.operation_paces (pc pd : Pin) (c : Cfg) (op : Op) {w : Watch} (hs : w.Settled) :
    ∃ w' : Watch, w'.Settled ∧ (w.see (.accept op)).Paces (eventsOf pc pd (microSeq c op)) w' := by
  have hs' : (w.see (.accept op)).Settled := hs
  cases hi : op.isInit with
  | true =>
    obtain ⟨a, b, rfl⟩ := Op.eq_initSession hi
    exact ⟨_, .inl rfl, Watch.init_paces pc pd c.initOrder hs' rfl⟩
  | false =>
    have ht : (w.see (.accept op)).timed = true := by simp [Watch.see, hi]
    rcases microSeq_transactions c op hi with e | ⟨bs, e⟩ | ⟨as, bs, e⟩ <;> rw [e]
    · exact ⟨_, hs', rfl, fun g hg => by simp [eventsOf, gapsFrom] at hg⟩
    · exact ⟨_, afterStop_settled, Watch.txn_paces pc pd bs hs' ht⟩
    · rw [eventsOf_append]
      exact ⟨_, afterStop_settled, (Watch.txn_paces pc pd as hs' ht).append
        (Watch.txn_paces pc pd bs afterStop_settled rfl)⟩

/-! ### The invariant of the timing (R199) -/

/-- The gaps of a history are exact, so the timing checker accepts it. -/
theorem timingOk_of_exact {hist : List Event} (h : ∀ g ∈ gaps hist, g.waits = [g.window]) :
    timingOk hist = true := by
  rw [timingOk, List.all_eq_true]
  intro g hg
  simp [h g hg]

theorem gaps_snoc (hist : List Event) (e : Event) :
    gaps (hist ++ [e]) = gaps hist ++ (hist.foldl Watch.see Watch.start).gaps e := by
  simp [gaps_append, gapsFrom]

/-- An event of no micro-operation opens and ends no gap. -/
theorem gaps_snoc_of_not_micro {e : Event} (he : e.isMicro = false) (hist : List Event) :
    gaps (hist ++ [e]) = gaps hist := by
  rw [gaps_snoc]
  cases e with
  | accept _ => exact List.append_nil _
  | cfg _ _ _ => cases he
  | set _ _ _ _ => cases he
  | wait _ => cases he
  | done _ => exact List.append_nil _
  | mfault _ => exact List.append_nil _

theorem Settled.snoc_of_not_micro {e : Event} (he : e.isMicro = false) {hist : List Event}
    (h : Settled hist) : Settled (hist ++ [e]) := by
  rw [settled_iff, List.foldl_append]
  cases e with
  | accept _ => exact h
  | cfg _ _ _ => cases he
  | set _ _ _ _ => cases he
  | wait _ => cases he
  | done _ => exact h
  | mfault _ => exact h

/-- In the history of an operation accepted on a settled one, the gap that the next micro-operation ends
is exact, and the last micro-operation leaves the history settled. -/
theorem Settled.next_micro {before : List Event} (hs : Settled before) (pc pd : Pin) {c : Cfg}
    {op : Op} {n : Nat} {m : MicroOp} (hu : (microSeq c op)[n]? = some m) {hist : List Event}
    (hh : hist = before ++ [.accept op] ++ eventsOf pc pd ((microSeq c op).take n)) :
    (∀ g ∈ (hist.foldl Watch.see Watch.start).gaps (eventOf pc pd m), g.Exact) ∧
      (n + 1 = (microSeq c op).length → Settled (hist ++ [eventOf pc pd m])) := by
  obtain ⟨w, hw, hfold, hgaps⟩ := Watch.operation_paces pc pd c op ((settled_iff _).1 hs)
  have htake : eventsOf pc pd ((microSeq c op).take (n + 1)) =
      eventsOf pc pd ((microSeq c op).take n) ++ [eventOf pc pd m] := by
    rw [take_succ_of_getElem? hu, eventsOf_append]
    simp [eventsOf_eq_map]
  constructor
  · intro g hg
    refine hgaps g ?_
    rw [← List.take_append_drop (n + 1) (microSeq c op), eventsOf_append, htake, gapsFrom_append,
      gapsFrom_append]
    have hwatch : hist.foldl Watch.see Watch.start =
        (eventsOf pc pd ((microSeq c op).take n)).foldl Watch.see
          ((before.foldl Watch.see Watch.start).see (.accept op)) := by
      rw [hh, List.foldl_append, List.foldl_append]
      rfl
    rw [hwatch] at hg
    simp [gapsFrom, hg]
  · intro hl
    rw [hl, List.take_length] at htake
    rw [settled_iff, hh, List.append_assoc, ← htake, List.foldl_append, List.foldl_append]
    exact hfold ▸ hw

/-- What a failed request appends: its event, which ends the gap that `m` would end and opens none, and
the end of the operation (R95, R203). -/
theorem State.failed_hist {m : MicroOp} (h1 : m.uses = 1) (pc pd : Pin) (e : PinErr) (s : State) :
    (s.failed pc pd e m).phase = .idle ∧
      ∃ (a : Event) (r : Result), (s.failed pc pd e m).hist = s.hist ++ [a] ++ [.done r] ∧
        (∀ w : Watch, w.gaps a = w.gaps (eventOf pc pd m)) ∧ ∀ w : Watch, (w.see a).last = none := by
  cases m with
  | cfg l => exact ⟨rfl, _, _, rfl, fun _ => rfl, fun _ => rfl⟩
  | set l lv => exact ⟨rfl, _, _, rfl, fun _ => rfl, fun _ => rfl⟩
  | wait n => cases h1

theorem State.TimingInv.of_idle {s : State} (hp : s.phase = .idle)
    (hg : ∀ g ∈ gaps s.hist, g.Exact) (hs : Settled s.hist) : s.TimingInv :=
  ⟨hg, fun _ => hs, fun h => (by cases hp.symm.trans h)⟩

theorem State.TimingInv.of_run {s : State} (hp : s.phase = .run)
    (hg : ∀ g ∈ gaps s.hist, g.Exact) {before : List Event} {op : Op} {pc pd : Pin}
    (hc : s.cur = some op) (ha : s.clkPin = some pc) (hb : s.dinPin = some pd)
    (hh : s.hist = before ++ [.accept op] ++ eventsOf pc pd (s.useq.take s.mpc))
    (hs : Settled before) : s.TimingInv :=
  ⟨hg, fun h => (by cases hp.symm.trans h), fun _ => ⟨before, op, pc, pd, hc, ha, hb, hh, hs⟩⟩

/-- A step of an operation in progress keeps the timing. -/
theorem State.TimingInv.run_step {s t : State} (hp : s.phase = .run) (hr : s.RunningOk)
    (ht : s.TimingInv) (hst : step s = .next t) : t.TimingInv := by
  obtain ⟨pc, pd, m, ha, hb, hu, hcases⟩ := hr.step_cases hp hst
  obtain ⟨-, -, -, -, ⟨op, hc, hseq, -⟩, -⟩ := hr
  have ⟨hg, _, hrun⟩ := ht
  obtain ⟨before, op', pc', pd', hc', ha', hb', hh, hs⟩ := hrun hp
  obtain rfl : op = op' := Option.some.inj (hc.symm.trans hc')
  obtain rfl : pc = pc' := Option.some.inj (ha.symm.trans ha')
  obtain rfl : pd = pd' := Option.some.inj (hb.symm.trans hb')
  obtain ⟨hexact, hlast⟩ := hs.next_micro pc pd (hseq ▸ hu) (hseq ▸ hh)
  have hdone := State.completed_spec pc pd m s
  have hhist : (s.completed pc pd m).hist = s.hist ++ [eventOf pc pd m] := by
    rw [hdone.hist, eventsOf_eq_map, List.map_singleton]
  have hgaps : ∀ a, (∀ w : Watch, w.gaps a = w.gaps (eventOf pc pd m)) →
      ∀ g ∈ gaps (s.hist ++ [a]), g.Exact := fun a hw g hm => by
    rw [gaps_snoc, hw] at hm
    exact (List.mem_append.1 hm).elim (hg g) (hexact g)
  rcases hcases with rfl | ⟨hl, rfl⟩ | ⟨hl, rfl⟩ | ⟨e, h1, rfl⟩
  · exact ht
  · refine .of_run (hdone.phase.trans hp) (hhist ▸ hgaps _ fun _ => rfl) (hdone.cur.trans hc)
      (hdone.clkPin.trans ha) (hdone.dinPin.trans hb) ?_ hs
    rw [hdone.hist, hh, State.completed_mpc hp, hdone.useq, take_succ_of_getElem? hu, eventsOf_append,
      List.append_assoc]
  · refine .of_idle rfl ?_ ?_ <;> rw [State.conclude_hist, hhist]
    · rw [gaps_snoc_of_not_micro rfl]
      exact hgaps _ fun _ => rfl
    · exact .snoc_of_not_micro rfl (hlast (hseq ▸ hl))
  · obtain ⟨hidle, a, r, ha, hw, hnone⟩ := State.failed_hist h1 pc pd e s
    refine .of_idle hidle ?_ ?_ <;> rw [ha]
    · rw [gaps_snoc_of_not_micro rfl]
      exact hgaps a hw
    · refine .snoc_of_not_micro rfl (.inl ?_)
      rw [List.foldl_append]
      exact hnone _

/-- A request that arrives at the idle block keeps the timing: its `accept` event is read on a settled
history. -/
theorem State.TimingInv.idle_request {s t : State} {op : Op} (hp : s.phase = .idle)
    (hm : s.mfault = none) (hb : s.BlockInv) (h : s.TimingInv) (he : exec op.toInstr s = .next t) :
    t.TimingInv := by
  obtain ⟨hg, hsettled, -⟩ := h
  have hs := hsettled hp
  have hg' : ∀ g ∈ gaps (s.hist ++ [.accept op]), g.Exact := by
    rw [gaps_snoc_of_not_micro rfl]
    exact hg
  rcases idle_request_cases hp hm he with
    hend | ⟨pc, pd, rfl, -, -, -, rfl⟩ | ⟨-, hready, -, rfl⟩
  · obtain ⟨e, he, hh⟩ := hend.hist
    refine .of_idle hend.phase ?_ ?_ <;> rw [hh]
    · rw [gaps_snoc_of_not_micro he]
      exact hg'
    · exact (hs.snoc_of_not_micro rfl).snoc_of_not_micro he
  · exact .of_run rfl hg' rfl rfl rfl (by simp [eventsOf]) hs
  · obtain ⟨-, hidle, -⟩ := hb
    obtain ⟨-, -, -, -, hbound, -⟩ := hidle hp
    obtain ⟨pc, pd, -, hc, hd⟩ := hbound (by simp [hready])
    exact .of_run (pc := pc) (pd := pd) rfl hg' rfl hc hd (by simp [eventsOf]) hs

/-- Settles O60: in RUN the micro-sequence of the operation paces its gaps; outside RUN only an `accept`
event and the end of the operation it names can be appended. -/
theorem stepKeepsTiming : Obligations.StepKeepsTiming := by
  intro s t hb ht hst
  suffices h : t.TimingInv by
    have ⟨hg, _⟩ := h
    exact ⟨h, timingOk_of_exact hg⟩
  rcases step_cases hst with ⟨hp, -, -⟩ | ⟨-, ⟨x, -, rfl⟩ | ⟨-, rfl⟩ | ⟨-, hm, hp, k, op, ops, -, he⟩⟩
  · obtain ⟨hrun, -⟩ := hb
    exact ht.run_step hp (hrun hp) hst
  · exact ht
  · exact ht
  · exact State.TimingInv.idle_request (s := s.dropRequest k) hp hm hb ht he

/-! ### The observer is the replay of the history (R25, R150) -/

/-- The observer has read exactly the history (R150). -/
def State.Replayed (s : State) : Prop := s.obs = Observer.replay s.params s.hist

theorem State.Replayed.emit {s : State} (h : s.Replayed) (e : Event) : (s.emit e).Replayed := by
  rw [State.Replayed, State.emit_obs, State.emit_hist, State.emit_params, Observer.replay_snoc, ← h]

/-- An event that drives no line keeps the invariant of the observer. -/
theorem State.ObserverInv.emit {s : State} (h : s.ObserverInv) {e : Event}
    (he : ∀ o : Observer, (o.see s.params e).wire = o.wire) : (s.emit e).ObserverInv := by
  obtain ⟨ha, ho, hw⟩ := h
  exact ⟨ha, State.Replayed.emit ho e, (he s.obs).trans hw⟩

/-- So does one that drives line `l` to `v`, together with the block's record of that level. -/
theorem State.ObserverInv.emit_setLvl {s : State} (h : s.ObserverInv) {e : Event} {l : Line}
    {v : KLevel} (he : ∀ o : Observer, (o.see s.params e).wire = o.wire.set l v) :
    ((s.emit e).setLvl l v).ObserverInv := by
  obtain ⟨ha, ho, hw⟩ := h
  refine ⟨ha, State.Replayed.emit ho e, (he s.obs).trans ?_⟩
  rw [hw, State.setLvl_lvl, State.emit_lvl]

/-- The end of an operation drives no line. -/
theorem State.ObserverInv.conclude {s : State} (h : s.ObserverInv) (r : Result) :
    (s.conclude r).ObserverInv :=
  State.ObserverInv.emit (s := s.record r) (e := .done r) h (Observer.see_wire _ _)

theorem State.ObserverInv.modelFault {s : State} (h : s.ObserverInv) (f : ModelFault) :
    (s.modelFault f).ObserverInv :=
  State.ObserverInv.emit (s := { s with mfault := some f }) (e := .mfault f) h (Observer.see_wire _ _)

/-- Every ending of a micro-operation leaves the wire at the levels the block has commanded: a failed
request puts both at `X` (R91, R92). -/
theorem State.ObserverInv.issue {s : State} (h : s.ObserverInv) (m : MicroOp) :
    (s.issue m).state.ObserverInv := by
  rcases State.issue_cases s m with ⟨pc, pd, e⟩ | e | e | ⟨l, pin, x, -, e⟩ | ⟨l, lv, pin, x, -, e⟩ <;>
    rw [e, Issued.state]
  · cases m with
    | cfg l =>
      exact State.ObserverInv.emit (s := s.takeAnswer) (e := eventOf pc pd (.cfg l)) h
        (Observer.see_wire _ _)
    | set l lv =>
      exact State.ObserverInv.emit_setLvl (s := s.takeAnswer) (e := eventOf pc pd (.set l lv)) h
        (Observer.see_wire _ _)
    | wait n => exact h.emit (e := .wait n) (Observer.see_wire _ _)
  · exact h
  · exact h.modelFault _
  · exact State.ObserverInv.conclude (State.ObserverInv.emit_setLvl (s := s.takeAnswer)
      (e := .cfg l pin (.err x)) h (Observer.see_wire _ _)) _
  · exact State.ObserverInv.conclude (State.ObserverInv.emit_setLvl (s := s.takeAnswer)
      (e := .set l pin lv (.err x)) h (Observer.see_wire _ _)) _

/-- Settles O58: every event the block appends is read by the observer as it is appended, and drives the
line whose level the block records with it. -/
theorem stepKeepsObserverReplay : Obligations.StepKeepsObserverReplay := by
  intro s t h hst
  rcases step_cases hst with
    ⟨-, -, m, -, rfl⟩ | ⟨-, ⟨x, ha, -⟩ | ⟨-, rfl⟩ | ⟨-, -, -, k, op, ops, -, he⟩⟩
  · exact State.framing_keeps State.ObserverInv [m] (fun m _ s hs => hs.issue m)
      (fun s hs => hs.conclude .ok) (fun s f _ hs => hs.modelFault f) s h
  · obtain ⟨hnone, -⟩ := h
    cases hnone.symm.trans ha
  · exact h
  · exact State.hostOp_keeps State.ObserverInv op (s.dropRequest k) t (fun s hs => hs)
      (fun s hs => State.ObserverInv.emit (s := { s with cur := some op })
        (e := .accept op) hs (Observer.see_wire _ _))
      (fun s f hs _ => hs.modelFault f) (fun s o l hs => hs.conclude _) (fun s ms hs => hs)
      (fun s pc pd _ hs => hs) h he

/-! ### What every instruction keeps: each is made of the updates of the state -/

/-- A property of states that each update of the state keeps; the model fault is set only where there is
none (R32). An update that does not write the fields a property speaks of keeps it as it stands, so that a
proof names only those that do. -/
structure KeptByUpdates (P : State → Prop) : Prop where
  emit : ∀ e s, P s → P (s.emit e) := by exact fun _ _ h => h
  takeAnswer : ∀ s, P s → P s.takeAnswer := by exact fun _ h => h
  setCfg : ∀ l v s, P s → P (s.setCfg l v) := by exact fun _ _ _ h => h
  setLvl : ∀ l v s, P s → P (s.setLvl l v) := by exact fun _ _ _ h => h
  advance : ∀ s, P s → P s.advance := by exact fun _ h => h
  onDevice : ∀ f s, P s → P (s.onDevice f) := by exact fun _ _ h => h
  toIdle : ∀ s, P s → P s.toIdle := by exact fun _ h => h
  record : ∀ r s, P s → P (s.record r) := by exact fun _ _ h => h
  setFault : ∀ f s, s.mfault = none → P s → P { s with mfault := some f } := by exact fun _ _ _ h => h
  hold : ∀ op s, P s → P (s.hold op) := by exact fun _ _ h => h
  setCur : ∀ op s, P s → P { s with cur := some op } := by exact fun _ _ h => h
  load : ∀ ms s, P s → P (s.load ms) := by exact fun _ _ h => h
  bind : ∀ pc pd s, P s → P (s.bind pc pd) := by exact fun _ _ _ h => h
  dropArriving : ∀ s, P s → P s.dropArriving := by exact fun _ h => h
  dropRequest : ∀ k s, P s → P (s.dropRequest k) := by exact fun _ _ h => h

namespace KeptByUpdates

variable {P : State → Prop} (hP : KeptByUpdates P)
include hP

theorem conclude (r : Result) (s : State) (h : P s) : P (s.conclude r) :=
  hP.toIdle _ (hP.emit _ _ (hP.record r s h))

theorem modelFault (f : ModelFault) (s : State) (hm : s.mfault = none) (h : P s) :
    P (s.modelFault f) :=
  hP.toIdle _ (hP.emit _ _ (hP.setFault f s hm h))

theorem completed (pc pd : Pin) (m : MicroOp) (s : State) (h : P s) : P (s.completed pc pd m) := by
  cases m with
  | cfg l => exact hP.advance _ (hP.setCfg _ _ _ (hP.emit _ _ (hP.takeAnswer _ h)))
  | set l lv => exact hP.advance _ (hP.setLvl _ _ _ (hP.emit _ _ (hP.takeAnswer _ h)))
  | wait n => exact hP.advance _ (hP.emit _ _ h)

theorem issueAll (ms : List MicroOp) (s : State) (hm : s.mfault = none) (h : P s) :
    P (s.issueAll ms) := by
  induction ms generalizing s with
  | nil =>
    rw [State.issueAll, State.finish]
    split
    · exact hP.conclude .ok s h
    · exact h
  | cons m ms ih =>
    rcases State.issue_cases s m with
      ⟨pc, pd, e⟩ | e | e | ⟨l, pin, x, -, e⟩ | ⟨l, lv, pin, x, -, e⟩ <;>
      simp only [State.issueAll, e]
    · exact ih _ ((State.completed_spec pc pd m s).mfault.trans hm) (hP.completed pc pd m s h)
    · exact h
    · exact hP.modelFault _ s hm h
    · exact hP.conclude _ _ (hP.setLvl _ _ _ (hP.setCfg _ _ _ (hP.emit _ _ (hP.takeAnswer _ h))))
    · exact hP.conclude _ _ (hP.setLvl _ _ _ (hP.emit _ _ (hP.takeAnswer _ h)))

theorem framing (ms : List MicroOp) (s : State) (h : P s) : P (s.framing ms) := by
  unfold State.framing
  split
  · rename_i hm
    split
    · exact hP.issueAll ms s hm h
    · exact hP.issueAll ms s hm h
    · exact hP.modelFault _ s hm h
    · exact hP.modelFault _ s hm h
  · exact h

/-- Every instruction keeps what each update keeps. -/
theorem exec {i : Instr} {s t : State} (h : P s) (he : exec i s = .next t) : P t := by
  rcases exec_cases i with ⟨op, rfl⟩ | ⟨-, ms, hi⟩ | ⟨-, hi⟩
  · exact State.hostOp_keeps P op s t (hP.hold op) (fun s h => hP.emit _ _ (hP.setCur op s h))
      (fun s f h hm => hP.modelFault f s hm h) (fun s o l h => hP.conclude _ s h)
      (fun s ms h => hP.load ms s h) (fun s pc pd _ h => hP.bind pc pd s h) h he
  · obtain rfl := Host.Outcome.next.inj ((hi s).symm.trans he)
    exact hP.framing ms s h
  · obtain rfl := Host.Outcome.next.inj ((hi s).symm.trans he)
    exact hP.onDevice _ s h

/-- Every step keeps what each update keeps. -/
theorem step {s t : State} (h : P s) (hst : step s = .next t) : P t := by
  rcases step_cases hst with
    ⟨-, -, m, -, rfl⟩ | ⟨-, ⟨x, -, rfl⟩ | ⟨-, rfl⟩ | ⟨-, -, -, k, op, ops, -, he⟩⟩
  · exact hP.framing [m] s h
  · exact hP.onDevice _ _ (hP.dropArriving s h)
  · exact h
  · exact hP.exec (hP.dropRequest k s h) he

end KeptByUpdates

/-- The history begins with what it was (R33). -/
theorem keptByUpdates_hist (hist : List Event) :
    KeptByUpdates (fun t => ∃ es, t.hist = hist ++ es) where
  emit e _ := fun ⟨es, h⟩ => ⟨es ++ [e], by rw [State.emit_hist, h, List.append_assoc]⟩

/-- A mark that is set stays set: `record` alone writes `tx_fault_seen`, and never clears it (R30). -/
theorem keptByUpdates_txFaultSeen : KeptByUpdates (fun t => t.txFaultSeen = true) where
  record r _ h := by cases r <;> simp [txMark, h]

theorem keptByUpdates_cfgFaultSeen : KeptByUpdates (fun t => t.cfgFaultSeen = true) where
  record r _ h := by cases r <;> simp [cfgMark, h]

/-- A model fault is set only where there is none, so it stays the one it is (R32). -/
theorem keptByUpdates_mfault (f : ModelFault) : KeptByUpdates (fun t => t.mfault = some f) where
  setFault _ _ hn h := by cases hn.symm.trans h

theorem keptByUpdates_params (c : Cfg) : KeptByUpdates (fun t => t.params = c) := {}

/-- Settles O49: every update leaves the history or appends one event to it. -/
theorem historyOnlyGrows : Obligations.HistoryOnlyGrows := fun _ s _ he =>
  (keptByUpdates_hist s.hist).exec ⟨[], (List.append_nil _).symm⟩ he

/-- Settles O50: the marks are written by `record` and by a model fault alone. -/
theorem marksAreSticky : Obligations.MarksAreSticky := fun _ _ _ he =>
  ⟨fun h => keptByUpdates_txFaultSeen.exec h he, fun h => keptByUpdates_cfgFaultSeen.exec h he,
    fun f h => (keptByUpdates_mfault f).exec h he⟩

/-- Settles O51: no update writes the configuration. -/
theorem configurationIsNeverWritten : Obligations.ConfigurationIsNeverWritten :=
  ⟨fun _ s _ he => (keptByUpdates_params s.params).exec rfl he,
    fun s _ he => (keptByUpdates_params s.params).step rfl he⟩

/-! ### The block never reads the observer (R38, R130) -/

/-- `s` with another observer. -/
def State.withObs (o : Observer) (s : State) : State := { s with obs := o }

theorem State.withObs_session (o : Observer) (s : State) : (s.withObs o).session = s.session := rfl
theorem State.withObs_phase (o : Observer) (s : State) : (s.withObs o).phase = s.phase := rfl
theorem State.withObs_mfault (o : Observer) (s : State) : (s.withObs o).mfault = s.mfault := rfl

/-- An operation on the state whose result, but for the observer in it, is the same whatever the observer
was. -/
def IgnoresObs (f : State → State) : Prop :=
  ∀ s o, ∃ p, f (s.withObs o) = (f s).withObs p

theorem IgnoresObs.comp {f g : State → State} (hg : IgnoresObs g) (hf : IgnoresObs f) :
    IgnoresObs (fun s => g (f s)) := fun s o => by
  obtain ⟨p, hp⟩ := hf s o
  obtain ⟨q, hq⟩ := hg (f s) p
  exact ⟨q, (congrArg g hp).trans hq⟩

theorem ignoresObs_conclude (r : Result) : IgnoresObs (State.conclude r) := fun _ _ => ⟨_, rfl⟩
theorem ignoresObs_modelFault (f : ModelFault) : IgnoresObs (State.modelFault f) :=
  fun _ _ => ⟨_, rfl⟩
theorem ignoresObs_latch (op : Op) : IgnoresObs (State.latch op) := fun _ _ => ⟨_, rfl⟩
theorem ignoresObs_id : IgnoresObs (fun s => s) := fun _ o => ⟨o, rfl⟩
theorem ignoresObs_hold (op : Op) : IgnoresObs (State.hold op) := fun _ _ => ⟨_, rfl⟩
theorem ignoresObs_onDevice (f : Device → Device) : IgnoresObs (State.onDevice f) :=
  fun _ _ => ⟨_, rfl⟩

/-- A choice by a condition on the rest of the state. -/
theorem IgnoresObs.ite {c : State → Prop} [DecidablePred c] {f g : State → State}
    (hc : ∀ s o, c (s.withObs o) ↔ c s) (hf : IgnoresObs f) (hg : IgnoresObs g) :
    IgnoresObs (fun s => if c s then f s else g s) := fun s o => by
  by_cases h : c s
  · simpa only [hc, h, if_true] using hf s o
  · simpa only [hc, h, if_false] using hg s o

theorem ignoresObs_finish : IgnoresObs State.finish :=
  .ite (c := fun s => s.phase = .run ∧ s.useq.length ≤ s.mpc) (fun _ _ => Iff.rfl)
    (ignoresObs_conclude .ok) ignoresObs_id

/-- The issue of a micro-operation ends the same way whatever the observer was. -/
theorem ignoresObs_issue (m : MicroOp) (s : State) (o : Observer) :
    ∃ t p, (s.issue m = .completed t ∧ (s.withObs o).issue m = .completed (t.withObs p)) ∨
      (s.issue m = .stopped t ∧ (s.withObs o).issue m = .stopped (t.withObs p)) := by
  have hpin : ∀ l, (s.withObs o).pinOf l = s.pinOf l := fun l => by cases l <;> rfl
  have hans : (s.withObs o).portAnswer = s.portAnswer := rfl
  cases m with
  | cfg l =>
    simp only [State.issue, State.issueCfg, hpin, hans]
    split
    · exact ⟨_, _, .inr ⟨rfl, rfl⟩⟩
    · split
      · exact ⟨_, _, .inr ⟨rfl, rfl⟩⟩
      · exact ⟨_, _, .inl ⟨rfl, rfl⟩⟩
      · exact ⟨_, _, .inr ⟨rfl, rfl⟩⟩
  | set l lv =>
    simp only [State.issue, State.issueSet, hpin, hans]
    split
    · exact ⟨_, _, .inr ⟨rfl, rfl⟩⟩
    · split
      · exact ⟨_, _, .inr ⟨rfl, rfl⟩⟩
      · exact ⟨_, _, .inl ⟨rfl, rfl⟩⟩
      · exact ⟨_, _, .inr ⟨rfl, rfl⟩⟩
  | wait n => exact ⟨_, _, .inl ⟨rfl, rfl⟩⟩

theorem ignoresObs_issueAll (ms : List MicroOp) : IgnoresObs (State.issueAll ms) := by
  induction ms with
  | nil => exact ignoresObs_finish
  | cons m ms ih =>
    intro s o
    obtain ⟨t, p, ⟨h, h'⟩ | ⟨h, h'⟩⟩ := ignoresObs_issue m s o <;>
      simp only [State.issueAll, h, h']
    · exact ih t p
    · exact ⟨p, rfl⟩

theorem ignoresObs_framing (ms : List MicroOp) : IgnoresObs (State.framing ms) := by
  intro s o
  unfold State.framing
  rw [State.withObs_mfault, State.withObs_phase, State.withObs_session]
  split
  · split
    · exact ignoresObs_issueAll ms s o
    · exact ignoresObs_issueAll ms s o
    · exact ignoresObs_modelFault _ s o
    · exact ignoresObs_modelFault _ s o
  · exact ⟨o, rfl⟩

theorem ignoresObs_request (op : Op) {body : State → State} (hb : IgnoresObs body) :
    IgnoresObs (State.request op body) := by
  have haccept : IgnoresObs (State.accept op body) := by
    intro s o
    unfold State.accept
    rw [State.withObs_session]
    split
    · exact ((ignoresObs_modelFault _).comp (ignoresObs_latch op)) s o
    · split
      · exact (hb.comp (ignoresObs_latch op)) s o
      · exact ((ignoresObs_modelFault _).comp (ignoresObs_latch op)) s o
    · exact (hb.comp (ignoresObs_latch op)) s o
  exact .ite (c := fun s => s.phase = .idle ∧ s.mfault = none) (fun _ _ => Iff.rfl) haccept
    (ignoresObs_hold op)

theorem ignoresObs_startInit (pc pd : Pin) : IgnoresObs (startInit pc pd) :=
  .ite (c := fun _ => pc = pd) (fun _ _ => Iff.rfl) (ignoresObs_modelFault _)
    (.ite (c := fun s => s.session = .ready ∧ (some pc, some pd) ≠ (s.clkPin, s.dinPin))
      (fun _ _ => Iff.rfl) (ignoresObs_modelFault _) fun _ _ => ⟨_, rfl⟩)

theorem ignoresObs_startWrite (bytes : List Byte) (offset : Nat) :
    IgnoresObs (startWrite bytes offset) :=
  .ite (c := fun _ => inRange offset bytes.length = true) (fun _ _ => Iff.rfl)
    (fun _ _ => ⟨_, rfl⟩) (ignoresObs_conclude _)

theorem ignoresObs_startControl (b : Int) : IgnoresObs (startControl b) := fun _ _ => ⟨_, rfl⟩

/-- Every instruction is an operation on the state that ignores the observer. -/
theorem exec_ignoresObs (i : Instr) :
    ∃ f : State → State, IgnoresObs f ∧ ∀ s, exec i s = .next (f s) := by
  rcases exec_cases i with ⟨op, rfl⟩ | ⟨-, ms, h⟩ | ⟨-, h⟩
  · cases op with
    | initSession pc pd => exact ⟨_, ignoresObs_request _ (ignoresObs_startInit pc pd), fun _ => rfl⟩
    | writeDisplayMemory bytes offset =>
      exact ⟨_, ignoresObs_request _ (ignoresObs_startWrite bytes offset), fun _ => rfl⟩
    | setDisplayControl b =>
      exact ⟨_, ignoresObs_request _ (ignoresObs_startControl b), fun _ => rfl⟩
  · exact ⟨_, ignoresObs_framing ms, h⟩
  · exact ⟨_, ignoresObs_onDevice _, h⟩

/-- Settles O53: the branches of every operation read the rest of the state alone. -/
theorem blockNeverReadsObserver : Obligations.BlockNeverReadsObserver := by
  intro i s o t he
  obtain ⟨f, hf, hi⟩ := exec_ignoresObs i
  obtain ⟨p, hp⟩ := hf s o
  obtain rfl := Host.Outcome.next.inj ((hi s).symm.trans he)
  exact ⟨p, (hi _).trans (congrArg _ hp)⟩

/-! ### The positions of a transaction (R28) -/

/-- Parts of one length `n`, one after another: position `n j + k` is position `k` of part `j`. -/
theorem getElem?_flatMap_of_length {α β : Type} {f : α → List β} {n : Nat}
    (hf : ∀ a, (f a).length = n) {l : List α} {j k : Nat} {a : α} (hj : l[j]? = some a)
    (hk : k < n) : (l.flatMap f)[n * j + k]? = (f a)[k]? := by
  induction l generalizing j with
  | nil => cases hj
  | cons b l ih =>
    rw [List.flatMap_cons]
    cases j with
    | zero =>
      obtain rfl : b = a := by simpa using hj
      rw [Nat.mul_zero, Nat.zero_add, List.getElem?_append_left (by rw [hf]; exact hk)]
    | succ j =>
      rw [List.getElem?_append_right (by rw [hf, Nat.mul_succ]; omega), hf,
        show n * (j + 1) + k - n = n * j + k by rw [Nat.mul_succ]; omega]
      exact ih (by simpa using hj)

theorem Byte.wireBits_getElem? (b : Byte) {i : Nat} (hi : i < 8) :
    (Byte.wireBits b)[i]? = some (Byte.bitLevel b i) := by
  interval_cases i <;> rfl

/-- Bit `i` of a byte occupies its six positions from `6 i` (R98, R99). -/
theorem Framing.sendSeq_getElem? (b : Byte) {i r : Nat} (hi : i < 8) (hr : r < 6) :
    (Framing.sendSeq b)[6 * i + r]? = (Framing.bitSeq (Byte.bitLevel b i))[r]? :=
  getElem?_flatMap_of_length (f := Framing.bitSeq) (n := 6) (fun _ => rfl)
    (Byte.wireBits_getElem? b hi) hr

/-- Settles O11: the four parts of a transaction by their lengths 4, 48 a byte, 6 a bit, and 6. -/
theorem transactionPositions : Obligations.TransactionPositions := by
  intro bytes
  have hbytes := Framing.bytes_length bytes
  have hbegin : Framing.beginSeq.length = 4 := rfl
  have hpre : (Framing.beginSeq ++ bytes.flatMap Framing.sendSeq).length = 4 + 48 * bytes.length := by
    rw [List.length_append, hbegin, hbytes]
  refine ⟨fun p hp => ?_, fun j i r b hj hi hr => ?_, fun p hp => ?_, fun p hp => ?_⟩
  · rw [Framing.txnSeq, List.append_assoc, List.getElem?_append_left (by omega)]
  · have hlt : j < bytes.length := (List.getElem?_eq_some_iff.1 hj).1
    rw [Framing.txnSeq, List.getElem?_append_left (by omega),
      List.getElem?_append_right (by omega), hbegin,
      show 4 + 48 * j + 6 * i + r - 4 = 48 * j + (6 * i + r) by omega,
      getElem?_flatMap_of_length Framing.sendSeq_length hj (by omega)]
    exact Framing.sendSeq_getElem? b hi hr
  · rw [Framing.txnSeq, List.getElem?_append_right (by omega), hpre, Nat.add_sub_cancel_left]
  · exact List.getElem?_eq_none (by rw [Framing.txnSeq_length]; exact hp)

/-! ### One micro-operation the port answers `ok` (R91, R92) -/

/-- A request the port answers `ok` completes, and the end of the operation is checked (R89). -/
theorem exec_request_completes {pc pd : Pin} {s : State} (hi : s.IssuesOn pc pd)
    (ha : s.portAnswer = .ok) {m : MicroOp} (hu : m.uses = 1) :
    ∃ t, exec m.toInstr s = .next t ∧
      s.CompletedTo 1 1 [eventOf pc pd m] (levelsAfter [m] s.lvl) (cfgsAfter [m] s.lineCfg) t := by
  have huses : usesOf [m] = 1 := by rw [usesOf_cons, hu, usesOf_nil]
  have hclean : s.CleanFor (usesOf [m]) := fun k hk => by
    obtain rfl : k = 0 := by omega
    exact ha
  refine ⟨_, exec_micro m s, ?_⟩
  rw [State.framing_completes hi [m] hclean]
  exact State.completedTo [m] rfl huses (by rw [eventsOf_eq_map, List.map_singleton]) rfl rfl

/-- Settles O21: a `CFG` is one request, and writes the configuration record of its line. -/
theorem configureCompletes : Obligations.ConfigureCompletes := fun _ _ l _ hi ha =>
  exec_request_completes hi ha (m := .cfg l) rfl

/-- Settles O23: a `SET` is one request, and writes the level of its line. -/
theorem setCompletes : Obligations.SetCompletes := fun _ _ l lv _ hi ha =>
  exec_request_completes hi ha (m := .set l lv) rfl

/-! ### What a step runs (R32, R57, R88, R89) -/

/-- A wire byte form acts on the device model alone (R158). -/
theorem exec_wireByte {i : Instr} (h : i.isWireByte = true) (s : State) :
    exec i s = .next (s.onDevice (Device.take i)) := by
  rcases exec_cases i with ⟨op, rfl⟩ | ⟨h', -⟩ | ⟨-, hx⟩
  · cases op <;> cases h
  · cases h.symm.trans h'
  · exact hx s

/-- Outside an operation a step runs what is fetched there. -/
theorem fetch_outside {s : State} (h : ¬ (s.phase = .run ∧ s.mfault = none)) :
    s.fetch = s.fetchOutside := if_neg h

/-- With no lone byte, and no request that may be taken, nothing changes. -/
theorem step_nothing {s : State} (ha : s.arriving = none)
    (h : s.mfault ≠ none ∨ (s.phase = .idle ∧ s.waiting = [])) : step s = .next s := by
  have hout : s.fetchOutside = .nothing := by
    rw [State.fetchOutside, ha]
    rcases h with hm | ⟨-, hw⟩
    · simp only [hm, if_false]
    · simp [State.fetchRequest, hw]
  have hn : ¬ (s.phase = .run ∧ s.mfault = none) := by
    rintro ⟨hp, hm⟩
    rcases h with h | ⟨h, -⟩
    · exact h hm
    · cases hp.symm.trans h
  rw [step, fetch_outside hn, hout]

/-- Settles O47: a step changes nothing, so no number of steps does. -/
theorem modelFaultIsQuiescent : Obligations.ModelFaultIsQuiescent := by
  intro s k hm ha
  induction k with
  | zero => exact State.Reaches.refl s
  | succ k ih => exact State.Reaches.head (step_nothing ha (.inl hm)) ih

/-- Settles O45: one clause for each kind of thing a step fetches. -/
theorem stepRunsFetchedInstruction : Obligations.StepRunsFetchedInstruction := by
  refine ⟨fun s m hm hp hu => ?_, fun s pos b i r hn ha hd => ?_, fun s pos b e hn ha hd => ?_,
    fun s op ops ha hm hp hc => ?_, fun s ha h => step_nothing ha h⟩
  · rw [step_micro hm hp hu, exec_micro]
  · simp only [step, fetch_outside hn, State.fetchOutside, ha, State.fetchByte, hd]
    rfl
  · simp only [step, fetch_outside hn, State.fetchOutside, ha, State.fetchByte, hd]
    rfl
  · have hn : ¬ (s.phase = .run ∧ s.mfault = none) := fun ⟨hr, _⟩ => by cases hp.symm.trans hr
    have hw : s.waiting = [op :: ops] := by simp [State.waiting, hc]
    have hnext : s.nextCaller = 0 := by simp [State.nextCaller, hw]
    have hdrop : s.dropRequest 0 = { s with callers := if ops.isEmpty then [] else [ops] } := by
      cases ops <;> simp [State.dropRequest, hw]
    simp only [step, fetch_outside hn, State.fetchOutside, ha, hm, if_true, State.fetchRequest, hnext,
      hw, List.getElem?_cons_zero, hdrop]

/-! ### Held requests, faults outside a session, wire bytes, reset -/

/-- Settles O19: acceptance asks for an idle block without model fault. -/
theorem requestInRunIsHeld : Obligations.RequestInRunIsHeld := by
  intro op s h
  have hold : ∀ body, s.request op body = s.hold op := fun body => if_neg fun ⟨hp, hm⟩ => by
    rcases h with h | h
    · cases h.symm.trans hp
    · exact h hm
  cases op with
  | initSession pc pd => exact congrArg _ (hold _)
  | writeDisplayMemory bytes offset => exact congrArg _ (hold _)
  | setDisplayControl b => exact congrArg _ (hold _)

/-- Settles O27: the list of micro-operations is not reached. -/
theorem framingOutsideSessionFaults : Obligations.FramingOutsideSessionFaults := by
  intro i s hi
  obtain ⟨ms, he⟩ : ∃ ms, exec i s = .next (s.framing ms) := by
    rcases hi with rfl | ⟨_, rfl⟩ | ⟨_, rfl⟩ | rfl | ⟨_, rfl⟩ | ⟨_, rfl⟩ | ⟨_, _, rfl⟩ | ⟨_, rfl⟩ <;>
      exact ⟨_, rfl⟩
  refine ⟨fun hm => ?_, fun f hm hp hs => ?_⟩
  · rw [he, State.framing, if_neg hm]
  · have hfault : s.framing ms = s.modelFault f := by
      rw [State.framing, if_pos hm, hp]
      rcases hs with ⟨hs, rfl⟩ | ⟨hs, rfl⟩ <;> rw [hs]
    rw [he, hfault]
    rfl

/-- Settles O44: the effect of a wire byte form is on the device model, and only the payload byte and the
offset-16 byte touch its memory. -/
theorem wireByteFrame : Obligations.WireByteFrame := by
  intro i s t hw he
  obtain rfl := Host.Outcome.next.inj ((exec_wireByte hw s).symm.trans he)
  refine ⟨rfl, fun h16 hdata a => ?_⟩
  have hmem : (s.obs.dev.take i).mem = s.obs.dev.mem := by
    cases i with
    | addrByte16 => exact absurd rfl h16
    | dataByte d => exact absurd rfl (hdata d)
    | _ => rfl
  exact congrArg (Memory.read · a) hmem

/-- Settles O55: after reset nothing runs, nothing is bound, and the history is empty. -/
theorem resetMeetsInvariants : Obligations.ResetMeetsInvariants := by
  have hp : State.reset.phase = .idle := rfl
  refine ⟨.of_idle hp ⟨rfl, rfl, rfl, fun _ => ⟨rfl, rfl⟩, fun h => absurd rfl h, fun h => ?_⟩ ?_,
    ⟨rfl, rfl, rfl⟩, Memory.wf_nil, .of_idle hp (fun g hg => ?_) (.inl rfl)⟩
  · cases h
  · exact fun h => by cases h
  · cases hg

end Sys2Proof.Machine

/-! ## Proofs: the display memory, the payload and the framing primitives (20_memory.md)

First what the framing layer appends to the history and what the observer makes of it; then the
completion of the primitives, the payload in the display memory, and what framing leaves unchanged. -/

namespace Sys2Proof.Machine

/-! ### What the framing layer appends (R33, R56) -/

/-- `t` is `s` with events appended that the observer has read, none of them an `accept`. -/
def State.Emitted (s t : State) : Prop :=
  ∃ es, (∀ op, Event.accept op ∉ es) ∧ t.params = s.params ∧ t.hist = s.hist ++ es ∧
    t.obs = es.foldl (fun o e => o.see s.params e) s.obs

theorem State.Emitted.of_eq {s t : State} (hp : t.params = s.params) (hh : t.hist = s.hist)
    (ho : t.obs = s.obs) : s.Emitted t :=
  ⟨[], fun _ => List.not_mem_nil, hp, by rw [hh, List.append_nil], ho⟩

theorem State.Emitted.trans {s t u : State} (h : s.Emitted t) (h' : t.Emitted u) : s.Emitted u := by
  obtain ⟨es, ha, hp, hh, ho⟩ := h
  obtain ⟨fs, ha', hp', hh', ho'⟩ := h'
  refine ⟨es ++ fs, fun op hm => ?_, hp'.trans hp, ?_, ?_⟩
  · exact (List.mem_append.1 hm).elim (ha op) (ha' op)
  · rw [hh', hh, List.append_assoc]
  · rw [ho', ho, hp, List.foldl_append]

theorem State.emitted_emit (s : State) {e : Event} (he : ∀ op, e ≠ .accept op) :
    s.Emitted (s.emit e) :=
  ⟨[e], fun op h => he op (List.mem_singleton.1 h).symm, rfl, rfl, rfl⟩

theorem State.emitted_conclude (r : Result) (s : State) : s.Emitted (s.conclude r) :=
  State.emitted_emit (s.record r) (e := .done r) fun _ => Event.noConfusion

theorem State.emitted_modelFault (f : ModelFault) (s : State) : s.Emitted (s.modelFault f) :=
  State.emitted_emit { s with mfault := some f } (e := .mfault f) fun _ => Event.noConfusion

theorem State.emitted_completed (pc pd : Pin) (m : MicroOp) (s : State) :
    s.Emitted (s.completed pc pd m) := by
  have h := State.completed_spec pc pd m s
  refine ⟨eventsOf pc pd [m], fun op hm => ?_, h.params, h.hist, h.obs⟩
  rw [eventsOf_eq_map, List.map_singleton, List.mem_singleton] at hm
  cases m <;> cases hm

theorem State.emitted_issue (m : MicroOp) (s : State) : s.Emitted (s.issue m).state := by
  rcases State.issue_cases s m with
    ⟨pc, pd, e⟩ | e | e | ⟨l, pin, x, -, e⟩ | ⟨l, lv, pin, x, -, e⟩ <;> rw [e, Issued.state]
  · exact State.emitted_completed pc pd m s
  · exact .of_eq rfl rfl rfl
  · exact State.emitted_modelFault _ s
  · have h : s.Emitted (((s.takeAnswer.emit (.cfg l pin (.err x))).setCfg l .x).setLvl l .x) :=
      State.emitted_emit s.takeAnswer fun _ => Event.noConfusion
    rw [State.abort]
    exact h.trans (State.emitted_conclude _ _)
  · have h : s.Emitted ((s.takeAnswer.emit (.set l pin lv (.err x))).setLvl l .x) :=
      State.emitted_emit s.takeAnswer fun _ => Event.noConfusion
    rw [State.abort]
    exact h.trans (State.emitted_conclude _ _)

/-- Whatever a list of micro-operations does, it accepts nothing and feeds the observer alone. -/
theorem State.framing_emitted (ms : List MicroOp) (s : State) : s.Emitted (s.framing ms) :=
  State.framing_keeps s.Emitted ms (fun m _ t h => h.trans (State.emitted_issue m t))
    (fun t h => h.trans (State.emitted_conclude .ok t))
    (fun t f _ h => h.trans (State.emitted_modelFault f t)) s (.of_eq rfl rfl rfl)

/-- Settles O48: a step from RUN issues a micro-operation, or the block is quiescent after a model
fault. -/
theorem runAcceptsNothing : Obligations.RunAcceptsNothing := by
  intro s t hp hst
  have hsame : s.hist = s.hist ++ [] := (List.append_nil _).symm
  rcases step_cases hst with
    ⟨-, -, m, -, rfl⟩ | ⟨-, ⟨x, -, rfl⟩ | ⟨-, rfl⟩ | ⟨-, -, hidle, -⟩⟩
  · obtain ⟨es, ha, -, hh, -⟩ := s.framing_emitted [m]
    exact ⟨es, hh, ha⟩
  · exact ⟨[], hsame, fun _ => List.not_mem_nil⟩
  · exact ⟨[], hsame, fun _ => List.not_mem_nil⟩
  · cases hp.symm.trans hidle

/-! ### The display memory stays canonical (R48, R49) -/

theorem Observer.wf_foldl_see (c : Cfg) (es : List Event) (o : Observer)
    (h : Memory.wf o.dev.mem) : Memory.wf (es.foldl (fun o e => o.see c e) o).dev.mem := by
  induction es generalizing o with
  | nil => exact h
  | cons e es ih => exact ih _ (Observer.wf_see c e o h)

theorem State.Emitted.memoryInv {s t : State} (h : s.Emitted t) (hm : s.MemoryInv) :
    t.MemoryInv := by
  obtain ⟨es, -, -, -, ho⟩ := h
  rw [State.MemoryInv, ho]
  exact Observer.wf_foldl_see s.params es s.obs hm

/-- Settles O59: an operation in progress feeds the observer events, a lone byte acts as a wire byte, and
a request at the idle block drives no line. -/
theorem stepKeepsMemoryCanonical : Obligations.StepKeepsMemoryCanonical := by
  intro s t h hst
  rcases step_cases hst with
    ⟨-, -, m, -, rfl⟩ | ⟨-, ⟨x, -, rfl⟩ | ⟨-, rfl⟩ | ⟨-, -, -, k, op, ops, -, he⟩⟩
  · exact (s.framing_emitted [m]).memoryInv h
  · exact Device.wf_applyByte s.params s.obs.dev x h
  · exact h
  · exact State.hostOp_keeps State.MemoryInv op (s.dropRequest k) t (fun _ hs => hs)
      (fun _ hs => hs) (fun _ _ hs _ => hs) (fun s o l hs => Observer.wf_see s.params (.done _) s.obs hs)
      (fun _ _ hs => hs) (fun _ _ _ _ hs => hs) h he

/-! ### The framing primitives on a clean port (R98 to R102) -/

/-- A list of micro-operations that configures nothing completes where the port answers `ok`. -/
theorem State.exec_completes {pc pd : Pin} {s : State} (hi : s.IssuesOn pc pd) {i : Instr}
    {ms : List MicroOp} (he : exec i s = .next (s.framing ms)) (hc : s.CleanFor (usesOf ms)) :
    ∃ t, exec i s = .next t ∧ s.CompletedTo ms.length (usesOf ms) (eventsOf pc pd ms)
      (levelsAfter ms s.lvl) (cfgsAfter ms s.lineCfg) t :=
  ⟨_, he, by
    rw [State.framing_completes hi ms hc]
    exact State.completedTo ms rfl rfl rfl rfl rfl⟩

theorem Byte.bitLevel_known (b : Byte) (i : Nat) :
    (Byte.bitLevel b i).known = if b.getLsbD i then .high else .low := by
  unfold Byte.bitLevel
  cases b.getLsbD i <;> rfl

theorem Framing.sendSeq_cfgs (b : Byte) (p : PerLine KCfg) :
    cfgsAfter (Framing.sendSeq b) p = p := rfl

/-- Settles O29: the micro-operations of a bit and of a byte, one after another. -/
theorem bitAndByteComplete : Obligations.BitAndByteComplete := by
  refine ⟨fun pc pd v s hi hc => ?_, fun pc pd b s hi hc => ?_⟩
  · exact State.exec_completes hi (ms := Framing.bitSeq v) rfl hc
  · have h := State.exec_completes hi (i := .send b) (ms := Framing.sendSeq b) rfl
      (by rwa [Framing.sendSeq_usesOf])
    rwa [Framing.sendSeq_length, Framing.sendSeq_usesOf, Framing.sendSeq_events,
      Framing.sendSeq_levels, Framing.sendSeq_cfgs, Byte.bitLevel_known] at h

/-- Settles O30: start, bytes and stop, one after another. -/
theorem transactionCompletes : Obligations.TransactionCompletes := by
  intro pc pd bytes s hi hc
  have h := State.exec_completes hi (i := .txn bytes) (ms := Framing.txnSeq bytes) rfl
    (by rwa [Framing.txnSeq_usesOf])
  rwa [Framing.txnSeq_length, Framing.txnSeq_usesOf, Framing.txnSeq_events, Framing.txnSeq_levels,
    Framing.txnSeq_cfgs] at h

/-! ### A primitive and its micro-operations (R58, R89, R106) -/

theorem Framing.Alternates.cfgCount : ∀ {ms : List MicroOp},
    Framing.Alternates ms → cfgCount ms = 0
  | [], _ => rfl
  | .set _ _ :: .wait _ :: ms, h => Framing.Alternates.cfgCount (ms := ms) h

theorem Framing.bitSeq_alternates (v : Level) : Framing.Alternates (Framing.bitSeq v) := trivial

theorem Framing.sendSeq_alternates (b : Byte) : Framing.Alternates (Framing.sendSeq b) := by
  simpa using Framing.bytes_alternate [b]

/-- In RUN on a clean port, where the sequencer stands at the micro-operations `m :: ms`, executing them
one by one is issuing them in a row: before the last the operation does not end (R89). -/
theorem State.execEach_micros {pc pd : Pin} {s : State} (hi : s.IssuesOn pc pd)
    (hp : s.phase = .run) (m : MicroOp) (ms ns : List MicroOp)
    (hd : s.useq.drop s.mpc = m :: ms ++ ns) (hc : s.CleanFor (usesOf (m :: ms))) :
    execEach ((m :: ms).map MicroOp.toInstr) s = .next (s.framing (m :: ms)) := by
  induction ms generalizing s m with
  | nil => simp only [List.map_cons, List.map_nil, execEach, exec_micro]
  | cons m' ms ih =>
    rw [usesOf_cons] at hc
    have hm := hc.mono (Nat.le_add_right m.uses _)
    obtain ⟨hi', hp', hd', -, -⟩ := State.completed_run hi hp m (m' :: ms ++ ns) hd
    have hgo : s.framing [m] = s.completed pc pd m := by
      rw [State.framing_one hi m hm]
      refine State.finish_on fun ⟨_, hle⟩ => ?_
      rw [List.drop_eq_nil_of_le hle] at hd'
      cases hd'
    have hrest : s.framing (m :: m' :: ms) = (s.completed pc pd m).framing (m' :: ms) := by
      have ⟨_, _, hclk, hdin⟩ := hi
      rw [State.framing_issues hi, State.framing_issues hi', State.issueAll,
        State.issue_completes hclk hdin m hm]
    rw [List.map_cons, execEach, exec_micro, hgo, hrest]
    exact ih hi' hp' m' hd' (State.completed_clean hc)

/-- Each framing primitive issues its list of micro-operations, which is not empty and configures
nothing (R96 to R102). -/
theorem exec_primitive {i : Instr} {ms : List MicroOp}
    (h : (i = .beginTxn ∧ ms = Framing.beginSeq) ∨ (∃ v, i = .bit v ∧ ms = Framing.bitSeq v) ∨
      (∃ b, i = .send b ∧ ms = Framing.sendSeq b) ∨ (i = .endTxn ∧ ms = Framing.endSeq) ∨
      (∃ bs, i = .txn bs ∧ ms = Framing.txnSeq bs)) :
    (∀ s, exec i s = .next (s.framing ms)) ∧ ms ≠ [] ∧ Framing.Alternates ms := by
  rcases h with ⟨rfl, rfl⟩ | ⟨v, rfl, rfl⟩ | ⟨b, rfl, rfl⟩ | ⟨rfl, rfl⟩ | ⟨bs, rfl, rfl⟩
  · exact ⟨fun _ => rfl, List.cons_ne_nil _ _, trivial⟩
  · exact ⟨fun _ => rfl, List.cons_ne_nil _ _, Framing.bitSeq_alternates v⟩
  · exact ⟨fun _ => rfl, List.cons_ne_nil _ _, Framing.sendSeq_alternates b⟩
  · exact ⟨fun _ => rfl, List.cons_ne_nil _ _, trivial⟩
  · exact ⟨fun _ => rfl, List.cons_ne_nil _ _, Framing.txnSeq_alternates bs⟩

/-- Settles O32: the primitive issues the same micro-operations, and none before the last ends the
operation. -/
theorem primitiveIsItsMicroOperations : Obligations.PrimitiveIsItsMicroOperations := by
  intro pc pd i ms ns s hprim hi hp hd hc
  obtain ⟨he, hne, halt⟩ := exec_primitive hprim
  obtain ⟨m, ms, rfl⟩ := List.exists_cons_of_ne_nil hne
  have huses : usesOf (m :: ms) = setCount (m :: ms) := by
    rw [usesOf_eq, halt.cfgCount, Nat.zero_add]
  rw [he, State.execEach_micros hi hp m ms ns hd (by rwa [huses])]

/-! ### A waiting request is taken (R57) -/

/-- The chosen caller is one of those waiting. -/
theorem State.nextCaller_lt {s : State} (h : s.waiting ≠ []) : s.nextCaller < s.waiting.length := by
  have hpos := List.length_pos_of_ne_nil h
  unfold State.nextCaller
  split
  · exact hpos
  · exact Nat.mod_lt _ hpos

/-- A waiting caller has a first request. -/
theorem State.waiting_getElem? {s : State} {k : Nat} (h : k < s.waiting.length) :
    ∃ op ops, s.waiting[k]? = some (op :: ops) := by
  have hmem : s.waiting[k] ∈ s.waiting := List.getElem_mem h
  have hne : s.waiting[k] ≠ [] := by
    simpa using (List.mem_filter.1 hmem).2
  obtain ⟨op, ops, hk⟩ := List.exists_cons_of_ne_nil hne
  exact ⟨op, ops, by rw [List.getElem?_eq_getElem h, hk]⟩

/-- Taking the request of caller `k` leaves every other caller's as they were. -/
theorem State.dropRequest_eq {s : State} {k : Nat} {op : Op} {ops : List Op}
    (h : s.waiting[k]? = some (op :: ops)) :
    s.dropRequest k = { s with
      callers := (s.waiting.take k ++ [ops] ++ s.waiting.drop (k + 1)).filter (fun c => !c.isEmpty)
      admitted := (s.dropRequest k).admitted } := by
  obtain ⟨hk, hget⟩ := List.getElem?_eq_some_iff.1 h
  have hmod : s.waiting.modify k List.tail =
      s.waiting.take k ++ [ops] ++ s.waiting.drop (k + 1) := by
    rw [List.modify_eq_take_cons_drop hk, hget]
    simp
  simp only [State.dropRequest, hmod]

/-- Settles O46: whichever caller is chosen, it is waiting, and its first request is run. -/
theorem idleAdmitsOneWaitingRequest : Obligations.IdleAdmitsOneWaitingRequest := by
  intro s ha hm hp hw
  obtain ⟨op, ops, hk⟩ := State.waiting_getElem? (State.nextCaller_lt hw)
  have hn : ¬ (s.phase = .run ∧ s.mfault = none) := fun ⟨hr, _⟩ => by cases hp.symm.trans hr
  refine ⟨s.nextCaller, op, ops, hk, (s.dropRequest s.nextCaller).admitted, ?_⟩
  rw [← State.dropRequest_eq hk]
  simp only [step, fetch_outside hn, State.fetchOutside, ha, hm, if_true, State.fetchRequest, hk]

/-! ### A payload byte in the display memory (R51, R74, R158) -/

/-- With auto-increment on and the pointer at a slot, the byte is stored there and the pointer moves
on. -/
theorem Device.takePayload_slot {d : Device} {q : Nat} (p : Byte) (ha : d.autoinc = some true)
    (hq : d.ptr = some q) (hlt : q < 16) :
    d.takePayload p = { d with mem := Memory.write d.mem q p, ptr := some (q + 1) } := by
  simp only [Device.takePayload, ha, hq, Config.memSlots, hlt, if_true]

/-- Otherwise nothing is known of the device any more. -/
theorem Device.takePayload_lost {d : Device} (p : Byte)
    (h : d.autoinc ≠ some true ∨ d.ptr = none ∨ ∃ q, d.ptr = some q ∧ 16 ≤ q) :
    d.takePayload p = Device.unknown := by
  unfold Device.takePayload
  split
  · rename_i q ha hq
    refine if_neg fun (hlt : q < 16) => ?_
    rcases h with h | h | ⟨q', h, hge⟩
    · exact h ha
    · cases hq.symm.trans h
    · obtain rfl : q = q' := Option.some.inj (hq.symm.trans h)
      omega
  · rfl

/-- Settles O36: by whether the byte has a slot to go to. -/
theorem payloadByteIsStoredAtPointer : Obligations.PayloadByteIsStoredAtPointer := by
  intro d s
  refine ⟨_, rfl, rfl, fun q ha hq hlt => ?_, fun h => Device.takePayload_lost d h⟩
  rw [State.onDevice_obs]
  dsimp only
  rw [Device.takePayload_slot d ha hq hlt]
  refine ⟨?_, fun a hne => ?_, rfl, ha, rfl, rfl⟩ <;> rw [Memory.read_write]
  · exact if_pos rfl
  · exact if_neg hne.symm

/-! ### The payload of a transaction in the display memory (R51, R122, R158) -/

/-- The display memory after payload bytes stored from slot `q` onwards. -/
def Memory.writeFrom (m : Memory) (q : Nat) : List Byte → Memory
  | [] => m
  | p :: ps => Memory.writeFrom (Memory.write m q p) (q + 1) ps

theorem Memory.read_writeFrom_outside (m : Memory) (q : Nat) (ps : List Byte) (a : Nat)
    (h : a < q ∨ q + ps.length ≤ a) :
    Memory.read (Memory.writeFrom m q ps) a = Memory.read m a := by
  induction ps generalizing m q with
  | nil => rfl
  | cons p ps ih =>
    rw [List.length_cons] at h
    rw [Memory.writeFrom, ih _ _ (by omega), Memory.read_write, if_neg (by omega)]

theorem Memory.read_writeFrom_inside (m : Memory) (q : Nat) (ps : List Byte) {i : Nat} {b : Byte}
    (h : ps[i]? = some b) : Memory.read (Memory.writeFrom m q ps) (q + i) = some b := by
  induction ps generalizing m q i with
  | nil => cases h
  | cons p ps ih =>
    rw [Memory.writeFrom]
    cases i with
    | zero =>
      obtain rfl : p = b := by simpa using h
      rw [Memory.read_writeFrom_outside _ _ _ _ (by omega), Memory.read_write, if_pos (by omega)]
    | succ i =>
      rw [show q + (i + 1) = q + 1 + i by omega]
      exact ih _ _ (by simpa using h)

/-- Payload bytes that fit go to the slots from the pointer onwards, and the pointer moves past them. -/
theorem Device.takePayloads (ps : List Byte) {d : Device} {q : Nat} (ha : d.autoinc = some true)
    (hq : d.ptr = some q) (h : q + ps.length ≤ 16) :
    ps.foldl (fun e p => e.takePayload p) d =
      { d with mem := Memory.writeFrom d.mem q ps, ptr := some (q + ps.length) } := by
  induction ps generalizing d q with
  | nil =>
    rw [List.length_nil, Nat.add_zero, ← hq]
    rfl
  | cons p ps ih =>
    rw [List.length_cons] at h ⊢
    rw [List.foldl_cons, Device.takePayload_slot p ha hq (by omega),
      show q + (ps.length + 1) = q + 1 + ps.length by omega]
    exact ih (d := { d with mem := Memory.write d.mem q p, ptr := some (q + 1) }) ha rfl (by omega)

/-- The data-write transaction turns auto-increment on (R121). -/
theorem Device.applyBytes_dataWrite (c : Cfg) (d : Device) :
    d.applyBytes c [encDw c] = d.selectAutoinc := by
  simp only [Device.applyBytes, Device.applyTransaction, encDw, classify_dw]

/-- The address-set transaction of an offset up to 15 (R122), with auto-increment on. -/
theorem Device.applyBytes_address {c : Cfg} (hv : c.Valid) {offset : Nat} (ho : offset ≤ 15)
    (bytes : List Byte) (hlen : offset + bytes.length ≤ 16) {d : Device}
    (ha : d.autoinc = some true) :
    d.applyBytes c (encAs c offset :: bytes) =
      { d with
        mem := Memory.writeFrom d.mem offset bytes, ptr := some (offset + bytes.length) } := by
  have hnat : (BitVec.ofNat 4 offset).toNat = offset := by
    rw [BitVec.toNat_ofNat]
    exact Nat.mod_eq_of_lt (by omega)
  have hclass : classify c (encAs c offset) = .addr (BitVec.ofNat 4 offset) := by
    rw [← classify_addr c hv, ← encAs_eq, hnat]
  simp only [Device.applyBytes, Device.applyTransaction, hclass]
  exact Device.takePayloads bytes (d := d.setPointer _) ha (congrArg some hnat) hlen

/-- A control byte of no command makes all device state unknown (R123, R159). -/
theorem Device.applyBytes_other {c : Cfg} {control : Byte} (h : classify c control = .other)
    (rest : List Byte) (d : Device) : d.applyBytes c (control :: rest) = Device.unknown := by
  simp only [Device.applyBytes, Device.applyTransaction, h]

/-! ### What the observer makes of many events (R152, R158, R163) -/

theorem Observer.foldl_see_follows (c : Cfg) (es : List Event) (o : Observer) :
    Observer.Follows c o (es.foldl (fun o e => o.see c e) o) := by
  induction es generalizing o with
  | nil => exact .of_same rfl rfl id
  | cons e es ih => exact (Observer.see_follows c e o).trans (ih _)

/-- In DESYNC nothing happens any more (R152). -/
theorem Observer.foldl_see_desync (c : Cfg) (es : List Event) {o : Observer} (h : o.dec = .desync) :
    (es.foldl (fun o e => o.see c e) o).dec = .desync ∧
      (es.foldl (fun o e => o.see c e) o).dev = o.dev := by
  obtain ⟨ts, -, -, hdesync⟩ := Observer.foldl_see_follows c es o
  obtain ⟨hdec, -, hdev⟩ := hdesync h
  exact ⟨hdec, hdev⟩

/-! ### A write, from its request to its end (R120 to R123, R129) -/

theorem writeSeq_length (c : Cfg) (bytes : List Byte) (offset : Nat) :
    (writeSeq c bytes offset).length = 116 + 48 * bytes.length := by
  rw [writeSeq, List.length_append, Framing.txnSeq_length, Framing.txnSeq_length,
    List.length_singleton, List.length_cons]
  omega

theorem writeSeq_usesOf (c : Cfg) (bytes : List Byte) (offset : Nat) :
    usesOf (writeSeq c bytes offset) = 58 + 24 * bytes.length := by
  rw [writeSeq, usesOf_append, Framing.txnSeq_usesOf, Framing.txnSeq_usesOf,
    List.length_singleton, List.length_cons]
  omega

theorem writeSeq_levels (c : Cfg) (bytes : List Byte) (offset : Nat) (p : PerLine KLevel) :
    levelsAfter (writeSeq c bytes offset) p = idleHigh := by
  rw [writeSeq, levelsAfter_append, Framing.txnSeq_levels]

theorem writeSeq_events (c : Cfg) (pc pd : Pin) (bytes : List Byte) (offset : Nat) :
    eventsOf pc pd (writeSeq c bytes offset) =
      txnEvents pc pd [encDw c] ++ txnEvents pc pd (encAs c offset :: bytes) := by
  rw [writeSeq, eventsOf_append, Framing.txnSeq_events, Framing.txnSeq_events]

/-- The state after the acceptance of a write in range (R120, R144). -/
def State.loadedWrite (bytes : List Byte) (offset : Nat) (s : State) : State :=
  (s.latch (.writeDisplayMemory bytes offset)).load (writeSeq s.params bytes offset)

theorem State.loadedWrite_params (bytes : List Byte) (offset : Nat) (s : State) :
    (s.loadedWrite bytes offset).params = s.params := rfl
theorem State.loadedWrite_obs (bytes : List Byte) (offset : Nat) (s : State) :
    (s.loadedWrite bytes offset).obs = { s.obs with inInit := false } := rfl

/-- At rest in READY a write in range is accepted and loaded (R118, R144). -/
theorem exec_write_loads {bytes : List Byte} {offset : Nat} {s : State} (hrest : s.Resting)
    (hs : s.session = .ready) (hlen : offset + bytes.length ≤ 16) :
    exec (.writeDisplayMemory bytes offset) s = .next (s.loadedWrite bytes offset) := by
  have hacc : s.request (.writeDisplayMemory bytes offset) (startWrite bytes offset) =
      startWrite bytes offset (s.latch (.writeDisplayMemory bytes offset)) := by
    obtain ⟨hp, hm⟩ := hrest
    rw [State.request, if_pos ⟨hp, hm⟩, State.accept, hs]
  have hload : startWrite bytes offset (s.latch (.writeDisplayMemory bytes offset)) =
      s.loadedWrite bytes offset := by
    rcases startWrite_cases bytes offset (s.latch (.writeDisplayMemory bytes offset)) with
      ⟨-, e⟩ | ⟨hgt, -⟩
    · exact e
    · omega
  exact congrArg Host.Outcome.next (hacc.trans hload)

/-- On a clean port the loaded write ends `OK`, a step for each micro-operation; the observer has read
the events of its two transactions and the `done` event (R89, R129, R166). -/
theorem State.loadedWrite_reaches {pc pd : Pin} {bytes : List Byte} {offset : Nat} {s : State}
    (hm : s.mfault = none) (hs : s.session = .ready) (hclk : s.clkPin = some pc)
    (hdin : s.dinPin = some pd) (hc : s.CleanFor (58 + 24 * bytes.length)) :
    ∃ t : State, (s.loadedWrite bytes offset).Reaches (116 + 48 * bytes.length) t ∧
      t.res = some .ok ∧ t.Resting ∧ t.session = .ready ∧ t.lvl = idleHigh ∧
      t.hist = s.hist ++ [.accept (.writeDisplayMemory bytes offset)] ++
        eventsOf pc pd (writeSeq s.params bytes offset) ++ [.done .ok] ∧
      t.obs = (eventsOf pc pd (writeSeq s.params bytes offset) ++ [Event.done .ok]).foldl
        (fun o e => Observer.see s.params e o) { s.obs with inInit := false } := by
  have hne : writeSeq s.params bytes offset ≠ [] :=
    List.ne_nil_of_length_pos (by rw [writeSeq_length]; omega)
  have hreach := State.reaches_ok (s := s.loadedWrite bytes offset) ⟨hm, .inl rfl, hclk, hdin⟩ rfl
    (writeSeq s.params bytes offset) List.drop_zero hne (by rwa [writeSeq_usesOf])
  have hdone := State.completedAll_spec pc pd (writeSeq s.params bytes offset)
    (s.loadedWrite bytes offset)
  rw [writeSeq_length] at hreach
  refine ⟨_, hreach, rfl, ⟨rfl, ?_⟩, ?_, ?_, ?_, ?_⟩
  · rw [State.conclude_mfault, hdone.mfault]
    exact hm
  · rw [State.conclude_session, hdone.cur, hdone.session]
    exact hs
  · rw [State.conclude_lvl, hdone.lvl, writeSeq_levels]
  · rw [State.conclude_hist, hdone.hist]
    rfl
  · rw [State.conclude_obs, hdone.obs, hdone.params, List.foldl_append, List.foldl_cons,
      List.foldl_nil, State.loadedWrite_params, State.loadedWrite_obs]

/-- What the observer makes of a write from IDLE on an idle-high wire: each transaction is applied whole
at its STOP (R155, R158). -/
theorem Observer.see_write (c : Cfg) (pc pd : Pin) (bytes : List Byte) (offset : Nat) {o : Observer}
    (hd : o.dec = .idle) (hw : o.wire = idleHigh) :
    ∃ ts, (eventsOf pc pd (writeSeq c bytes offset) ++ [Event.done .ok]).foldl (fun o e => o.see c e) o =
      { o with tokens := ts, dev := o.dev.selectAutoinc.applyBytes c (encAs c offset :: bytes) } := by
  simp only [writeSeq_events, List.foldl_append, List.foldl_cons, List.foldl_nil, Observer.see_txn, hd,
    hw, Device.applyBytes_dataWrite]
  exact ⟨_, Observer.see_done c .ok _ Decoder.noConfusion⟩

/-- Settles O40: acceptance loads the two transactions, each of their micro-operations is a step, and the
observer receives the transactions whole. -/
theorem writeReachesDisplayMemory : Obligations.WriteReachesDisplayMemory := by
  intro pc pd bytes offset s hrest hs hclk hdin hlen hclean
  have ⟨_, hm⟩ := hrest
  obtain ⟨t, hreach, hres, htrest, hsession, hlvl, hhist, hobs⟩ :=
    State.loadedWrite_reaches (offset := offset) hm hs hclk hdin hclean
  refine ⟨_, t, exec_write_loads hrest hs hlen, hreach, hres, htrest, hsession, hlvl, ?_,
    fun hd hw => ?_, fun hd => ?_⟩
  · rw [hhist, writeSeq_events, ← List.append_assoc]
  · obtain ⟨ts, hsee⟩ := Observer.see_write s.params pc pd bytes offset
      (o := { s.obs with inInit := false }) hd hw
    rw [hobs, hsee]
    refine ⟨hd, hw, fun hv ho => ?_, fun ho hother => ?_⟩
    · dsimp only
      rw [Device.applyBytes_address hv ho bytes hlen rfl]
      exact ⟨rfl, rfl, fun i b hb => Memory.read_writeFrom_inside _ _ _ hb,
        fun a ha => Memory.read_writeFrom_outside _ _ _ a ha, rfl, rfl⟩
    · subst ho
      exact Device.applyBytes_other hother _ _
  · rw [hobs]
    exact Observer.foldl_see_desync s.params _ (o := { s.obs with inInit := false }) hd

/-! ### What framing leaves unchanged (R54, R107) -/

/-- What the framing layer never writes, and the sequencer's registers, which it leaves or clears. -/
structure State.SameRequests (s t : State) : Prop where
  params : t.params = s.params
  clkPin : t.clkPin = s.clkPin
  dinPin : t.dinPin = s.dinPin
  callers : t.callers = s.callers
  admitted : t.admitted = s.admitted
  arriving : t.arriving = s.arriving
  useq : t.useq = s.useq ∨ t.useq = []
  cur : t.cur = s.cur ∨ t.cur = none

theorem State.SameRequests.trans {s t u : State} (h : s.SameRequests t) (h' : t.SameRequests u) :
    s.SameRequests u where
  params := h'.params.trans h.params
  clkPin := h'.clkPin.trans h.clkPin
  dinPin := h'.dinPin.trans h.dinPin
  callers := h'.callers.trans h.callers
  admitted := h'.admitted.trans h.admitted
  arriving := h'.arriving.trans h.arriving
  useq := h'.useq.elim (fun e => h.useq.imp e.trans e.trans) .inr
  cur := h'.cur.elim (fun e => h.cur.imp e.trans e.trans) .inr

theorem State.SameRequests.refl (s : State) : s.SameRequests s :=
  ⟨rfl, rfl, rfl, rfl, rfl, rfl, .inl rfl, .inl rfl⟩

theorem State.sameRequests_conclude (r : Result) (s : State) : s.SameRequests (s.conclude r) :=
  ⟨rfl, rfl, rfl, rfl, rfl, rfl, .inr rfl, .inr rfl⟩

theorem State.sameRequests_modelFault (f : ModelFault) (s : State) :
    s.SameRequests (s.modelFault f) :=
  ⟨rfl, rfl, rfl, rfl, rfl, rfl, .inr rfl, .inr rfl⟩

theorem State.sameRequests_issue (m : MicroOp) (s : State) : s.SameRequests (s.issue m).state := by
  rcases State.issue_cases s m with
    ⟨pc, pd, e⟩ | e | e | ⟨l, pin, x, -, e⟩ | ⟨l, lv, pin, x, -, e⟩ <;> rw [e, Issued.state]
  · have h := State.completed_spec pc pd m s
    exact ⟨h.params, h.clkPin, h.dinPin, h.callers, h.admitted, h.arriving, .inl h.useq, .inl h.cur⟩
  · exact .refl s
  · exact State.sameRequests_modelFault _ s
  · rw [State.abort]
    constructor <;> simp
  · rw [State.abort]
    constructor <;> simp

theorem State.framing_sameRequests (ms : List MicroOp) (s : State) :
    s.SameRequests (s.framing ms) :=
  State.framing_keeps s.SameRequests ms (fun m _ t h => h.trans (State.sameRequests_issue m t))
    (fun t h => h.trans (State.sameRequests_conclude .ok t))
    (fun t f _ h => h.trans (State.sameRequests_modelFault f t)) s (.refl s)

/-- Where no line is configured the configuration records stay (R91). -/
theorem State.framing_lineCfg {ms : List MicroOp} (hms : ∀ l, MicroOp.cfg l ∉ ms) (s : State) :
    (s.framing ms).lineCfg = s.lineCfg := by
  refine State.framing_keeps (fun t => t.lineCfg = s.lineCfg) ms (fun m hm t h => ?_)
    (fun _ h => h) (fun _ _ _ h => h) s rfl
  rcases State.issue_cases t m with
    ⟨pc, pd, e⟩ | e | e | ⟨l, pin, x, rfl, e⟩ | ⟨l, lv, pin, x, -, e⟩ <;> rw [e, Issued.state]
  · rw [(State.completed_spec pc pd m t).lineCfg]
    cases m with
    | cfg l => exact absurd hm (hms l)
    | set l lv => exact h
    | wait n => exact h
  · exact h
  · exact h
  · exact absurd hm (hms l)
  · exact h

/-- The line a micro-operation makes a request on (R68). -/
def MicroOp.line? : MicroOp → Option Line
  | .cfg l => some l
  | .set l _ => some l
  | .wait _ => none

theorem MicroOp.line?_cfg_ne {k l : Line} (h : k ≠ l) : (MicroOp.cfg l).line? ≠ some k :=
  fun e => h (Option.some.inj e).symm

theorem MicroOp.line?_set_ne {k l : Line} (lv : Level) (h : k ≠ l) :
    (MicroOp.set l lv).line? ≠ some k := fun e => h (Option.some.inj e).symm

/-- Line `k` as the block records it and as the observer sees it. -/
def State.SameLine (k : Line) (s t : State) : Prop :=
  t.lineCfg.get k = s.lineCfg.get k ∧ t.lvl.get k = s.lvl.get k ∧
    t.obs.wire.get k = s.obs.wire.get k

theorem State.SameLine.trans {k : Line} {s t u : State} (h : s.SameLine k t) (h' : t.SameLine k u) :
    s.SameLine k u := by
  obtain ⟨hc, hl, hw⟩ := h
  obtain ⟨hc', hl', hw'⟩ := h'
  exact ⟨hc'.trans hc, hl'.trans hl, hw'.trans hw⟩

theorem Observer.drive_wire_other (c : Cfg) {k l : Line} (h : k ≠ l) (v : KLevel) (o : Observer) :
    (o.drive c l v).wire.get k = o.wire.get k := by
  rw [Observer.drive_wire, PerLine.get_set_other _ _ _ _ h]

theorem State.sameLine_conclude (k : Line) (r : Result) (s : State) :
    s.SameLine k (s.conclude r) :=
  ⟨rfl, rfl, congrArg (PerLine.get · k) (Observer.see_wire s.params (.done r) s.obs)⟩

theorem State.sameLine_modelFault (k : Line) (f : ModelFault) (s : State) :
    s.SameLine k (s.modelFault f) := ⟨rfl, rfl, rfl⟩

/-- A request on one line leaves the other as it was, and a wait leaves both (R91 to R93). -/
theorem State.sameLine_issue {k : Line} {m : MicroOp} (hk : m.line? ≠ some k) (s : State) :
    s.SameLine k (s.issue m).state := by
  have hne {l : Line} (h : m.line? = some l) : k ≠ l := fun e => hk (h.trans (congrArg some e.symm))
  rcases State.issue_cases s m with
    ⟨pc, pd, e⟩ | e | e | ⟨l, pin, x, rfl, e⟩ | ⟨l, lv, pin, x, rfl, e⟩ <;> rw [e, Issued.state]
  · cases m with
    | cfg l => exact ⟨PerLine.get_set_other _ _ _ _ (hne rfl), rfl, rfl⟩
    | set l lv =>
      exact ⟨rfl, PerLine.get_set_other _ _ _ _ (hne rfl),
        Observer.drive_wire_other s.params (hne rfl) lv.known s.obs⟩
    | wait n => exact ⟨rfl, rfl, rfl⟩
  · exact ⟨rfl, rfl, rfl⟩
  · exact State.sameLine_modelFault k _ s
  · have h : s.SameLine k
        (((s.takeAnswer.emit (.cfg l pin (.err x))).setCfg l .x).setLvl l .x) :=
      ⟨PerLine.get_set_other _ _ _ _ (hne rfl), PerLine.get_set_other _ _ _ _ (hne rfl),
        Observer.drive_wire_other s.params (hne rfl) .x s.obs⟩
    exact h.trans (State.sameLine_conclude k _ _)
  · have h : s.SameLine k ((s.takeAnswer.emit (.set l pin lv (.err x))).setLvl l .x) :=
      ⟨rfl, PerLine.get_set_other _ _ _ _ (hne rfl),
        Observer.drive_wire_other s.params (hne rfl) .x s.obs⟩
    exact h.trans (State.sameLine_conclude k _ _)

theorem State.framing_sameLine {k : Line} {m : MicroOp} (hk : m.line? ≠ some k) (s : State) :
    s.SameLine k (s.framing [m]) :=
  State.framing_keeps (s.SameLine k) [m]
    (fun _ hn t h => h.trans (State.sameLine_issue (List.mem_singleton.1 hn ▸ hk) t))
    (fun t h => h.trans (State.sameLine_conclude k .ok t))
    (fun t f _ h => h.trans (State.sameLine_modelFault k f t)) s ⟨rfl, rfl, rfl⟩

theorem PerLine.ext_get {α : Type} {p q : PerLine α} (h : ∀ l, p.get l = q.get l) : p = q := by
  obtain ⟨a, b⟩ := p
  obtain rfl : a = q.clk := h .clk
  obtain rfl : b = q.din := h .din
  rfl

/-- A wait makes no request (R93). -/
theorem State.framing_wait (n : Nat) (s : State) :
    (s.framing [.wait n]).answers = s.answers ∧ (s.framing [.wait n]).asked = s.asked := by
  refine State.framing_keeps (fun t => t.answers = s.answers ∧ t.asked = s.asked) [.wait n]
    (fun m hm t h => ?_) (fun _ h => h) (fun _ _ _ h => h) s ⟨rfl, rfl⟩
  obtain rfl := List.mem_singleton.1 hm
  exact h

/-! ### What framing makes of the device (R91, R93, R152, R158, R163) -/

/-- A line that goes to `X` gives an edge with an unknown level, or none (R151). -/
theorem edgeOf_x (w : PerLine KLevel) (l : Line) :
    edgeOf w l .x = none ∨ edgeOf w l .x = some .unknown := by
  by_cases h : w.get l = .x
  · exact .inl (if_pos h)
  · refine .inr ((if_neg h).trans ?_)
    cases l <;> cases w.clk <;> cases w.din <;> rfl

/-- Losing synchronisation emits no token (R152). -/
theorem Observer.feed_unknown_tokens (c : Cfg) (o : Observer) :
    (o.feed c .unknown).tokens = o.tokens := by
  unfold Observer.feed
  cases o.dec <;> rfl

theorem Observer.drive_x_tokens (c : Cfg) (l : Line) (o : Observer) :
    (o.drive c l .x).tokens = o.tokens := by
  unfold Observer.drive
  rcases edgeOf_x o.wire l with e | e <;> rw [e]
  exact Observer.feed_unknown_tokens c _

theorem Observer.see_done_tokens (c : Cfg) (r : Result) (o : Observer) :
    (o.see c (.done r)).tokens = o.tokens := by
  simp only [Observer.see]
  split <;> rfl

/-- `CFG` and `WAIT` emit no token: a failed `CFG` only loses synchronisation. -/
theorem State.framing_tokens {m : MicroOp} (hm : ∀ l lv, m ≠ .set l lv) (s : State) :
    (s.framing [m]).obs.tokens = s.obs.tokens := by
  refine State.framing_keeps (fun t => t.obs.tokens = s.obs.tokens) [m] (fun n hn t h => ?_)
    (fun t h => (Observer.see_done_tokens t.params .ok t.obs).trans h) (fun _ _ _ h => h) s rfl
  obtain rfl := List.mem_singleton.1 hn
  rcases State.issue_cases t n with
    ⟨pc, pd, e⟩ | e | e | ⟨l, pin, x, rfl, e⟩ | ⟨l, lv, pin, x, rfl, e⟩ <;> rw [e, Issued.state]
  · cases n with
    | cfg l => exact h
    | set l lv => exact absurd rfl (hm l lv)
    | wait k => exact h
  · exact h
  · exact h
  · exact ((Observer.see_done_tokens t.params _ _).trans
      (Observer.drive_x_tokens t.params l t.obs)).trans h
  · exact absurd rfl (hm l lv)

/-- Whatever is issued, the device follows the transactions on the wire (R158, R163). -/
theorem State.framing_follows (ms : List MicroOp) (s : State) :
    Observer.Follows s.params s.obs (s.framing ms).obs := by
  obtain ⟨es, -, -, -, ho⟩ := s.framing_emitted ms
  rw [ho]
  exact Observer.foldl_see_follows s.params es s.obs

/-- Without a `STOP` nothing is applied to the device. -/
theorem applyStops_of_no_stop (c : Cfg) {ts : List Token} (h : ∀ bytes, Token.stop bytes ∉ ts)
    (d : Device) : applyStops c ts d = d := by
  induction ts with
  | nil => rfl
  | cons x ts ih =>
    have hts := ih fun bytes hm => h bytes (List.mem_cons_of_mem _ hm)
    cases x with
    | start => exact hts
    | byte b => exact hts
    | stop bytes => exact absurd List.mem_cons_self (h bytes)

/-- If no transaction ends and synchronisation is not lost meanwhile, the device stays as it was. -/
theorem Observer.Follows.dev_eq {c : Cfg} {o p : Observer} (h : Observer.Follows c o p)
    {ts : List Token} (ht : p.tokens = o.tokens ++ ts) (hstop : ∀ bytes, Token.stop bytes ∉ ts)
    (hsync : p.dec = .desync → o.dec = .desync) : p.dev = o.dev := by
  obtain ⟨us, hu, hv | ⟨hd, -⟩, hdesync⟩ := h
  · obtain rfl : ts = us := List.append_cancel_left (ht.symm.trans hu)
    rw [hv, applyStops_of_no_stop c hstop]
  · obtain ⟨-, -, hdev⟩ := hdesync (hsync hd)
    exact hdev

/-- The micro-operations and the framing primitives are lists of micro-operations issued, and `CFG` alone
configures a line (R91 to R102). -/
theorem exec_framing {i : Instr}
    (h : i = .beginTxn ∨ (∃ v, i = .bit v) ∨ (∃ b, i = .send b) ∨ i = .endTxn ∨ (∃ bs, i = .txn bs) ∨
      (∃ l, i = .cfgLine l) ∨ (∃ l lv, i = .setLine l lv) ∨ (∃ n, i = .wait n)) :
    ∃ ms, (∀ s, exec i s = .next (s.framing ms)) ∧
      ((∀ l, i ≠ .cfgLine l) → ∀ l, MicroOp.cfg l ∉ ms) := by
  rcases h with rfl | ⟨v, rfl⟩ | ⟨b, rfl⟩ | rfl | ⟨bs, rfl⟩ | ⟨l, rfl⟩ | ⟨l, lv, rfl⟩ | ⟨n, rfl⟩
  · exact ⟨_, fun _ => rfl, fun _ l => Framing.Alternates.cfg_not_mem l (ms := Framing.beginSeq) trivial⟩
  · exact ⟨_, fun _ => rfl, fun _ l => (Framing.bitSeq_alternates v).cfg_not_mem l⟩
  · exact ⟨_, fun _ => rfl, fun _ l => (Framing.sendSeq_alternates b).cfg_not_mem l⟩
  · exact ⟨_, fun _ => rfl, fun _ l => Framing.Alternates.cfg_not_mem l (ms := Framing.endSeq) trivial⟩
  · exact ⟨_, fun _ => rfl, fun _ l => (Framing.txnSeq_alternates bs).cfg_not_mem l⟩
  · exact ⟨_, fun _ => rfl, fun h => absurd rfl (h l)⟩
  · exact ⟨_, fun _ => rfl, fun _ l => by simp⟩
  · exact ⟨_, fun _ => rfl, fun _ l => by simp⟩

/-- Settles O43: what the list of micro-operations issued leaves unchanged, clause by clause. -/
theorem framingFrame : Obligations.FramingFrame := by
  intro i s t hi he
  obtain ⟨ms, hex, hcfg⟩ := exec_framing hi
  have hone {m : MicroOp} (h : i = m.toInstr) : t = s.framing [m] := by
    subst h
    exact Host.Outcome.next.inj (he.symm.trans (exec_micro m s))
  obtain rfl := Host.Outcome.next.inj ((hex s).symm.trans he)
  have h := State.framing_sameRequests ms s
  have hfollows := State.framing_follows ms s
  have ⟨ts, ht, hdev, _⟩ := hfollows
  refine ⟨h.params, h.clkPin, h.dinPin, h.callers, h.admitted, h.arriving, h.useq, h.cur,
    fun hn => State.framing_lineCfg (hcfg hn) s, fun l k e hk => ?_, fun l lv k e hk => ?_,
    fun n e => ?_, ts, ht, fun hq => ?_, hdev, fun hstop hsync => ?_⟩
  · rw [hone (m := .cfg l) e]
    obtain ⟨hc, hl, -⟩ := State.framing_sameLine (MicroOp.line?_cfg_ne hk) s
    exact ⟨hc, hl⟩
  · rw [hone (m := .set l lv) e]
    obtain ⟨-, hl, -⟩ := State.framing_sameLine (MicroOp.line?_set_ne lv hk) s
    exact hl
  · rw [hone (m := .wait n) e]
    have hline (k : Line) : s.SameLine k (s.framing [.wait n]) :=
      State.framing_sameLine (m := .wait n) (Option.some_ne_none k).symm s
    obtain ⟨ha, hn⟩ := State.framing_wait n s
    refine ⟨PerLine.ext_get fun k => ?_, ha, hn, PerLine.ext_get fun k => ?_⟩ <;>
      obtain ⟨-, hl, hw⟩ := hline k
    · exact hl
    · exact hw
  · have hsame : (s.framing ms).obs.tokens = s.obs.tokens := by
      rcases hq with ⟨l, e⟩ | ⟨n, e⟩
      · rw [hone (m := .cfg l) e]
        exact State.framing_tokens (fun _ _ => MicroOp.noConfusion) s
      · rw [hone (m := .wait n) e]
        exact State.framing_tokens (fun _ _ => MicroOp.noConfusion) s
    exact List.append_right_eq_self.1 (ht.symm.trans hsame)
  · have hd := hfollows.dev_eq ht hstop hsync
    exact ⟨hd, fun a => by rw [hd]⟩

end Sys2Proof.Machine

/-! ## Proofs: the wire bytes, their classifier, encoder and decoder (30_encoding.md)

First which bytes each class has and what the encoder writes; then the decoder, forwards and
backwards; then what the control bytes do to the device. -/

namespace Sys2Proof

/-! ### Bytes of each class (R70, R87) -/

/-- A byte is a base with an operand exactly if its high bits are the base and its low bits the
operand (R70, R75, R76). -/
theorem or4_eq_iff {base b : Byte} {a : BitVec 4} (hb : base &&& 0x0F#8 = 0#8) :
    base ||| a.setWidth 8 = b ↔ b &&& ~~~0x0F#8 = base ∧ a = b.extractLsb' 0 4 := by
  rw [Byte.extract4]
  constructor
  · rintro rfl
    exact ⟨base_of_or4 base a hb, (operand_of_or4 base a hb).symm⟩
  · rintro ⟨rfl, rfl⟩
    exact Byte.eq_high_or_low4 b

theorem or3_eq_iff {base b : Byte} {s : BitVec 3} (hb : base &&& 0x07#8 = 0#8) :
    base ||| s.setWidth 8 = b ↔ b &&& ~~~0x07#8 = base ∧ s = b.extractLsb' 0 3 := by
  rw [Byte.extract3]
  constructor
  · rintro rfl
    exact ⟨base_of_or3 base s hb, (operand_of_or3 base s hb).symm⟩
  · rintro ⟨rfl, rfl⟩
    exact Byte.eq_high_or_low3 b

theorem mask4_eq_iff {base b : Byte} (hb : base &&& 0x0F#8 = 0#8) :
    b &&& ~~~0x0F#8 = base ↔ ∃ a : BitVec 4, b = base ||| a.setWidth 8 :=
  ⟨fun h => ⟨_, ((or4_eq_iff hb).2 ⟨h, rfl⟩).symm⟩, fun ⟨_, h⟩ => ((or4_eq_iff hb).1 h.symm).1⟩

theorem mask3_eq_iff {base b : Byte} (hb : base &&& 0x07#8 = 0#8) :
    b &&& ~~~0x07#8 = base ↔ ∃ s : BitVec 3, b = base ||| s.setWidth 8 :=
  ⟨fun h => ⟨_, ((or3_eq_iff hb).2 ⟨h, rfl⟩).symm⟩, fun ⟨_, h⟩ => ((or3_eq_iff hb).1 h.symm).1⟩

theorem encode_addressSet (c : Cfg) (a : BitVec 4) :
    encode c (.addressSet a) = [c.addrSetBase ||| a.setWidth 8] := by rw [encode, encAs_eq]

theorem encode_displayOn (c : Cfg) (s : BitVec 3) :
    encode c (.displayOn s) = [c.dispOnBase ||| s.setWidth 8] := by rw [encode, encDc_succ]

/-- The instruction the decoder reads from a control byte of a class (R79, R87). -/
def Class.command : Class → Instr
  | .dw => .dataWrite
  | .addr a => .addressSet a
  | .dcOff => .displayOff
  | .dcOn s => .displayOn s
  | .other => .addrByte16

/-- In every configuration a byte with a command's class is that command's byte. -/
theorem encode_command_of_classify {c : Cfg} {b : Byte} (h : classify c b ≠ .other) :
    encode c (classify c b).command = [b] := by
  unfold classify at h ⊢
  split_ifs at h ⊢ with hdw haddr hoff hon
  · exact congrArg ([·]) hdw.symm
  · exact (encode_addressSet c _).trans (congrArg ([·]) (addr_of_mask c b haddr).symm)
  · exact congrArg ([·]) hoff.symm
  · exact (encode_displayOn c _).trans (congrArg ([·]) (on_of_mask c b hon).symm)
  · exact absurd rfl h

/-- Under R70 a command's byte has that command's class, so no two classes share a byte. -/
theorem classify_of_encode_command {c : Cfg} (hv : c.Valid) {b : Byte} {k : Class} (hk : k ≠ .other)
    (h : encode c k.command = [b]) : classify c b = k := by
  cases k with
  | dw =>
    obtain rfl := List.singleton_inj.1 h
    exact classify_dw c
  | addr a =>
    obtain rfl := List.singleton_inj.1 ((encode_addressSet c a).symm.trans h)
    exact classify_addr c hv a
  | dcOff =>
    obtain rfl := List.singleton_inj.1 h
    exact classify_off c hv
  | dcOn s =>
    obtain rfl := List.singleton_inj.1 ((encode_displayOn c s).symm.trans h)
    exact classify_on c hv s
  | other => exact absurd rfl hk

theorem classify_eq_iff {c : Cfg} (hv : c.Valid) {b : Byte} {k : Class} (hk : k ≠ .other) :
    classify c b = k ↔ encode c k.command = [b] :=
  ⟨fun h => h ▸ encode_command_of_classify (h ▸ hk), classify_of_encode_command hv hk⟩

/-- The remaining bytes, in every configuration. -/
theorem classify_eq_other_iff (c : Cfg) (b : Byte) :
    classify c b = .other ↔
      (b ≠ c.cmdDataWrite ∧ b &&& ~~~0x0F#8 ≠ c.addrSetBase ∧ b ≠ c.dispOff ∧
        b &&& ~~~0x07#8 ≠ c.dispOnBase) := by
  unfold classify
  split_ifs with hdw haddr hoff hon
  · exact iff_of_false not_false fun ⟨h, _⟩ => h hdw
  · exact iff_of_false not_false fun ⟨_, h, _⟩ => h haddr
  · exact iff_of_false not_false fun ⟨_, _, h, _⟩ => h hoff
  · exact iff_of_false not_false fun ⟨_, _, _, h⟩ => h hon
  · exact iff_of_true rfl ⟨hdw, haddr, hoff, hon⟩

/-! ### What the encoder writes (R75, R76) -/

/-- An offset up to 15 is a device address. -/
theorem toNat_ofNat4 {offset : Nat} (h : offset ≤ 15) : (BitVec.ofNat 4 offset).toNat = offset := by
  rw [BitVec.toNat_ofNat]
  exact Nat.mod_eq_of_lt (by omega)

theorem encAs_ofNat4 (c : Cfg) {offset : Nat} (h : offset ≤ 15) :
    encAs c offset = c.addrSetBase ||| (BitVec.ofNat 4 offset).setWidth 8 := by
  rw [← encAs_eq, toNat_ofNat4 h]

theorem classify_encAs {c : Cfg} (hv : c.Valid) {offset : Nat} (h : offset ≤ 15) :
    classify c (encAs c offset) = .addr (BitVec.ofNat 4 offset) := by
  rw [encAs_ofNat4 c h, classify_addr c hv]

/-- The display-on byte of a level from 1 to 8 holds the step one less. -/
theorem encDc_level (c : Cfg) {level : Int} (h1 : 1 ≤ level) (h8 : level ≤ 8) :
    encDc c level = c.dispOnBase ||| (BitVec.ofNat 3 (level - 1).toNat).setWidth 8 := by
  have hstep : level = (BitVec.ofNat 3 (level - 1).toNat).toNat + 1 := by
    rw [BitVec.toNat_ofNat]
    omega
  rw [← encDc_succ, ← hstep]

theorem clamp_bounds (b : Int) : 0 ≤ clamp b ∧ clamp b ≤ 8 := by
  simp only [clamp, Config.maxLevel]
  omega

/-- The high bits of an address byte are those of the base. -/
theorem Byte.extract_high_or4 (base : Byte) (a : BitVec 4) :
    (base ||| a.setWidth 8).extractLsb' 4 4 = base.extractLsb' 4 4 := by
  have ha : (a.setWidth 8).extractLsb' 4 4 = 0#4 := by revert a; decide
  rw [BitVec.extractLsb'_or, ha, BitVec.or_zero]

/-- Settles O4: the class of a byte is that of the command whose byte it is. -/
theorem classifierNamesEncodedCommands : Obligations.ClassifierNamesEncodedCommands := by
  refine ⟨fun c hv b => ?_, fun c hv => ⟨fun a ha => classify_encAs hv ha, classify_off c hv,
    fun k h1 h8 => ?_, classify_dw c⟩, by decide⟩
  · have ⟨hon, haddr, _⟩ := hv
    refine ⟨?_, fun a => ?_, ?_, fun s => ?_, classify_eq_other_iff c b⟩
    · exact (classify_eq_iff hv Class.noConfusion).trans (List.singleton_inj.trans eq_comm)
    · rw [classify_eq_iff hv Class.noConfusion, Class.command, encode_addressSet, List.singleton_inj,
        or4_eq_iff haddr]
    · exact (classify_eq_iff hv Class.noConfusion).trans (List.singleton_inj.trans eq_comm)
    · rw [classify_eq_iff hv Class.noConfusion, Class.command, encode_displayOn, List.singleton_inj,
        or3_eq_iff hon]
  · have hstep : ((k : Int) - 1).toNat = k - 1 := by omega
    rw [encDc_level c (by omega) (by omega), hstep, classify_on c hv]

/-- Settles O5: the base and an offset up to 15 do not overlap, and the class of the offset-16 byte is
OTHER in the default configuration. -/
theorem addressByteIsBaseOrOffset : Obligations.AddressByteIsBaseOrOffset := by
  refine ⟨fun c offset h => ?_, fun c hv offset h => ?_, fun c => rfl, rfl, fun a ha heq => ?_⟩
  · have hor : c.addrSetBase.toNat ||| offset < 2 ^ 8 :=
      Nat.or_lt_two_pow c.addrSetBase.isLt (by omega)
    rw [encAs, BitVec.toNat_or, BitVec.toNat_ofNat,
      Nat.mod_eq_of_lt (show offset < 2 ^ 8 by omega)]
    exact (Nat.mod_eq_of_lt hor).symm
  · obtain ⟨-, haddr, -⟩ := hv
    rw [encAs_ofNat4 c h]
    exact ⟨(Byte.extract4 _).trans (operand_of_or4 _ _ haddr), Byte.extract_high_or4 _ _⟩
  · have hother : classify Cfg.default (encAs Cfg.default 16) = .other := by decide
    rw [heq, classify_encAs (by decide) ha] at hother
    cases hother

/-- Settles O6: by whether the clamped brightness is 0. -/
theorem displayByteIsOffOrOnWithStep : Obligations.DisplayByteIsOffOrOnWithStep := by
  intro c b
  obtain ⟨h0, h8⟩ := clamp_bounds b
  refine ⟨fun h => if_pos h, fun h => ⟨by omega, by omega, if_neg h, fun ⟨hon, _⟩ => ?_⟩⟩
  rw [encDc_level c (by omega) h8, Byte.extract3]
  exact operand_of_or3 _ _ hon

/-! ### The decoder (R79, R80, R84) -/

theorem decode_cons_ok_iff {c : Cfg} {pos : Position} {b : Byte} {rest r : List Byte} {i : Instr} :
    decode c pos (b :: rest) = .ok (i, r) ↔ decodeByte c pos b = .ok i ∧ r = rest := by
  rw [decode]
  cases decodeByte c pos b with
  | ok j => simp [eq_comm]
  | error x => simp

theorem decode_cons_error_iff {c : Cfg} {pos : Position} {b : Byte} {rest : List Byte}
    {x : Reject} : decode c pos (b :: rest) = .error x ↔ decodeByte c pos b = .error x := by
  rw [decode]
  cases decodeByte c pos b with
  | ok j => simp
  | error y => simp

/-- A byte with a command's class is read as that command. -/
theorem decodeControl_of_ne_other {c : Cfg} {b : Byte} (h : classify c b ≠ .other) :
    decodeControl c b = .ok (classify c b).command := by
  unfold decodeControl
  cases hk : classify c b with
  | other => exact absurd hk h
  | _ => rfl

/-- A byte of no command is read as the offset-16 byte if it is that byte, and else rejected (R79,
R80). -/
theorem decodeControl_of_other {c : Cfg} {b : Byte} (h : classify c b = .other) :
    decodeControl c b =
      if b = encAs c 16 then .ok .addrByte16 else .error (.otherControlByte b) := by
  simp only [decodeControl, h]

/-- The decoder reads a control byte as the instruction of its class if it is that instruction's
encoding, in every configuration. -/
theorem decodeControl_ok_iff {c : Cfg} {b : Byte} {i : Instr} :
    decodeControl c b = .ok i ↔ (classify c b).command = i ∧ encode c i = [b] := by
  by_cases hk : classify c b = .other
  · rw [decodeControl_of_other hk, hk, Class.command]
    constructor
    · intro h
      split_ifs at h with h16
      cases h
      exact ⟨rfl, congrArg ([·]) h16.symm⟩
    · rintro ⟨rfl, h⟩
      exact if_pos (List.singleton_inj.1 h).symm
  · rw [decodeControl_of_ne_other hk, Except.ok.injEq]
    exact ⟨fun h => ⟨h, h ▸ encode_command_of_classify hk⟩, And.left⟩

theorem decodeControl_error_iff {c : Cfg} {b : Byte} :
    decodeControl c b = .error (.otherControlByte b) ↔ classify c b = .other ∧ b ≠ encAs c 16 := by
  by_cases hk : classify c b = .other
  · rw [decodeControl_of_other hk]
    by_cases h16 : b = encAs c 16 <;> simp [hk, h16]
  · simp [decodeControl_of_ne_other hk, hk]

/-- Every control byte the decoder reads is a wire byte form sent in that position. -/
theorem Class.command_isWireByte (k : Class) :
    k.command.isWireByte = true ∧ k.command.position = .control := by
  cases k <;> exact ⟨rfl, rfl⟩

/-- The encoding of a class's instruction is read back where its byte has that class. -/
theorem decode_encode_command {c : Cfg} {k : Class} {b : Byte} (he : encode c k.command = [b])
    (hk : classify c b = k) (rest : List Byte) :
    decode c k.command.position (encode c k.command ++ rest) = .ok (k.command, rest) := by
  rw [he, k.command_isWireByte.2]
  exact decode_cons_ok_iff.2 ⟨decodeControl_ok_iff.2 ⟨congrArg Class.command hk, he⟩, rfl⟩

/-- Settles O1: the class of the encoded byte is its command, and the offset-16 byte is read where it
has the class of none. -/
theorem decodeOfEncodeReturnsInstruction : Obligations.DecodeOfEncodeReturnsInstruction := by
  intro c i rest hv hw h16
  cases i with
  | dataWrite => exact decode_encode_command (k := .dw) rfl (classify_dw c) rest
  | addressSet a =>
    exact decode_encode_command (k := .addr a) (encode_addressSet c a) (classify_addr c hv a) rest
  | addrByte16 => exact decode_encode_command (k := .other) rfl (h16 rfl) rest
  | displayOff => exact decode_encode_command (k := .dcOff) rfl (classify_off c hv) rest
  | displayOn s =>
    exact decode_encode_command (k := .dcOn s) (encode_displayOn c s) (classify_on c hv s) rest
  | dataByte d => rfl
  | _ => cases hw

/-- Settles O2: by the position of the byte. -/
theorem decodedByteIsItsEncoding : Obligations.DecodedByteIsItsEncoding := by
  intro c pos b rest r i h
  obtain ⟨hb, rfl⟩ := decode_cons_ok_iff.1 h
  cases pos with
  | control =>
    obtain ⟨rfl, henc⟩ := decodeControl_ok_iff.1 hb
    obtain ⟨hwire, hpos⟩ := (classify c b).command_isWireByte
    exact ⟨henc, hpos, hwire, rfl⟩
  | payload =>
    cases hb
    exact ⟨rfl, rfl, rfl, rfl⟩
  | extra => cases hb

/-- Settles O3: the control bytes of R79 are those of the classes and the offset-16 byte. -/
theorem decoderRejectsExactlyOtherBytes : Obligations.DecoderRejectsExactlyOtherBytes := by
  intro c b rest hv
  obtain ⟨hon0, haddr0, -⟩ := hv
  refine ⟨?_, rfl, rfl⟩
  simp only [decode_cons_error_iff, decodeByte, decodeControl_error_iff, classify_eq_other_iff, ne_eq,
    mask4_eq_iff haddr0, mask3_eq_iff hon0, not_exists]
  constructor
  · rintro ⟨⟨hdw, haddr, hoff, hon⟩, h16⟩
    exact ⟨hdw, haddr, h16, hoff, hon⟩
  · rintro ⟨hdw, haddr, h16, hoff, hon⟩
    exact ⟨⟨hdw, haddr, hoff, hon⟩, h16⟩

/-- Settles O8: each word is a control byte of its form, or no control byte and so a payload byte. -/
theorem tableWordsDecode : Obligations.TableWordsDecode := by
  refine ⟨?_, ?_, ?_, ?_, ?_, ?_⟩ <;> rfl

/-- Settles O35: a wire byte form acts on the device alone. -/
theorem controlBytesActOnDevice : Obligations.ControlBytesActOnDevice := fun s =>
  ⟨Machine.exec_wireByte (i := .dataWrite) rfl s,
    fun a => Machine.exec_wireByte (i := .addressSet a) rfl s,
    Machine.exec_wireByte (i := .addrByte16) rfl s, Machine.exec_wireByte (i := .displayOff) rfl s,
    fun st => Machine.exec_wireByte (i := .displayOn st) rfl s⟩

end Sys2Proof

/-! ## Proofs: bus framing (40_bus_framing.md)

What a failed request leaves of the operation, alone and inside a transaction; then the primitives that
complete, and the shape of a transaction. -/

namespace Sys2Proof.Machine

/-! ### A failed request ends the operation (R91, R92, R94, R95, R167) -/

/-- A request answered with `err(e)` on a bound line is the failure of R91 or R92. -/
theorem State.issue_fails {pc pd : Pin} {e : PinErr} {s : State} (hc : s.clkPin = some pc)
    (hd : s.dinPin = some pd) {m : MicroOp} (hm : m.uses = 1) (ha : s.answerAt 0 = .err e) :
    s.issue m = .stopped (s.failed pc pd e m) := by
  have hp := State.pinOf_eq hc hd
  cases m with
  | cfg l => simp [State.issue, State.issueCfg, hp, ha, State.failed]
  | set l lv => simp [State.issue, State.issueSet, hp, ha, State.failed]
  | wait n => cases hm

/-- Where the first request answered with `err(e)` is that of the micro-operation at `k`, the ones
before it complete and the ones after it are not issued (R95). -/
theorem State.framing_fails {pc pd : Pin} {e : PinErr} {s : State} (hi : s.IssuesOn pc pd)
    {ms : List MicroOp} {k : Nat} {m : MicroOp} (hk : ms[k]? = some m) (hm : m.uses = 1)
    (hc : s.CleanFor (usesOf (ms.take k))) (ha : s.answerAt (usesOf (ms.take k)) = .err e) :
    s.framing ms = (s.completedAll pc pd (ms.take k)).failed pc pd e m := by
  have ⟨_, _, hclk, hdin⟩ := hi
  have h := State.completedAll_spec pc pd (ms.take k) s
  have hfail := State.issue_fails (h.clkPin.trans hclk) (h.dinPin.trans hdin) hm
    ((h.answerAt 0).trans ha)
  obtain ⟨hlt, rfl⟩ := List.getElem?_eq_some_iff.1 hk
  have hsplit : ms = ms.take k ++ ms[k] :: ms.drop (k + 1) := by
    rw [← List.drop_eq_getElem_cons hlt, List.take_append_drop]
  calc s.framing ms = s.issueAll (ms.take k ++ ms[k] :: ms.drop (k + 1)) := by
        rw [← hsplit, State.framing_issues hi]
    _ = (s.completedAll pc pd (ms.take k)).issueAll (ms[k] :: ms.drop (k + 1)) :=
        State.issueAll_append hclk hdin _ _ hc
    _ = (s.completedAll pc pd (ms.take k)).failed pc pd e ms[k] := by rw [State.issueAll, hfail]

/-- After the micro-operations `ms` a request fails with the event `ev`, the line registers are left at
`lv` and `lc`, and the operation ends with `r`: everything that leaves, field by field. -/
theorem State.Completed.conclude_failedTo {pc pd : Pin} {ms : List MicroOp} {s u : State}
    (h : State.Completed pc pd ms s u) (ev : Event) (r : Result) (lv : PerLine KLevel)
    (lc : PerLine KCfg) {t : State}
    (ht : t = State.conclude r { u.takeAnswer.emit ev with lvl := lv, lineCfg := lc }) :
    s.FailedTo r (eventsOf pc pd ms ++ [ev]) lv lc t ∧
      t.session = sessionAfter r s.cur s.session ∧
      t.txFaultSeen = txMark r s.txFaultSeen ∧ t.cfgFaultSeen = cfgMark r s.cfgFaultSeen := by
  subst ht
  refine ⟨⟨rfl, ?_, rfl, rfl, rfl, rfl, rfl, rfl, h.params, h.clkPin, h.dinPin, h.mfault, h.callers,
    h.admitted, h.arriving⟩, ?_, ?_, ?_⟩
  · simp [h.hist]
  · simp [h.cur, h.session]
  · simp [h.txFaultSeen]
  · simp [h.cfgFaultSeen]

/-- In RUN the sequencer has moved on by the micro-operations completed (R27). -/
theorem State.Completed.mpc_run {pc pd : Pin} {ms : List MicroOp} {s u : State}
    (h : State.Completed pc pd ms s u) (hp : s.phase = .run) : u.mpc = s.mpc + ms.length := by
  rw [h.mpc, if_pos hp]

/-- A `SET` that fails in a write or display control, after the micro-operations `ms` (R92, R94, R169):
TRANSMISSION_ERROR with its index, the session kept. -/
theorem State.Completed.failed_set {pc pd : Pin} {ms : List MicroOp} {s u : State} {op : Op}
    (h : State.Completed pc pd ms s u) (hp : s.phase = .run) (hcur : s.cur = some op)
    (hop : op.isInit = false) (l : Line) (lv : Level) (e : PinErr) :
    s.FailedTo (.transmissionError (s.mpc + ms.length) l lv e)
      (eventsOf pc pd ms ++ [.set l (pinOfLine pc pd l) lv (.err e)])
      ((levelsAfter ms s.lvl).set l .x) (cfgsAfter ms s.lineCfg) (u.failed pc pd e (.set l lv)) ∧
    (u.failed pc pd e (.set l lv)).session = s.session ∧
    (u.failed pc pd e (.set l lv)).txFaultSeen = true ∧
    (u.failed pc pd e (.set l lv)).cfgFaultSeen = s.cfgFaultSeen := by
  have hr : u.failure l (some lv) e = .transmissionError (s.mpc + ms.length) l lv e := by
    rw [State.failure_set (h.cur.trans hcur) hop, h.mpc_run hp]
  rw [← hr, ← h.lvl, ← h.lineCfg]
  have hend := h.conclude_failedTo (.set l (pinOfLine pc pd l) lv (.err e))
    (u.failure l (some lv) e) (u.lvl.set l .x) u.lineCfg (t := u.failed pc pd e (.set l lv)) rfl
  rwa [hr] at hend ⊢

/-- A request that is issued and fails leaves the failure of its micro-operation. -/
theorem exec_request_fails {pc pd : Pin} {e : PinErr} {s : State} (hi : s.IssuesOn pc pd)
    (ha : s.portAnswer = .err e) {m : MicroOp} (hm : m.uses = 1) :
    exec m.toInstr s = .next (s.failed pc pd e m) := by
  rw [exec_micro]
  exact congrArg _ (State.framing_fails hi (k := 0) rfl hm
    (fun _ hk => absurd hk (Nat.not_lt_zero _)) ha)

/-- Settles O22: the request fails in an INITIALIZE, after no other micro-operation. -/
theorem configureFailureKillsSession : Obligations.ConfigureFailureKillsSession := by
  intro pc pd a b e l s hi _ hcur ha
  have hr : s.failure l none e = .configurationError s.mpc l e := State.failure_init hcur rfl l none e
  refine ⟨_, exec_request_fails hi ha (m := .cfg l) rfl, ?_⟩
  obtain ⟨hf, hsess, htx, hcfg⟩ := (State.completedAll_spec pc pd [] s).conclude_failedTo
    (.cfg l (pinOfLine pc pd l) (.err e)) (s.failure l none e) (s.lvl.set l .x) (s.lineCfg.set l .x)
    (t := s.failed pc pd e (.cfg l)) rfl
  rw [hr] at hf hsess htx hcfg
  exact ⟨hf, hsess, hcfg, htx⟩

/-- Settles O24: the kind of the operation in progress decides the error of the failed request. -/
theorem setFailureEndsOperation : Obligations.SetFailureEndsOperation := by
  intro pc pd e l lv op s hi hp hcur ha
  have hnone := State.completedAll_spec pc pd [] s
  refine ⟨_, exec_request_fails hi ha (m := .set l lv) rfl, fun hop => ?_, fun hop => ?_⟩
  · exact hnone.failed_set hp hcur hop l lv e
  · have hr := State.failure_init hcur hop l (some lv) e
    obtain ⟨hf, hsess, htx, hcfg⟩ := hnone.conclude_failedTo
      (.set l (pinOfLine pc pd l) lv (.err e)) (s.failure l (some lv) e) (s.lvl.set l .x) s.lineCfg
      (t := s.failed pc pd e (.set l lv)) rfl
    rw [hr] at hf hsess htx hcfg
    exact ⟨hf, hsess, htx, hcfg⟩

/-- Settles O31: before request `n` stand `2 n` micro-operations, which take `n` answers. -/
theorem failedTransactionStopsAtOnce : Obligations.FailedTransactionStopsAtOnce := by
  intro pc pd bytes n e op l lv s hi hp hcur hop hc ha hget
  have halt := Framing.txnSeq_alternates bytes
  have hlt : 2 * n < (Framing.txnSeq bytes).length := (List.getElem?_eq_some_iff.1 hget).1
  have hlen : ((Framing.txnSeq bytes).take (2 * n)).length = 2 * n := List.length_take_of_le hlt.le
  have huses : usesOf ((Framing.txnSeq bytes).take (2 * n)) = n := halt.usesOf_take hlt.le
  have hcfgs := halt.cfgsAfter_take n s.lineCfg
  have hfail := State.framing_fails hi hget rfl (e := e) (by rwa [huses]) (by rwa [huses])
  refine ⟨_, congrArg Host.Outcome.next hfail, ?_⟩
  have h := (State.completedAll_spec pc pd ((Framing.txnSeq bytes).take (2 * n)) s).failed_set
    hp hcur hop l lv e
  rwa [hlen, hcfgs] at h

/-! ### Micro-operations and primitives that complete (R93, R96, R101) -/

/-- Settles O28: the micro-operations of a start and of a stop condition, one after another. -/
theorem startAndStopConditionsComplete : Obligations.StartAndStopConditionsComplete :=
  fun _ _ _ hi =>
    ⟨fun hc => State.exec_completes hi (ms := Framing.beginSeq) rfl hc,
      fun hc => State.exec_completes hi (ms := Framing.endSeq) rfl hc⟩

/-- Settles O25: a `WAIT` makes no request, so that no answer of the port is a premise. -/
theorem waitCompletes : Obligations.WaitCompletes := fun _ _ n _ hi =>
  State.exec_completes hi (ms := [.wait n]) rfl fun _ hk => absurd hk (Nat.not_lt_zero _)

/-! ### Counts, waits and positions of a transaction (R100, R103) -/

/-- Where every `SET` is followed by one `WAIT`, there are as many of one as of the other. -/
theorem Framing.Alternates.waitCount : ∀ {ms : List MicroOp},
    Framing.Alternates ms → waitCount ms = setCount ms
  | [], _ => rfl
  | .set _ _ :: .wait _ :: ms, h => congrArg (· + 1) (Framing.Alternates.waitCount (ms := ms) h)

/-- Parts that wait `n` time-units each, one after another. -/
theorem waitUnits_flatMap {α : Type} {f : α → List MicroOp} {n : Nat}
    (hf : ∀ a, waitUnits (f a) = n) (l : List α) : waitUnits (l.flatMap f) = n * l.length := by
  induction l with
  | nil => rfl
  | cons a l ih =>
    rw [List.flatMap_cons, waitUnits_append, hf, ih, List.length_cons, Nat.mul_succ, Nat.add_comm]

/-- A bit waits four time-units (R98). -/
theorem Framing.bitSeq_waitUnits (v : Level) : waitUnits (Framing.bitSeq v) = 4 := rfl

/-- A byte waits 32 time-units, four for each bit (R103). -/
theorem Framing.sendSeq_waitUnits (b : Byte) : waitUnits (Framing.sendSeq b) = 32 :=
  waitUnits_flatMap Framing.bitSeq_waitUnits (Byte.wireBits b)

/-- A transaction waits for its start condition, its bytes and its stop condition (R103). -/
theorem Framing.txnSeq_waitUnits (bs : List Byte) :
    waitUnits (Framing.txnSeq bs) = 6 + 32 * bs.length := by
  rw [Framing.txnSeq, waitUnits_append, waitUnits_append, waitUnits_flatMap Framing.sendSeq_waitUnits,
    show waitUnits Framing.beginSeq = 2 from rfl, show waitUnits Framing.endSeq = 4 from rfl]
  omega

/-- Settles O9: a transaction configures nothing, so that its requests are its `SET`s, and every `SET`
has its `WAIT`. -/
theorem transactionCounts : Obligations.TransactionCounts := by
  refine ⟨fun bytes => ?_, rfl, Framing.sendSeq_waitUnits, rfl, Framing.bitSeq_waitUnits⟩
  have halt := Framing.txnSeq_alternates bytes
  have hcfg := halt.cfgCount
  have hset : setCount (Framing.txnSeq bytes) = 5 + 24 * bytes.length := by
    rw [← Framing.txnSeq_usesOf, usesOf_eq, hcfg, Nat.zero_add]
  exact ⟨Framing.txnSeq_length bytes, hset, halt.waitCount.trans hset, hcfg,
    Framing.txnSeq_waitUnits bytes⟩

/-- CLOCK rises at the third micro-operation of a bit alone (R98). -/
theorem Framing.bitSeq_rise {v : Level} {r : Nat} (hr : r < 6)
    (h : (Framing.bitSeq v)[r]? = some (.set .clk .high)) : r = 2 := by
  interval_cases r <;> simp [Framing.bitSeq] at h ⊢

/-- Settles O14: CLOCK rises at position 2 of a bit, is held at position 3 and falls at position 4. -/
theorem dataStableWhileClockHigh : Obligations.DataStableWhileClockHigh := by
  intro b n h
  have hn : n < 48 := (List.getElem?_eq_some_iff.1 h).1
  obtain ⟨i, r, rfl, hi, hr⟩ : ∃ i r, n = 6 * i + r ∧ i < 8 ∧ r < 6 :=
    ⟨n / 6, n % 6, by omega, by omega, by omega⟩
  rw [Framing.sendSeq_getElem? b hi hr] at h
  obtain rfl := Framing.bitSeq_rise hr h
  exact ⟨Framing.sendSeq_getElem? b hi (r := 3) (by omega),
    Framing.sendSeq_getElem? b hi (r := 4) (by omega)⟩

end Sys2Proof.Machine

/-! ## Proofs: the command encoder (41_command_encoder.md)

First the clamp and the display bytes, then the sizes of the operations' micro-sequences; then the
acceptance of a request in READY, the run of an accepted operation to its end, and what a request leaves
unchanged. -/

namespace Sys2Proof

/-! ### The clamp and the display bytes (R76, R114, R115) -/

theorem clamp_of_le {b : Int} (h : b ≤ 0) : clamp b = 0 := by
  simp only [clamp, Config.maxLevel]
  omega

theorem clamp_of_level {b : Int} (h0 : 0 ≤ b) (h8 : b ≤ 8) : clamp b = b := by
  simp only [clamp, Config.maxLevel]
  omega

theorem clamp_of_ge {b : Int} (h : 8 ≤ b) : clamp b = 8 := by
  simp only [clamp, Config.maxLevel]
  omega

/-- The level can be read back from its display-on byte. -/
theorem encDc_injOn {c : Cfg} (hv : c.Valid) {k l : Int} (hk1 : 1 ≤ k) (hk8 : k ≤ 8) (hl1 : 1 ≤ l)
    (hl8 : l ≤ 8) (h : encDc c k = encDc c l) : k = l := by
  obtain ⟨hon, -⟩ := hv
  rw [encDc_level c hk1 hk8, encDc_level c hl1 hl8] at h
  have hstep := congrArg (BitVec.setWidth 3) h
  rw [operand_of_or3 _ _ hon, operand_of_or3 _ _ hon] at hstep
  have hnat := congrArg BitVec.toNat hstep
  rw [BitVec.toNat_ofNat, BitVec.toNat_ofNat] at hnat
  omega

/-- The levels from 1 to 8 give the display-on bytes of all the steps, and no other byte. -/
theorem encDc_level_iff (c : Cfg) (byte : Byte) :
    (∃ k : Int, 1 ≤ k ∧ k ≤ 8 ∧ encDc c k = byte) ↔
      ∃ s : BitVec 3, byte = c.dispOnBase ||| s.setWidth 8 := by
  constructor
  · rintro ⟨k, h1, h8, rfl⟩
    exact ⟨_, encDc_level c h1 h8⟩
  · rintro ⟨s, rfl⟩
    exact ⟨s.toNat + 1, by omega, by omega, encDc_succ c s⟩

/-- Settles O7: below, inside and above the range; and a display-on byte holds the level less one. -/
theorem clampBoundsBrightness : Obligations.ClampBoundsBrightness := by
  refine ⟨fun b => rfl, fun b => ?_, fun c hv => ⟨fun k l hk1 hk8 hl1 hl8 =>
    encDc_injOn hv hk1 hk8 hl1 hl8, encDc_level_iff c⟩⟩
  obtain ⟨h0, h8⟩ := clamp_bounds b
  exact ⟨h0, h8, clamp_of_level, fun h => clamp_of_ge h.le, fun h => clamp_of_le h.le,
    clamp_of_level h0 h8⟩

/-- The control byte of a brightness, without the clamp (R125, R127). -/
theorem encDc_clamp (c : Cfg) (b : Int) :
    encDc c (clamp b) =
      if b ≤ 0 then c.dispOff
      else if b ≤ 8 then c.dispOnBase ||| BitVec.ofNat 8 (b - 1).toNat
      else c.dispOnBase ||| 7#8 := by
  split_ifs with h0 h8
  · rw [clamp_of_le h0]
    rfl
  · rw [clamp_of_level (by omega) h8, encDc, if_neg (by omega)]
  · rw [clamp_of_ge (by omega)]
    rfl

end Sys2Proof

namespace Sys2Proof.Machine

/-! ### The sizes of the operations (R103, R118, R119, R128) -/

theorem Framing.txnSeq_setCount (bs : List Byte) :
    setCount (Framing.txnSeq bs) = 5 + 24 * bs.length := by
  obtain ⟨hcounts, -⟩ := transactionCounts
  obtain ⟨-, hset, -⟩ := hcounts bs
  exact hset

theorem writeSeq_setCount (c : Cfg) (bytes : List Byte) (offset : Nat) :
    setCount (writeSeq c bytes offset) = 58 + 24 * bytes.length := by
  rw [writeSeq, setCount_append, Framing.txnSeq_setCount, Framing.txnSeq_setCount,
    List.length_singleton, List.length_cons]
  omega

theorem writeSeq_waitUnits (c : Cfg) (bytes : List Byte) (offset : Nat) :
    waitUnits (writeSeq c bytes offset) = 76 + 32 * bytes.length := by
  rw [writeSeq, waitUnits_append, Framing.txnSeq_waitUnits, Framing.txnSeq_waitUnits,
    List.length_singleton, List.length_cons]
  omega

theorem microSeq_write_inRange (c : Cfg) {bytes : List Byte} {offset : Nat}
    (h : offset + bytes.length ≤ 16) :
    microSeq c (.writeDisplayMemory bytes offset) = writeSeq c bytes offset :=
  if_pos (decide_eq_true h)

theorem microSeq_write_outOfRange (c : Cfg) {bytes : List Byte} {offset : Nat}
    (h : 16 < offset + bytes.length) : microSeq c (.writeDisplayMemory bytes offset) = [] :=
  if_neg fun hr => absurd (of_decide_eq_true hr) (Nat.not_le.2 h)

/-- Settles O10: an operation is its transactions, whose counts add up. -/
theorem operationCounts : Obligations.OperationCounts := by
  refine ⟨fun c bytes offset h => ?_, fun c bytes offset h => microSeq_write_outOfRange c h,
    fun c b => ⟨rfl, Framing.txnSeq_length [_], Framing.txnSeq_setCount [_],
      Framing.txnSeq_waitUnits [_]⟩, microSeq_length_le⟩
  rw [microSeq_write_inRange c h, writeSeq_length, writeSeq_setCount, writeSeq_waitUnits]
  refine ⟨rfl, ?_, rfl, rfl, rfl, fun hlen => ?_⟩
  · rw [List.length_singleton, List.length_cons]
    omega
  · rw [hlen]
    exact ⟨rfl, rfl, rfl⟩

/-! ### Acceptance in READY (R118, R119, R144) -/

/-- At rest in READY every request is accepted and its own body runs. -/
theorem State.request_ready {s : State} (hrest : s.Resting) (hs : s.session = .ready) (op : Op)
    (body : State → State) : s.request op body = body (s.latch op) := by
  obtain ⟨hp, hm⟩ := hrest
  rw [State.request, if_pos ⟨hp, hm⟩, State.accept, hs]

/-- Settles O16: acceptance in range loads the two transactions. -/
theorem writeInRangeIsAccepted : Obligations.WriteInRangeIsAccepted :=
  fun _ _ _ hp hm hs h => exec_write_loads ⟨hp, hm⟩ hs h

/-- The observer acts on the `done` event of an operation that ended `OK` alone (R152, R153). -/
theorem Observer.see_done_of_ne_ok (c : Cfg) {r : Result} (h : r ≠ .ok) (o : Observer) :
    o.see c (.done r) = o := if_neg fun ⟨_, _, hr⟩ => h hr

/-- A RANGE_ERROR leaves the observer and the session as they are (R119, R168). -/
theorem State.conclude_rangeError (offset length : Nat) (s : State) :
    s.conclude (.rangeError offset length) =
      { s with
        res := some (.rangeError offset length),
        hist := s.hist ++ [.done (.rangeError offset length)],
        phase := .idle, cur := none, useq := [], mpc := 0 } := by
  have hobs : s.obs.see s.params (.done (.rangeError offset length)) = s.obs :=
    Observer.see_done_of_ne_ok _ Result.noConfusion _
  rw [State.conclude, State.emit, State.record_obs, State.record_params, hobs]
  rfl

/-- Settles O17: acceptance out of range concludes at once. -/
theorem writeOutOfRangeIsRangeError : Obligations.WriteOutOfRangeIsRangeError := by
  intro bytes offset s hp hm hs h
  have hstart : startWrite bytes offset (s.latch (.writeDisplayMemory bytes offset)) =
      (s.latch (.writeDisplayMemory bytes offset)).conclude (.rangeError offset bytes.length) := by
    rcases startWrite_cases bytes offset (s.latch (.writeDisplayMemory bytes offset)) with
      ⟨hle, -⟩ | ⟨-, e⟩
    · omega
    · exact e
  refine congrArg Host.Outcome.next ((State.request_ready ⟨hp, hm⟩ hs _ _).trans ?_)
  rw [hstart, State.conclude_rangeError, State.latch_hist, List.append_assoc]
  rfl

/-- At rest in READY a display control is accepted and loaded (R125, R144). -/
theorem exec_control_loads {s : State} (hrest : s.Resting) (hs : s.session = .ready) (b : Int) :
    exec (.setDisplayControl b) s =
      .next ((s.latch (.setDisplayControl b)).load (microSeq s.params (.setDisplayControl b))) :=
  congrArg Host.Outcome.next (State.request_ready hrest hs _ (startControl b))

/-- Settles O18: acceptance loads the one transaction of the clamped level's byte. -/
theorem displayControlIsAccepted : Obligations.DisplayControlIsAccepted := by
  intro b s hp hm hs
  rw [← encDc_clamp]
  exact exec_control_loads ⟨hp, hm⟩ hs b

/-! ### An accepted operation, to its end (R89, R129, R161, R166) -/

/-- On a clean port an accepted write or display control ends `OK`, a step for each micro-operation; the
observer has read its events and the `done` event. -/
theorem State.loaded_reaches {pc pd : Pin} {op : Op} {s : State} (hi : op.isInit = false)
    (hne : microSeq s.params op ≠ []) (hm : s.mfault = none) (hs : s.session = .ready)
    (hclk : s.clkPin = some pc) (hdin : s.dinPin = some pd)
    (hc : s.CleanFor (usesOf (microSeq s.params op))) :
    ∃ t : State, ((s.latch op).load (microSeq s.params op)).Reaches (microSeq s.params op).length t ∧
      t.res = some .ok ∧ t.Resting ∧ t.session = .ready ∧ t.lvl = idleHigh ∧
      t.hist = s.hist ++ [.accept op] ++ eventsOf pc pd (microSeq s.params op) ++ [.done .ok] ∧
      t.obs = (eventsOf pc pd (microSeq s.params op) ++ [Event.done .ok]).foldl
        (fun o e => Observer.see s.params e o) { s.obs with inInit := false } := by
  have hreach := State.reaches_ok (s := (s.latch op).load (microSeq s.params op))
    ⟨hm, .inl rfl, hclk, hdin⟩ rfl (microSeq s.params op) List.drop_zero hne hc
  have hdone := State.completedAll_spec pc pd (microSeq s.params op)
    ((s.latch op).load (microSeq s.params op))
  have hobs : ((s.latch op).load (microSeq s.params op)).obs = { s.obs with inInit := false } := by
    rw [← hi]
    rfl
  refine ⟨_, hreach, rfl, ⟨rfl, ?_⟩, ?_, ?_, ?_, ?_⟩
  · rw [State.conclude_mfault, hdone.mfault]
    exact hm
  · rw [State.conclude_session, hdone.cur, hdone.session]
    simp [sessionAfter, hi, hs]
  · rw [State.conclude_lvl, hdone.lvl, microSeq_levels hne]
  · rw [State.conclude_hist, hdone.hist]
    rfl
  · rw [State.conclude_obs, hdone.obs, hdone.params, List.foldl_append, hobs]
    rfl

theorem microSeq_control_events (c : Cfg) (pc pd : Pin) (b : Int) :
    eventsOf pc pd (microSeq c (.setDisplayControl b)) = txnEvents pc pd [encDc c (clamp b)] :=
  Framing.txnSeq_events pc pd _

/-- The effect of the control byte of level 0 (R73, R158). -/
theorem Device.applyBytes_displayOff {c : Cfg} (hv : c.Valid) {level : Int} (h : level = 0)
    (d : Device) : d.applyBytes c [encDc c level] = d.turnOff := by
  have hbyte : encDc c level = c.dispOff := if_pos h
  simp only [Device.applyBytes, Device.applyTransaction, hbyte, classify_off c hv]

/-- The effect of the control byte of a level from 1 to 8 (R73, R158). -/
theorem Device.applyBytes_displayOn {c : Cfg} (hv : c.Valid) {level : Int} (h1 : 1 ≤ level)
    (h8 : level ≤ 8) (d : Device) :
    d.applyBytes c [encDc c level] = d.turnOn (BitVec.ofNat 3 (level - 1).toNat) := by
  simp only [Device.applyBytes, Device.applyTransaction, encDc_level c h1 h8, classify_on c hv]

/-- One transaction and the end of its operation, from IDLE on an idle-high wire: the observer is back in
IDLE and has applied the transaction (R155, R158). -/
theorem Observer.see_txn_done (c : Cfg) (pc pd : Pin) (bytes : List Byte) {o : Observer}
    (hd : o.dec = .idle) (hw : o.wire = idleHigh) :
    ∃ ts, (txnEvents pc pd bytes ++ [Event.done .ok]).foldl (fun o e => o.see c e) o =
      { o with tokens := ts, dev := o.dev.applyBytes c bytes } := by
  rw [List.foldl_append, Observer.see_txn c pc pd bytes o hd hw]
  refine ⟨_, Observer.see_done c .ok _ ?_⟩
  rw [hd]
  exact Decoder.noConfusion

/-- Settles O41: acceptance loads the one transaction, each of its micro-operations is a step, and the
observer receives the transaction whole. -/
theorem displayControlReachesDevice : Obligations.DisplayControlReachesDevice := by
  intro pc pd b s hrest hs hclk hdin hclean
  have ⟨_, hm⟩ := hrest
  have hlen : (microSeq s.params (.setDisplayControl b)).length = 58 := Framing.txnSeq_length [_]
  have huses : usesOf (microSeq s.params (.setDisplayControl b)) = 29 := Framing.txnSeq_usesOf [_]
  obtain ⟨t, hreach, hres, htrest, hsession, hlvl, hhist, hobs⟩ :=
    State.loaded_reaches (op := .setDisplayControl b) rfl (List.ne_nil_of_length_pos (by omega)) hm hs
      hclk hdin (by rwa [huses])
  rw [hlen] at hreach
  rw [microSeq_control_events] at hhist hobs
  refine ⟨_, t, exec_control_loads hrest hs b, hreach, hres, htrest, hsession, hlvl, hhist,
    fun hd hw => ?_, fun hd => ?_⟩
  · obtain ⟨ts, hsee⟩ := Observer.see_txn_done s.params pc pd [encDc s.params (clamp b)]
      (o := { s.obs with inInit := false }) hd hw
    obtain ⟨h0, h8⟩ := clamp_bounds b
    rw [hobs, hsee]
    exact ⟨hd, hw, fun hv => ⟨fun hoff => Device.applyBytes_displayOff hv hoff _,
      fun hon => Device.applyBytes_displayOn hv (by omega) h8 _⟩⟩
  · rw [hobs]
    exact Observer.foldl_see_desync s.params _ (o := { s.obs with inInit := false }) hd

/-! ### What a request leaves unchanged (R119, R144, R172, R184) -/

/-- What no request writes, however it ends. -/
def State.SameOutside (s t : State) : Prop :=
  t.lvl = s.lvl ∧ t.lineCfg = s.lineCfg ∧ t.session = s.session ∧ t.txFaultSeen = s.txFaultSeen ∧
    t.cfgFaultSeen = s.cfgFaultSeen ∧ t.params = s.params ∧ t.answers = s.answers ∧
    t.asked = s.asked ∧ t.admitted = s.admitted ∧ t.arriving = s.arriving ∧
    t.obs.wire = s.obs.wire ∧ t.obs.tokens = s.obs.tokens ∧ t.obs.dec = s.obs.dec ∧
    t.obs.dev = s.obs.dev

/-- A request does nothing but hold, latch, fault, end with a RANGE_ERROR, bind and load. -/
theorem exec_op_sameOutside {op : Op} {s t : State} (he : exec op.toInstr s = .next t) :
    s.SameOutside t := by
  refine State.hostOp_keeps s.SameOutside op s t (fun _ h => h) (fun _ h => h) (fun _ _ h _ => h)
    (fun u o l h => ?_) (fun _ _ h => h) (fun _ _ _ _ h => h) ?_ he
  · rw [State.conclude_rangeError]
    exact h
  · exact ⟨rfl, rfl, rfl, rfl, rfl, rfl, rfl, rfl, rfl, rfl, rfl, rfl, rfl, rfl⟩

/-- Only an INITIALIZE binds pins (R147). -/
theorem exec_op_samePins {op : Op} {s t : State} (hi : op.isInit = false)
    (he : exec op.toInstr s = .next t) : t.clkPin = s.clkPin ∧ t.dinPin = s.dinPin := by
  refine State.hostOp_keeps (fun u => u.clkPin = s.clkPin ∧ u.dinPin = s.dinPin) op s t
    (fun _ h => h) (fun _ h => h) (fun _ _ h _ => h) (fun _ _ _ h => h) (fun _ _ h => h)
    (fun _ pc pd e _ => ?_) ⟨rfl, rfl⟩ he
  subst e
  cases hi

/-- A request delivers a result only where its own body does. -/
theorem State.request_res {op : Op} {body : State → State} (hb : ∀ u, (body u).res = u.res)
    (s : State) : (s.request op body).res = s.res := by
  rcases State.request_cases op body s with ⟨-, e⟩ | ⟨-, -, ⟨-, -, e⟩ | ⟨-, e⟩ | ⟨-, -, e⟩⟩ <;> rw [e]
  · rfl
  · exact hb _
  · rfl
  · rfl

theorem startInit_res (pc pd : Pin) (s : State) : (startInit pc pd s).res = s.res := by
  rcases startInit_cases pc pd s with ⟨-, e⟩ | ⟨-, -, -, e⟩ | ⟨-, -, e⟩ <;> rw [e] <;> rfl

/-- Only a write can deliver a result at its acceptance (R119). -/
theorem exec_op_sameRes {op : Op} {s t : State}
    (hw : ∀ bytes offset, op ≠ .writeDisplayMemory bytes offset)
    (he : exec op.toInstr s = .next t) : t.res = s.res := by
  cases op with
  | initSession pc pd =>
    obtain rfl := Host.Outcome.next.inj he
    exact State.request_res (startInit_res pc pd) s
  | writeDisplayMemory bytes offset => exact absurd rfl (hw bytes offset)
  | setDisplayControl b =>
    obtain rfl := Host.Outcome.next.inj he
    exact State.request_res (body := startControl b) (fun _ => rfl) s

/-- Settles O42: no part of a request writes the lines, the ports' inputs, the marks or the observer but
for `inInit`, and in RUN the request is held. -/
theorem requestFrame : Obligations.RequestFrame := by
  intro op s t he
  obtain ⟨hlvl, hcfg, hsession, htx, hcf, hparams, hanswers, hasked, hadmitted, harriving, hwire,
    htokens, hdec, hdev⟩ := exec_op_sameOutside he
  refine ⟨hlvl, hcfg, hsession, htx, hcf, hparams, hanswers, hasked, hadmitted, harriving, hwire,
    htokens, hdec, hdev, fun a => by rw [hdev], fun hi => exec_op_samePins hi he,
    fun hw => exec_op_sameRes hw he, fun hp => ?_⟩
  obtain rfl := Host.Outcome.next.inj ((requestInRunIsHeld op s (.inl hp)).symm.trans he)
  rfl

end Sys2Proof.Machine

/-! ## Proofs: the device session (42_device_session.md)

The waits of an operation; the acceptance of a request, with its model faults; then INITIALIZE on a clean
port, with what its observer sees, and INITIALIZE with a failed request. -/

namespace Sys2Proof.Machine

/-! ### Waits (R138, R182) -/

theorem Framing.bitSeq_wait_units {v : Level} {n : Nat} (h : MicroOp.wait n ∈ Framing.bitSeq v) :
    n = 1 ∨ n = 2 := by
  have hw : n = 1 ∨ n = 2 ∨ n = 1 := by
    simpa [Framing.bitSeq, Config.tSetup, Config.tHigh, Config.tLow] using h
  omega

theorem Framing.beginSeq_wait_units {n : Nat} (h : MicroOp.wait n ∈ Framing.beginSeq) : n = 1 := by
  simpa [Framing.beginSeq, Config.tStartD, Config.tStartC] using h

theorem Framing.endSeq_wait_units {n : Nat} (h : MicroOp.wait n ∈ Framing.endSeq) :
    n = 1 ∨ n = 2 := by
  simpa [Framing.endSeq, Config.tStopD, Config.tStopC, Config.tStopIdle] using h

/-- The waits of a transaction are those of its start condition, its bits and its stop condition. -/
theorem Framing.txnSeq_wait_units {bs : List Byte} {n : Nat}
    (h : MicroOp.wait n ∈ Framing.txnSeq bs) : n = 1 ∨ n = 2 := by
  rw [Framing.txnSeq, List.mem_append, List.mem_append, List.mem_flatMap] at h
  rcases h with (h | ⟨b, -, h⟩) | h
  · exact .inl (Framing.beginSeq_wait_units h)
  · obtain ⟨v, -, h⟩ := List.mem_flatMap.1 h
    exact Framing.bitSeq_wait_units h
  · exact Framing.endSeq_wait_units h

/-- Every micro-operation of INITIALIZE is a pin request (R137). -/
theorem initSeq_uses {o : InitOrder} {m : MicroOp} (h : m ∈ initSeq o) : m.uses = 1 := by
  revert m
  cases o <;> decide

/-- Settles O12: INITIALIZE consists of pin requests, the other two operations of transactions. -/
theorem waitsAreOneOrTwoUnits : Obligations.WaitsAreOneOrTwoUnits := by
  intro c op n h
  cases hi : op.isInit with
  | true =>
    obtain ⟨pc, pd, rfl⟩ := Op.eq_initSession hi
    exact absurd (initSeq_uses h) Nat.zero_ne_one
  | false =>
    refine ⟨?_, rfl⟩
    rcases microSeq_transactions c op hi with e | ⟨bs, e⟩ | ⟨as, bs, e⟩ <;> rw [e] at h
    · exact absurd h List.not_mem_nil
    · exact Framing.txnSeq_wait_units h
    · exact (List.mem_append.1 h).elim Framing.txnSeq_wait_units Framing.txnSeq_wait_units

/-! ### The acceptance of a request and its model faults (R136, R142 to R144, R172, R176) -/

/-- A host operation is a request with a body of its own. -/
theorem exec_op_request (op : Op) :
    ∃ body : State → State, ∀ s, exec op.toInstr s = .next (s.request op body) := by
  cases op with
  | initSession pc pd => exact ⟨_, fun _ => rfl⟩
  | writeDisplayMemory bytes offset => exact ⟨_, fun _ => rfl⟩
  | setDisplayControl b => exact ⟨_, fun _ => rfl⟩

theorem State.request_dead {s : State} (hrest : s.Resting) (hs : s.session = .dead) (op : Op)
    (body : State → State) : s.request op body = (s.latch op).modelFault .sessionDead := by
  obtain ⟨hp, hm⟩ := hrest
  rw [State.request, if_pos ⟨hp, hm⟩, State.accept, hs]

theorem State.request_uninitialized {s : State} (hrest : s.Resting) (hs : s.session = .uninitialized)
    {op : Op} (hi : op.isInit = false) (body : State → State) :
    s.request op body = (s.latch op).modelFault .notReady := by
  obtain ⟨hp, hm⟩ := hrest
  rw [State.request, if_pos ⟨hp, hm⟩, State.accept, hs]
  exact if_neg (Bool.eq_false_iff.1 hi)

/-- The session check lets an INITIALIZE pass but in DEAD (R144). -/
theorem exec_init_accepts {s : State} (hrest : s.Resting) (hs : s.session ≠ .dead) (pc pd : Pin) :
    exec (.initSession pc pd) s = .next (startInit pc pd (s.latch (.initSession pc pd))) := by
  refine congrArg Host.Outcome.next ?_
  rcases State.request_cases (.initSession pc pd) (startInit pc pd) s with
    ⟨hn, -⟩ | ⟨-, -, ⟨-, -, e⟩ | ⟨hd, -⟩ | ⟨-, hi, -⟩⟩
  · exact absurd hrest hn
  · exact e
  · exact absurd hd hs
  · cases hi

/-- The state after the acceptance of an INITIALIZE that binds its pins (R136). -/
def State.loadedInit (pc pd : Pin) (s : State) : State :=
  ((s.latch (.initSession pc pd)).bind pc pd).load (initSeq s.params.initOrder)

theorem exec_init_loads {pc pd : Pin} {s : State} (hrest : s.Resting) (hne : pc ≠ pd)
    (hb : s.session = .uninitialized ∨
      (s.session = .ready ∧ s.clkPin = some pc ∧ s.dinPin = some pd)) :
    exec (.initSession pc pd) s = .next (s.loadedInit pc pd) := by
  have hs : s.session ≠ .dead := by
    rcases hb with h | ⟨h, -⟩ <;> rw [h] <;> exact Session.noConfusion
  rw [exec_init_accepts hrest hs]
  rcases startInit_cases pc pd (s.latch (.initSession pc pd)) with
    ⟨heq, -⟩ | ⟨-, hready, hother, -⟩ | ⟨-, -, e⟩
  · exact absurd heq hne
  · rcases hb with h | ⟨-, h⟩
    · cases h.symm.trans hready
    · exact absurd h hother
  · exact congrArg Host.Outcome.next e

/-- Settles O15: the pins pass both checks of INITIALIZE, and `INIT_SEQ` is loaded. -/
theorem initializeIsAccepted : Obligations.InitializeIsAccepted :=
  fun _ _ _ hp hm hne hb => exec_init_loads ⟨hp, hm⟩ hne hb

/-- A model fault at acceptance, as a whole state (R172). -/
theorem State.modelFault_latch {s : State} (op : Op) (f : ModelFault) :
    (s.latch op).modelFault f =
      { s with
        mfault := some f, hist := s.hist ++ [.accept op, .mfault f],
        phase := .idle, cur := none, useq := [], mpc := 0,
        obs := { s.obs with inInit := op.isInit } } := by
  have hhist : s.hist ++ [.accept op, .mfault f] = s.hist ++ [.accept op] ++ [.mfault f] := by
    rw [List.append_assoc]
    rfl
  rw [hhist]
  rfl

/-- Settles O20: the session check faults before the pins are looked at, and equal pins before other
ones. -/
theorem modelFaultsAtAcceptance : Obligations.ModelFaultsAtAcceptance := by
  intro op f s hp hm h
  have hrest : s.Resting := ⟨hp, hm⟩
  rw [← State.modelFault_latch]
  obtain ⟨body, hexec⟩ := exec_op_request op
  rcases h with ⟨rfl, hs⟩ | ⟨rfl, hs, hi⟩ | ⟨rfl, hs, p, rfl⟩ | ⟨rfl, hs, pc, pd, rfl, hne, hother⟩
  · rw [hexec, State.request_dead hrest hs]
  · rw [hexec, State.request_uninitialized hrest hs hi]
  · exact (exec_init_accepts hrest hs p p).trans (congrArg Host.Outcome.next (if_pos rfl))
  · have hnd : s.session ≠ .dead := by
      rw [hs]
      exact Session.noConfusion
    refine (exec_init_accepts hrest hnd pc pd).trans (congrArg Host.Outcome.next ?_)
    rcases startInit_cases pc pd (s.latch (.initSession pc pd)) with
      ⟨heq, -⟩ | ⟨-, -, -, e⟩ | ⟨-, hsame, -⟩
    · exact absurd heq hne
    · exact e
    · exact absurd (hsame hs) hother

/-! ### INITIALIZE on a clean port (R137, R138, R140) -/

theorem usesOf_eq_length {ms : List MicroOp} (h : ∀ m ∈ ms, m.uses = 1) : usesOf ms = ms.length := by
  rw [usesOf, List.map_congr_left h, List.map_const', List.sum_replicate, smul_eq_mul, Nat.mul_one]

theorem initSeq_usesOf (o : InitOrder) : usesOf (initSeq o) = 4 :=
  (usesOf_eq_length fun _ => initSeq_uses).trans (initSeq_length o)

theorem initSeq_levels (o : InitOrder) (p : PerLine KLevel) : levelsAfter (initSeq o) p = idleHigh := by
  cases o <;> rfl

theorem initSeq_cfgs (o : InitOrder) (p : PerLine KCfg) :
    cfgsAfter (initSeq o) p = { clk := .yes, din := .yes } := by
  cases o <;> rfl

/-- INITIALIZE drives no line low (R137). -/
theorem initSeq_set_high {o : InitOrder} {l : Line} {lv : Level} (h : MicroOp.set l lv ∈ initSeq o) :
    lv = .high := by
  have hl : (l = .clk ∧ lv = .high) ∨ (l = .din ∧ lv = .high) := by
    cases o <;> simpa [initSeq, or_comm] using h
  exact hl.elim And.right And.right

/-- The observer makes nothing of a line that is driven high: in PRE and in DESYNC it ignores every edge
(R152, R153), and on an idle-high wire there is none. -/
def Observer.IgnoresHigh (o : Observer) : Prop :=
  o.dec = .pre ∨ o.dec = .desync ∨ (o.dec = .idle ∧ o.wire = idleHigh)

theorem Observer.IgnoresHigh.drive_high {o : Observer} (h : o.IgnoresHigh) (c : Cfg) (l : Line) :
    o.drive c l .high = { o with wire := o.wire.set l .high } := by
  unfold Observer.drive
  cases he : edgeOf o.wire l .high with
  | none => rw [edgeOf_none _ _ _ he]
  | some e =>
    rcases h with hd | hd | ⟨-, hw⟩
    · simp [Observer.feed, hd]
    · simp [Observer.feed, hd]
    · rw [hw] at he
      cases l <;> cases he

theorem Observer.IgnoresHigh.set_high {o : Observer} (h : o.IgnoresHigh) (l : Line) :
    ({ o with wire := o.wire.set l .high } : Observer).IgnoresHigh := by
  rcases h with hd | hd | ⟨hd, hw⟩
  · exact .inl hd
  · exact .inr (.inl hd)
  · refine .inr (.inr ⟨hd, ?_⟩)
    rw [hw]
    cases l <;> rfl

/-- Of micro-operations that drive no line low it takes the levels alone. -/
theorem Observer.IgnoresHigh.foldl_see {o : Observer} (h : o.IgnoresHigh) (c : Cfg) (pc pd : Pin)
    {ms : List MicroOp} (hms : ∀ l lv, MicroOp.set l lv ∈ ms → lv = .high) :
    (eventsOf pc pd ms).foldl (fun o e => o.see c e) o = { o with wire := levelsAfter ms o.wire } := by
  induction ms generalizing o with
  | nil => rfl
  | cons m ms ih =>
    have htail : ∀ l lv, MicroOp.set l lv ∈ ms → lv = .high := fun l lv hm =>
      hms l lv (List.mem_cons_of_mem _ hm)
    cases m with
    | cfg l => exact ih h htail
    | set l lv =>
      obtain rfl := hms l lv List.mem_cons_self
      have hsee : o.see c (.set l (pinOfLine pc pd l) .high .ok) =
          { o with wire := o.wire.set l .high } := h.drive_high c l
      rw [eventsOf, List.foldl_cons, hsee, ih (h.set_high l) htail]
      rfl
    | wait n => exact ih h htail

/-- The wire follows the levels commanded by micro-operations that complete (R150). -/
theorem Observer.foldl_see_wire (c : Cfg) (pc pd : Pin) (ms : List MicroOp) (o : Observer) :
    ((eventsOf pc pd ms).foldl (fun o e => o.see c e) o).wire = levelsAfter ms o.wire := by
  induction ms generalizing o with
  | nil => rfl
  | cons m ms ih =>
    cases m with
    | cfg l => exact ih o
    | set l lv =>
      refine (ih _).trans (congrArg (levelsAfter ms) ?_)
      exact Observer.see_wire c (.set l (pinOfLine pc pd l) lv .ok) o
    | wait n => exact ih o

/-- What the observer has read once an INITIALIZE has ended `OK` (R68, R150). -/
def Observer.afterInit (c : Cfg) (pc pd : Pin) (o : Observer) : Observer :=
  (eventsOf pc pd (initSeq c.initOrder) ++ [Event.done .ok]).foldl (fun o e => o.see c e)
    { o with inInit := true }

theorem Observer.afterInit_wire (c : Cfg) (pc pd : Pin) (o : Observer) :
    (o.afterInit c pc pd).wire = idleHigh := by
  rw [Observer.afterInit, List.foldl_append]
  exact (Observer.see_wire c (.done .ok) _).trans
    ((Observer.foldl_see_wire c pc pd _ _).trans (initSeq_levels _ _))

/-- From PRE, from IDLE on an idle-high wire, and in DESYNC: the wire goes idle-high, and the `done` event
takes the decoder from PRE to IDLE (R152, R153). -/
theorem Observer.IgnoresHigh.afterInit {o : Observer} (h : o.IgnoresHigh) (c : Cfg) (pc pd : Pin) :
    o.afterInit c pc pd =
      { o with
        wire := idleHigh, inInit := true, dec := if o.dec = .pre then .idle else o.dec } := by
  have h' : ({ o with inInit := true } : Observer).IgnoresHigh := h
  rw [Observer.afterInit, List.foldl_append, h'.foldl_see c pc pd fun _ _ => initSeq_set_high,
    initSeq_levels, List.foldl_cons, List.foldl_nil]
  by_cases hd : o.dec = .pre
  · simp [Observer.see, hd]
  · rw [if_neg hd]
    exact Observer.see_done c .ok _ hd

/-- On a clean port an accepted INITIALIZE ends `OK` after its four requests (R140, R166). -/
theorem State.loadedInit_reaches {pc pd : Pin} {s : State} (hm : s.mfault = none)
    (hc : s.CleanFor 4) :
    ∃ t : State, (s.loadedInit pc pd).Reaches 4 t ∧ t.session = .ready ∧ t.clkPin = some pc ∧
      t.dinPin = some pd ∧ t.lineCfg = { clk := .yes, din := .yes } ∧ t.lvl = idleHigh ∧
      t.phase = .idle ∧ t.mpc = 0 ∧ t.useq = [] ∧ t.cur = none ∧ t.res = some .ok ∧
      t.mfault = none ∧ t.txFaultSeen = s.txFaultSeen ∧
      t.hist = s.hist ++ [.accept (.initSession pc pd)] ++
        eventsOf pc pd (initSeq s.params.initOrder) ++ [.done .ok] ∧
      t.obs = s.obs.afterInit s.params pc pd := by
  have hlen := initSeq_length s.params.initOrder
  have hreach := State.reaches_ok (s := s.loadedInit pc pd) ⟨hm, .inl rfl, rfl, rfl⟩ rfl
    (initSeq s.params.initOrder) List.drop_zero (List.ne_nil_of_length_pos (by omega))
    (by rwa [initSeq_usesOf])
  have hdone := State.completedAll_spec pc pd (initSeq s.params.initOrder) (s.loadedInit pc pd)
  rw [hlen] at hreach
  refine ⟨_, hreach, ?_, hdone.clkPin, hdone.dinPin, ?_, ?_, rfl, rfl, rfl, rfl, rfl,
    hdone.mfault.trans hm, hdone.txFaultSeen, ?_, ?_⟩
  · rw [State.conclude_session, hdone.cur]
    rfl
  · rw [State.conclude_lineCfg, hdone.lineCfg, initSeq_cfgs]
  · rw [State.conclude_lvl, hdone.lvl, initSeq_levels]
  · rw [State.conclude_hist, hdone.hist]
    rfl
  · rw [State.conclude_obs, hdone.obs, hdone.params, Observer.afterInit, List.foldl_append]
    rfl

/-- Settles O38: acceptance loads `INIT_SEQ`, each of its four requests is a step, and the observer makes
nothing of the lines going idle-high. -/
theorem initializeReachesReady : Obligations.InitializeReachesReady := by
  intro pc pd s hrest hne hclean hb
  have ⟨_, hm⟩ := hrest
  obtain ⟨t, hreach, hsession, hclk, hdin, hcfg, hlvl, hphase, hmpc, huseq, hcur, hres, hmfault, htx,
    hhist, hobs⟩ := State.loadedInit_reaches (pc := pc) (pd := pd) hm hclean
  refine ⟨_, t, exec_init_loads hrest hne hb, hreach, hsession, hclk, hdin, hcfg, hlvl, hphase, hmpc,
    huseq, hcur, hres, hmfault, htx, ?_, ?_, fun hd => ?_, fun hd => ?_⟩
  · rw [hhist]
    cases s.params.initOrder <;> rfl
  · rw [hobs, Observer.afterInit_wire]
  · have hi : s.obs.IgnoresHigh := hd.imp_right .inr
    rw [hobs, hi.afterInit]
    refine ⟨?_, rfl, rfl⟩
    rcases hd with hd | ⟨hd, -⟩ <;> simp [hd]
  · have hi : s.obs.IgnoresHigh := .inr (.inl hd)
    rw [hobs, hi.afterInit]
    exact ⟨by simp [hd], rfl, rfl⟩

/-! ### INITIALIZE with a failed request (R141) -/

/-- Where the first request answered with `err(e)` is that of the micro-operation at `k` of those to come,
the operation in progress fails after `k + 1` steps (R89, R95). -/
theorem State.reaches_failed {pc pd : Pin} {e : PinErr} {s : State} (hi : s.IssuesOn pc pd)
    (hp : s.phase = .run) {ms : List MicroOp} (hd : s.useq.drop s.mpc = ms) {k : Nat} {m : MicroOp}
    (hk : ms[k]? = some m) (hm : m.uses = 1) (hc : s.CleanFor (usesOf (ms.take k)))
    (ha : s.answerAt (usesOf (ms.take k)) = .err e) :
    s.Reaches (k + 1) ((s.completedAll pc pd (ms.take k)).failed pc pd e m) := by
  have ⟨hf, _, hclk, hdin⟩ := hi
  obtain ⟨hlt, rfl⟩ := List.getElem?_eq_some_iff.1 hk
  have hlen : (ms.take k).length = k := List.length_take_of_le hlt.le
  have hreach := State.reaches_completedAll hi hp (ms.take k) (ms.drop k)
    (by rw [hd, List.take_append_drop]) (by simpa using hlt) hc
  rw [hlen] at hreach
  have h := State.completedAll_spec pc pd (ms.take k) s
  generalize s.completedAll pc pd (ms.take k) = u at h hreach
  have hrun := h.phase.trans hp
  have hget : u.useq[u.mpc]? = some ms[k] := by
    rw [h.useq, h.mpc, if_pos hp, hlen, ← List.getElem?_drop, hd, hk]
  have hstep := (exec_micro ms[k] u).symm.trans
    (exec_request_fails ⟨h.mfault.trans hf, .inl hrun, h.clkPin.trans hclk, h.dinPin.trans hdin⟩
      ((h.answerAt 0).trans ha) hm)
  exact hreach.trans (.one ((step_micro (h.mfault.trans hf) hrun hget).trans hstep))

/-- The first request answered with `err(e)` fails after the ones before it have completed: every request
of `INIT_SEQ` takes one answer, so that answer `k` is that of request `k`. -/
theorem State.loadedInit_fails {pc pd : Pin} {k : Nat} {e : PinErr} {m : MicroOp} {s : State}
    (hm : s.mfault = none) (hk : (initSeq s.params.initOrder)[k]? = some m) (hc : s.CleanFor k)
    (ha : s.answerAt k = .err e) :
    ∃ u : State, (s.loadedInit pc pd).Reaches (k + 1) (u.failed pc pd e m) ∧
      State.Completed pc pd ((initSeq s.params.initOrder).take k) (s.loadedInit pc pd) u ∧
      u.asked = s.asked + k := by
  have hlt := (List.getElem?_eq_some_iff.1 hk).1
  have huses : usesOf ((initSeq s.params.initOrder).take k) = k :=
    (usesOf_eq_length fun _ h => initSeq_uses (List.mem_of_mem_take h)).trans
      (List.length_take_of_le hlt.le)
  have h := State.completedAll_spec pc pd ((initSeq s.params.initOrder).take k) (s.loadedInit pc pd)
  refine ⟨_, State.reaches_failed (s := s.loadedInit pc pd) (ms := initSeq s.params.initOrder)
    ⟨hm, .inl rfl, rfl, rfl⟩ rfl List.drop_zero hk (initSeq_uses (List.mem_of_getElem? hk)) ?_ ?_, h,
    ?_⟩
  · rwa [huses]
  · rwa [huses]
  · rw [h.asked, huses]
    rfl

/-- A request with the event `ev` on line `l` fails in an INITIALIZE after the micro-operations `ms`:
CONFIGURATION_ERROR names its index and line, the session is DEAD and the mark set (R94, R141, R170);
`lc` is what is left of the configuration records. -/
theorem State.Completed.loadedInit_failed {pc pd : Pin} {ms : List MicroOp} {s u : State}
    (h : State.Completed pc pd ms (s.loadedInit pc pd) u) (ev : Event) (l : Line)
    (lv : Option Level) (e : PinErr) (lc : PerLine KCfg) {t : State}
    (ht : t = State.conclude (u.failure l lv e)
      { u.takeAnswer.emit ev with lvl := u.lvl.set l .x, lineCfg := lc }) :
    t.session = .dead ∧ t.cfgFaultSeen = true ∧ t.txFaultSeen = s.txFaultSeen ∧ t.phase = .idle ∧
      t.asked = u.asked + 1 ∧
      t.res = some (.configurationError ms.length l e) ∧ t.lineCfg = lc ∧
      t.lvl = (levelsAfter ms s.lvl).set l .x ∧
      t.hist = s.hist ++ [.accept (.initSession pc pd)] ++ eventsOf pc pd ms ++
        [ev, .done (.configurationError ms.length l e)] := by
  have hmpc : u.mpc = ms.length := (h.mpc_run rfl).trans (Nat.zero_add _)
  rw [State.failure_init h.cur rfl, hmpc] at ht
  subst ht
  refine ⟨rfl, rfl, h.txFaultSeen, rfl, rfl, rfl, rfl, ?_, ?_⟩
  · rw [State.conclude_lvl, h.lvl]
    rfl
  · simp [h.hist, State.loadedInit]

/-- Settles O39: the requests before the failed one complete; a failed `CFG` writes one record more than a
failed `SET`. -/
theorem initializeFailureIsDead : Obligations.InitializeFailureIsDead := by
  intro pc pd k e m s hrest hne hk hclean hanswer hb
  have ⟨_, hm⟩ := hrest
  obtain ⟨u, hreach, h, hasked⟩ := State.loadedInit_fails (pc := pc) (pd := pd) hm hk hclean hanswer
  have hlen : ((initSeq s.params.initOrder).take k).length = k :=
    List.length_take_of_le (List.getElem?_eq_some_iff.1 hk).1.le
  refine ⟨_, _, exec_init_loads hrest hne hb, hreach, ?_⟩
  cases m with
  | cfg l =>
    have hfail := h.loadedInit_failed (.cfg l (pinOfLine pc pd l) (.err e)) l none e
      (u.lineCfg.set l .x) (t := u.failed pc pd e (.cfg l)) rfl
    rw [hlen, hasked, h.lineCfg] at hfail
    obtain ⟨hsess, hmark, htx, hidle, hask, hleft⟩ := hfail
    refine ⟨hsess, hmark, htx, hidle, hask, fun l' hl => ?_, fun _ _ hl => MicroOp.noConfusion hl⟩
    cases hl
    exact hleft
  | set l lv =>
    have hfail := h.loadedInit_failed (.set l (pinOfLine pc pd l) lv (.err e)) l (some lv) e
      u.lineCfg (t := u.failed pc pd e (.set l lv)) rfl
    rw [hlen, hasked, h.lineCfg] at hfail
    obtain ⟨hsess, hmark, htx, hidle, hask, hleft⟩ := hfail
    refine ⟨hsess, hmark, htx, hidle, hask, fun _ hl => MicroOp.noConfusion hl, fun l' lv' hl => ?_⟩
    cases hl
    exact hleft
  | wait n => exact absurd (initSeq_uses (List.mem_of_getElem? hk)) Nat.zero_ne_one

end Sys2Proof.Machine

/-! ## Proofs: the wire decoder (43_wire_decoder.md)

The transaction as the decoder reads it; then the loss of synchronisation, and what a transaction does to
the device, whole and byte by byte. -/

namespace Sys2Proof.Machine

/-! ### The decoder reads a transaction (R150 to R156, R158) -/

/-- Outside PRE the observer makes nothing of the end of the operation (R152). -/
theorem State.finish_obs {s : State} (h : s.obs.dec ≠ .pre) : s.finish.obs = s.obs := by
  by_cases hend : s.phase = .run ∧ s.useq.length ≤ s.mpc
  · rw [State.finish_run hend.1 hend.2, State.conclude_obs, Observer.see_done _ _ _ h]
  · rw [State.finish_on hend]

/-- Settles O33: the micro-operations of the transaction complete, the observer reads their events, and the
end of the operation, where it comes, changes nothing for it. -/
theorem decoderReadsTransaction : Obligations.DecoderReadsTransaction := by
  intro pc pd bytes s hi hc _ hd hw
  have hdone := State.completedAll_spec pc pd (Framing.txnSeq bytes) s
  have hobs := hdone.obs
  rw [Framing.txnSeq_events, Observer.see_txn s.params pc pd bytes s.obs hd hw] at hobs
  have hfinish : (s.framing (Framing.txnSeq bytes)).obs =
      (s.completedAll pc pd (Framing.txnSeq bytes)).obs := by
    rw [State.framing_completes hi _ (by rwa [Framing.txnSeq_usesOf])]
    refine State.finish_obs ?_
    rw [hobs, hd]
    exact Decoder.noConfusion
  refine ⟨_, rfl, ?_⟩
  rw [hfinish, hobs]
  exact ⟨hd, hw, rfl, rfl⟩

/-! ### A failed request loses synchronisation (R150, R151, R163) -/

/-- A line of known level that goes to `X` is an edge with an unknown level (R151). -/
theorem edgeOf_x_of_known {w : PerLine KLevel} {l : Line} (h : w.get l ≠ .x) :
    edgeOf w l .x = some .unknown := by
  refine (edgeOf_x w l).resolve_left fun hnone => h ?_
  rw [← edgeOf_none w l .x hnone, PerLine.get_set_same]

theorem Observer.feed_unknown (c : Cfg) {o : Observer} (hpre : o.dec ≠ .pre) (hd : o.dec ≠ .desync) :
    o.feed c .unknown = o.loseSync := by
  unfold Observer.feed
  cases hdec : o.dec with
  | pre => exact absurd hdec hpre
  | idle => rfl
  | active bits n bytes => rfl
  | desync => exact absurd hdec hd

theorem Observer.drive_x_of_known (c : Cfg) {l : Line} {o : Observer} (hpre : o.dec ≠ .pre)
    (hd : o.dec ≠ .desync) (hw : o.wire.get l ≠ .x) :
    o.drive c l .x = Observer.loseSync { o with wire := o.wire.set l .x } := by
  simp only [Observer.drive, edgeOf_x_of_known hw]
  exact Observer.feed_unknown c hpre hd

/-- Settles O34: a failed request takes its line to `X`; in DESYNC no event has an effect. -/
theorem failedRequestLosesSync : Obligations.FailedRequestLosesSync := by
  refine ⟨fun c l pin lv e o hpre hd hw => ?_, fun c e o hd => ?_⟩
  · simp only [Observer.see, Observer.drive_x_of_known c hpre hd hw]
    exact ⟨rfl, rfl, rfl, rfl⟩
  · obtain ⟨ts, htokens, -, hdesync⟩ := Observer.see_follows c e o
    obtain ⟨hdec, rfl, hdev⟩ := hdesync hd
    exact ⟨hdec, hdev, htokens.trans (List.append_nil _)⟩

/-! ### A transaction at the device, whole and byte by byte (R156, R158) -/

theorem restPosition_addr {c : Cfg} {control : Byte} {a : BitVec 4}
    (h : classify c control = .addr a) : restPosition c control = .payload := by
  rw [restPosition, h]

theorem restPosition_of_not_addr {c : Cfg} {control : Byte} (h : ∀ a, classify c control ≠ .addr a) :
    restPosition c control = .extra := by
  unfold restPosition
  split
  · rename_i a ha
    exact absurd ha (h a)
  · rfl

/-- An address byte sets the pointer, and the bytes after it are payload (R158). -/
theorem Device.applyBytes_addr {c : Cfg} {control : Byte} {a : BitVec 4}
    (h : classify c control = .addr a) (rest : List Byte) (d : Device) :
    d.applyBytes c (control :: rest) =
      rest.foldl (fun e p => e.takePayload p) (d.setPointer a) := by
  simp only [Device.applyBytes, Device.applyTransaction, h]

/-- A transaction of one byte has the effect of the command its class names (R158, R159). -/
theorem Device.applyBytes_singleton (c : Cfg) (control : Byte) (d : Device) :
    d.applyBytes c [control] = d.take (classify c control).command := by
  simp only [Device.applyBytes, Device.applyTransaction]
  cases classify c control <;> rfl

/-- A byte after a control byte that takes none makes all device state unknown (R158). -/
theorem Device.applyBytes_extra {c : Cfg} {control : Byte} (h : ∀ a, classify c control ≠ .addr a)
    (p : Byte) (ps : List Byte) (d : Device) :
    d.applyBytes c (control :: p :: ps) = Device.unknown := by
  simp only [Device.applyBytes, Device.applyTransaction]
  cases hk : classify c control with
  | addr a => exact absurd hk (h a)
  | _ => rfl

/-- A byte in the control position has the effect of the command its class names: a byte of no command
makes all device state unknown, whether the decoder reads it as the offset-16 byte or rejects it
(R158, R159). -/
theorem Device.applyByte_control (c : Cfg) (b : Byte) (d : Device) :
    d.applyByte c (.control, b) = d.take (classify c b).command := by
  by_cases hk : classify c b = .other
  · rw [hk]
    simp only [Device.applyByte, decodeByte, decodeControl_of_other hk]
    split_ifs <;> rfl
  · simp only [Device.applyByte, decodeByte, decodeControl_of_ne_other hk]

/-- Decoding the bytes one after another, each at its position, does what the whole transaction does. -/
theorem Device.foldl_applyByte_positions (c : Cfg) (control : Byte) (rest : List Byte) (d : Device) :
    (positions c (control :: rest)).foldl (Device.applyByte c) d =
      d.applyBytes c (control :: rest) := by
  rw [positions, List.foldl_cons, List.foldl_map, Device.applyByte_control]
  by_cases haddr : ∃ a, classify c control = .addr a
  · obtain ⟨a, ha⟩ := haddr
    rw [restPosition_addr ha, Device.applyBytes_addr ha, ha]
    rfl
  · have hnot : ∀ a, classify c control ≠ .addr a := fun a ha => haddr ⟨a, ha⟩
    rw [restPosition_of_not_addr hnot]
    cases rest with
    | nil => exact (Device.applyBytes_singleton c control d).symm
    | cons p ps =>
      rw [Device.applyBytes_extra hnot]
      exact List.foldl_fixed' (a := Device.unknown) (fun _ => rfl) ps

/-- Payload bytes are stored from the pointer onwards, or all device state becomes unknown. -/
theorem Device.takePayloads_lost_or_stored (ps : List Byte) {d : Device} {q : Nat}
    (hq : d.ptr = some q) :
    ps.foldl (fun e p => e.takePayload p) d = Device.unknown ∨
      (ps.foldl (fun e p => e.takePayload p) d).mem = Memory.writeFrom d.mem q ps := by
  induction ps generalizing d q with
  | nil => exact .inr rfl
  | cons p ps ih =>
    rw [List.foldl_cons]
    by_cases hslot : d.autoinc = some true ∧ q < 16
    · obtain ⟨ha, hlt⟩ := hslot
      rw [Device.takePayload_slot p ha hq hlt]
      exact ih rfl
    · have hlost : d.takePayload p = Device.unknown := by
        refine Device.takePayload_lost p ?_
        rcases not_and_or.1 hslot with ha | hge
        · exact .inl ha
        · exact .inr (.inr ⟨q, hq, not_lt.1 hge⟩)
      rw [hlost]
      exact .inl (List.foldl_fixed' Device.takePayload_unknown ps)

/-- A control byte alone stores nothing. -/
theorem Device.take_command_mem (k : Class) (d : Device) :
    d.take k.command = Device.unknown ∨ (d.take k.command).mem = d.mem := by
  cases k with
  | other => exact .inl rfl
  | _ => exact .inr rfl

/-- Unless all device state becomes unknown, a transaction stores its payload from its address onwards,
and nothing else. -/
theorem Device.applyBytes_read_outside (c : Cfg) (control : Byte) (rest : List Byte) (d : Device) :
    d.applyBytes c (control :: rest) = Device.unknown ∨
      ∀ q, (∀ a, classify c control = .addr a → q < a.toNat ∨ a.toNat + rest.length ≤ q) →
        Memory.read (d.applyBytes c (control :: rest)).mem q = Memory.read d.mem q := by
  by_cases haddr : ∃ a, classify c control = .addr a
  · obtain ⟨a, ha⟩ := haddr
    rw [Device.applyBytes_addr ha]
    refine (Device.takePayloads_lost_or_stored rest (d := d.setPointer a) rfl).imp_right
      fun hmem q hq => ?_
    rw [hmem]
    exact Memory.read_writeFrom_outside d.mem a.toNat rest q (hq a ha)
  · cases rest with
    | nil =>
      rw [Device.applyBytes_singleton]
      exact (Device.take_command_mem (classify c control) d).imp_right
        fun hmem _ _ => congrArg (Memory.read · _) hmem
    | cons p ps => exact .inl (Device.applyBytes_extra (fun a ha => haddr ⟨a, ha⟩) p ps d)

/-- Settles O37: R158 is how the model applies a transaction; by whether the control byte is an address
byte, the bytes one by one and the slots it leaves alone. -/
theorem bytewiseApplicationIsTransaction : Obligations.BytewiseApplicationIsTransaction :=
  fun c control rest d => ⟨rfl, Device.foldl_applyByte_positions c control rest d,
    Device.applyBytes_read_outside c control rest d⟩

end Sys2Proof.Machine

/-! ## Proofs: a request that is never answered (60_exceptions.md)

The micro-operation stops where it stands, and so does every step that issues it (R188). -/

namespace Sys2Proof.Machine

/-- Every micro-operation but a `WAIT` is a request (R91 to R93). -/
theorem MicroOp.uses_eq_one {m : MicroOp} (h : ∀ n, m ≠ .wait n) : m.uses = 1 := by
  cases m with
  | cfg l => rfl
  | set l lv => rfl
  | wait n => exact absurd rfl (h n)

/-- A request on a bound line that the port never answers stops with the state as it is (R188). -/
theorem State.issue_never {pc pd : Pin} {s : State} (hc : s.clkPin = some pc)
    (hd : s.dinPin = some pd) {m : MicroOp} (hm : m.uses = 1) (ha : s.portAnswer = .never) :
    s.issue m = .stopped s := by
  have hp := State.pinOf_eq hc hd
  cases m with
  | cfg l => simp only [State.issue, State.issueCfg, hp, ha]
  | set l lv => simp only [State.issue, State.issueSet, hp, ha]
  | wait n => cases hm

/-- A request that is issued and never answered leaves the state as it is, with no check for the end of
the operation (R89, R188). -/
theorem State.framing_never {pc pd : Pin} {s : State} (hi : s.IssuesOn pc pd)
    (ha : s.portAnswer = .never) {m : MicroOp} (hm : m.uses = 1) : s.framing [m] = s := by
  have ⟨_, _, hclk, hdin⟩ := hi
  rw [State.framing_issues hi, State.issueAll, State.issue_never hclk hdin hm ha]

/-- Executed as an instruction, too, an unanswered request leaves the state as it is (R188). -/
theorem exec_request_never {pc pd : Pin} {s : State} (hi : s.IssuesOn pc pd)
    (ha : s.portAnswer = .never) {m : MicroOp} (hm : m.uses = 1) : exec m.toInstr s = .next s := by
  rw [exec_micro, State.framing_never hi ha hm]

/-- A state that a step leaves as it is stays as it is for any number of steps. -/
theorem State.Reaches.stays {s : State} (h : step s = .next s) (k : Nat) : s.Reaches k s := by
  induction k with
  | zero => exact State.Reaches.refl s
  | succ k ih => exact State.Reaches.head h ih

/-- Settles O26: the unanswered request changes nothing, so that the step that issues it leads back to
the same state, where it is issued again. -/
theorem unansweredRequestIsStuck : Obligations.UnansweredRequestIsStuck := by
  intro pc pd s hi ha
  have ⟨hf, _⟩ := hi
  refine ⟨fun l => exec_request_never hi ha (m := .cfg l) rfl,
    fun l lv => exec_request_never hi ha (m := .set l lv) rfl, fun m hp hu hw => ?_⟩
  have hstep : step s = .next s := by
    rw [step_micro hf hp hu, State.framing_never hi ha (MicroOp.uses_eq_one hw)]
  exact State.Reaches.stays hstep

end Sys2Proof.Machine

/-! ## Proofs: reset and hazards (70_reset_and_hazards.md)

The state after reset; then the wait that each `SET` of a transaction is followed by, read off position by
position, and the history of an operation up to one of its `SET`s. -/

namespace Sys2Proof.Machine

/-! ### The state after reset (R190) -/

/-- Settles O54: each field of `State.reset` is written out, and the device of its observer has no known
slot. -/
theorem resetState : Obligations.ResetState :=
  ⟨rfl, rfl, rfl, rfl, rfl, rfl, rfl, rfl, rfl, rfl, rfl, rfl, rfl, rfl, rfl, rfl, fun _ => rfl, rfl,
    rfl, rfl, rfl⟩

/-! ### The wait after a `SET` (R197, R198) -/

/-- The units waited after `SET(l, lv)`, from the `SET` before it and the one after it: `T_HIGH` and
`T_STOP_IDLE` are of two units, the other windows of one. -/
def waitAfter (prev next : Option MicroOp) (l : Line) (lv : Level) : Nat :=
  if (l = .clk ∧ lv = .high ∧ next = some (.set .clk .low)) ∨
      (l = .din ∧ lv = .high ∧ prev = some (.set .clk .high)) then 2 else 1

/-- A `SET` and its `WAIT`, and so on, each wait as `waitAfter` has it; `prev` is the `SET` before. -/
def Framing.Spaced : Option MicroOp → List MicroOp → Prop
  | _, [] => True
  | prev, .set l lv :: .wait w :: ms =>
    w = waitAfter prev ms.head? l lv ∧ Framing.Spaced (some (.set l lv)) ms
  | _, _ => False

/-- The start condition begins with DATA low, so that nothing before it matters (R96). -/
theorem Framing.beginSeq_append_spaced {rest : List MicroOp}
    (h : Framing.Spaced (some (.set .clk .low)) rest) (prev : Option MicroOp) :
    Framing.Spaced prev (Framing.beginSeq ++ rest) := by
  simp [Framing.beginSeq, Framing.Spaced, waitAfter, Config.tStartD, Config.tStartC, h]

/-- A bit begins and ends with CLOCK low (R98). -/
theorem Framing.bitSeq_append_spaced (v : Level) {rest : List MicroOp}
    (h : Framing.Spaced (some (.set .clk .low)) rest) :
    Framing.Spaced (some (.set .clk .low)) (Framing.bitSeq v ++ rest) := by
  simp [Framing.bitSeq, Framing.Spaced, waitAfter, Config.tSetup, Config.tHigh, Config.tLow, h]

/-- The stop condition ends with DATA raised while CLOCK is high (R101). -/
theorem Framing.endSeq_append_spaced {rest : List MicroOp}
    (h : Framing.Spaced (some (.set .din .high)) rest) (prev : Option MicroOp) :
    Framing.Spaced prev (Framing.endSeq ++ rest) := by
  simp [Framing.endSeq, Framing.Spaced, waitAfter, Config.tStopD, Config.tStopC, Config.tStopIdle, h]

/-- Parts that each begin and end with CLOCK low, one after another. -/
theorem Framing.flatMap_append_spaced {α : Type} {f : α → List MicroOp}
    (hf : ∀ x {rest}, Framing.Spaced (some (.set .clk .low)) rest →
      Framing.Spaced (some (.set .clk .low)) (f x ++ rest))
    (xs : List α) {rest : List MicroOp} (h : Framing.Spaced (some (.set .clk .low)) rest) :
    Framing.Spaced (some (.set .clk .low)) (xs.flatMap f ++ rest) := by
  induction xs with
  | nil => exact h
  | cons x xs ih =>
    rw [List.flatMap_cons, List.append_assoc]
    exact hf x ih

theorem Framing.txnSeq_append_spaced (bs : List Byte) {rest : List MicroOp}
    (h : Framing.Spaced (some (.set .din .high)) rest) (prev : Option MicroOp) :
    Framing.Spaced prev (Framing.txnSeq bs ++ rest) := by
  have hbyte : ∀ b {rest}, Framing.Spaced (some (.set .clk .low)) rest →
      Framing.Spaced (some (.set .clk .low)) (Framing.sendSeq b ++ rest) :=
    fun b _ => Framing.flatMap_append_spaced Framing.bitSeq_append_spaced (Byte.wireBits b)
  rw [Framing.txnSeq, List.append_assoc, List.append_assoc]
  exact Framing.beginSeq_append_spaced
    (Framing.flatMap_append_spaced hbyte bs (Framing.endSeq_append_spaced h _)) prev

/-- A write or display control, nothing before it, is none, one or two transactions. -/
theorem microSeq_spaced (c : Cfg) {op : Op} (hi : op.isInit = false) :
    Framing.Spaced none (microSeq c op) := by
  have htxn (bs : List Byte) (prev : Option MicroOp) : Framing.Spaced prev (Framing.txnSeq bs) := by
    simpa using Framing.txnSeq_append_spaced bs (rest := []) trivial prev
  rcases microSeq_transactions c op hi with e | ⟨bs, e⟩ | ⟨as, bs, e⟩ <;> rw [e]
  · trivial
  · exact htxn bs none
  · exact Framing.txnSeq_append_spaced as (htxn bs _) none

/-- The `SET` before the one at position `2 k` of `ms`, where `prev` is the one before `ms`. -/
def setBefore (prev : Option MicroOp) (ms : List MicroOp) : Nat → Option MicroOp
  | 0 => prev
  | k + 1 => ms[2 * k]?

/-- Where nothing stands before `ms`, the `SET` before is the one two positions back, if there is one. -/
theorem setBefore_none_eq_some_iff {ms : List MicroOp} {k : Nat} {m : MicroOp} :
    setBefore none ms k = some m ↔ 2 ≤ 2 * k ∧ ms[2 * k - 2]? = some m := by
  cases k with
  | zero => simp [setBefore]
  | succ k => simp [setBefore, Nat.mul_succ]

/-- Position by position: a `SET` at `2 k`, and at `2 k + 1` the `WAIT` between its neighbours. -/
theorem Framing.Spaced.getElem? : ∀ {ms : List MicroOp} {prev : Option MicroOp} (k : Nat),
    Framing.Spaced prev ms → 2 * k < ms.length →
    ∃ l lv, ms[2 * k]? = some (.set l lv) ∧
      ms[2 * k + 1]? = some (.wait (waitAfter (setBefore prev ms k) ms[2 * k + 2]? l lv))
  | .set l lv :: .wait w :: ms, prev, 0, ⟨hw, _⟩, _ =>
    ⟨l, lv, rfl, by simp [hw, setBefore, List.head?_eq_getElem?]⟩
  | .set l lv :: .wait w :: ms, prev, k + 1, ⟨_, h⟩, hk => by
    have hk' : 2 * k < ms.length := by
      rw [List.length_cons, List.length_cons] at hk
      omega
    obtain ⟨l', lv', hset, hwait⟩ := h.getElem? k hk'
    have hprev : setBefore prev (.set l lv :: .wait w :: ms) (k + 1) =
        setBefore (some (.set l lv)) ms k := by
      cases k <;> rfl
    exact ⟨l', lv', hset, hprev ▸ hwait⟩

/-! ### The history up to a `SET` (R199) -/

theorem Watch.close_length (w : Watch) (q : PinRequest) :
    (w.close q).length = if w.last.isSome then 1 else 0 := by
  rw [Watch.close]
  cases w.last <;> rfl

/-- In a write or display control every `SET` ends a gap, but for one that finds none open, as the first
does. -/
theorem gapsFrom_set_length (pc pd : Pin) (l : Line) (p : Pin) (lv : Level) (r : Resp)
    {ms : List MicroOp} (hcfg : ∀ k, MicroOp.cfg k ∉ ms) {w : Watch} (ht : w.timed = true) :
    (gapsFrom w (eventsOf pc pd ms ++ [.set l p lv r])).length =
      setCount ms + if w.last.isSome then 1 else 0 := by
  induction ms generalizing w with
  | nil =>
    rw [setCount, Nat.zero_add, ← w.close_length (.set l lv)]
    exact congrArg List.length (List.append_nil _)
  | cons m ms ih =>
    have hcfg' : ∀ k, MicroOp.cfg k ∉ ms := fun k hk => hcfg k (List.mem_cons_of_mem m hk)
    cases m with
    | cfg k => exact absurd List.mem_cons_self (hcfg k)
    | set k lk =>
      have hrest := ih hcfg' (w := w.see (.set k (pinOfLine pc pd k) lk .ok)) ht
      have hopen : (w.see (.set k (pinOfLine pc pd k) lk .ok)).last.isSome = true := by
        simp [Watch.see, ht]
      rw [if_pos hopen] at hrest
      rw [eventsOf, List.cons_append, gapsFrom, List.length_append, hrest, Watch.gaps,
        Watch.close_length, setCount, Nat.add_comm]
    | wait n => exact ih hcfg' (w := w.see (.wait n)) ht

/-- The gaps of a list up to one of its `SET`s, whatever the answer, are among the gaps of it all. -/
theorem gapsFrom_set_subset (w : Watch) (pc pd : Pin) {ms : List MicroOp} {n : Nat} {l : Line}
    {lv : Level} (hset : ms[n]? = some (.set l lv)) (r : Resp) :
    gapsFrom w (eventsOf pc pd (ms.take n) ++ [.set l (pinOfLine pc pd l) lv r]) ⊆
      gapsFrom w (eventsOf pc pd ms) := by
  have hanswer : gapsFrom w (eventsOf pc pd (ms.take n) ++ [.set l (pinOfLine pc pd l) lv r]) =
      gapsFrom w (eventsOf pc pd (ms.take (n + 1))) := by
    rw [take_succ_of_getElem? hset, eventsOf_append, gapsFrom_append, gapsFrom_append]
    rfl
  rw [hanswer]
  conv_rhs => rw [← List.take_append_drop (n + 1) ms, eventsOf_append, gapsFrom_append]
  exact List.subset_append_left _ _

/-- Settles O13: the micro-sequence is spaced, `SET` by `SET`; the checker, started at the `accept` event,
finds its gaps exact, and those of the history up to a `SET` are among them. -/
theorem setsAreSeparatedByOneWait : Obligations.SetsAreSeparatedByOneWait := by
  constructor
  · intro c op n hi hn
    obtain ⟨k, hk⟩ := Nat.even_or_odd' n
    obtain ⟨l, lv, hset, hwait⟩ := (microSeq_spaced c hi).getElem? k (by omega)
    rcases hk with rfl | rfl
    · refine ⟨fun _ => ⟨l, lv, hset, hwait.trans ?_⟩, fun h => by omega⟩
      simp only [waitAfter, setBefore_none_eq_some_iff]
    · exact ⟨fun h => by omega, fun _ => ⟨_, hwait⟩⟩
  · intro c op pc pd n l lv r hi hset h hh
    have hgaps : gaps h = gapsFrom (Watch.start.see (.accept op))
        (eventsOf pc pd ((microSeq c op).take n) ++ [.set l (pinOfLine pc pd l) lv r]) := by
      rw [hh]
      rfl
    have hcfg (k : Line) : MicroOp.cfg k ∉ (microSeq c op).take n := fun hk =>
      absurd (isInit_of_cfg_mem (List.mem_of_mem_take hk)) (by simp [hi])
    have hexact : ∀ g ∈ gaps h, g.waits = [g.window] := by
      obtain ⟨_, -, -, hall⟩ := Watch.operation_paces pc pd c op (w := Watch.start) (.inl rfl)
      rw [hgaps]
      exact fun g hg => hall g (gapsFrom_set_subset _ pc pd hset r hg)
    refine ⟨?_, hexact, timingOk_of_exact hexact⟩
    rw [hgaps, gapsFrom_set_length pc pd l _ lv r hcfg (by simp [Watch.see, hi])]
    rfl

end Sys2Proof.Machine
